-- ==== Sys2Proof/Word.lean ====
section
/-! DEFINITION. The word and byte types of DSA (00_scope.md R6, R9; 20_memory.md R51). -/

namespace Sys2Proof

/-- A 32-bit word: every register value, address and arithmetic result (R9). -/
abbrev Word := BitVec 32

/-- An 8-bit byte: the unit of memory (R50, R51). -/
abbrev Byte := BitVec 8

end Sys2Proof
end

