-- ==== Sys2Proof/Syntax.lean ====
section
/-! DEFINITION. Register numbers (10_state.md R21) and the instructions of DSA: one constructor of
`Instr` for each row of spec/opcode_table.json (30_encoding.md R96), its operands in the order of
the assembler (R99). -/

namespace Sys2Proof

/-- The 22 register cells that have storage, numbers 0x00 to 0x15 (R20, R21). -/
inductive Cell
  | rg0 | rg1 | rg2 | rg3 | rg4 | rg5 | rg6 | rg7
  | rg8 | rg9 | rga | rgb | rgc | rgd | rge | rgf
  | acc | spr | bpr | ret
  | idr | mmr
deriving DecidableEq, Repr

/-- What a 5-bit register field names (R21): a cell, `zero` (0x16), the filler `noreg` (0x17), or
one of the numbers 0x18 + k, each reserved unless it is `PCX_REGNUM` (R30, R41). -/
inductive Reg
  | cell (c : Cell)
  | zero
  | noreg
  | upper (k : Fin 8)
deriving DecidableEq, Repr

/-- The 39 opcodes, in the order of their numbers 0x00 to 0x26 (30_encoding.md R96). -/
inductive Opcode
  | nop | mov | movs | ldb | ldbs | ldh | ldhs | ldw | stb | sth
  | stw | lli | lui | jmp | jeq | jne | jgt | jge | jlt | jle
  | cmp | inc | dec | shl | shr | add | sub | and | or | not
  | xor | nand | nor | xnor | int | irt | hlt | iadd | isub
deriving DecidableEq, Repr

/-- The instructions. Fields an instruction does not use (R92) are not part of it: the decoder
checks them and the encoder writes them. SHL and SHR have two rows each, the literal and the
register form (R93). -/
inductive Instr
  -- data movement (R110 to R112)
  | nop
  | mov (src dst : Reg)
  | movs (src dst : Reg)
  -- loads (R120 to R125)
  | ldb (base dst : Reg) (offset : BitVec 16)
  | ldbs (base dst : Reg) (offset : BitVec 16)
  | ldh (base dst : Reg) (offset : BitVec 16)
  | ldhs (base dst : Reg) (offset : BitVec 16)
  | ldw (base dst : Reg) (offset : BitVec 16)
  -- stores (R126 to R129)
  | stb (src base : Reg) (offset : BitVec 16)
  | sth (src base : Reg) (offset : BitVec 16)
  | stw (src base : Reg) (offset : BitVec 16)
  -- immediate loads (R140, R141)
  | lli (value : BitVec 16) (dst : Reg)
  | lui (value : BitVec 16) (dst : Reg)
  -- jumps and branches (R150 to R157)
  | jmp (base : Reg) (offset : BitVec 16)
  | jeq (base : Reg) (offset : BitVec 16)
  | jne (base : Reg) (offset : BitVec 16)
  | jgt (base : Reg) (offset : BitVec 16)
  | jge (base : Reg) (offset : BitVec 16)
  | jlt (base : Reg) (offset : BitVec 16)
  | jle (base : Reg) (offset : BitVec 16)
  -- comparison (R170)
  | cmp (reg1 reg2 : Reg)
  -- arithmetic (R175, R176)
  | inc (reg : Reg)
  | dec (reg : Reg)
  -- shifts (R205 to R207)
  | shlLit (reg : Reg) (amount : BitVec 5)
  | shlReg (reg count : Reg)
  | shrLit (reg : Reg) (amount : BitVec 5)
  | shrReg (reg count : Reg)
  -- arithmetic (R177, R178)
  | add (src1 src2 dst : Reg)
  | sub (src1 src2 dst : Reg)
  -- bitwise logical (R190 to R197)
  | and (src1 src2 dst : Reg)
  | or (src1 src2 dst : Reg)
  | not (src dst : Reg)
  | xor (src1 src2 dst : Reg)
  | nand (src1 src2 dst : Reg)
  | nor (src1 src2 dst : Reg)
  | xnor (src1 src2 dst : Reg)
  -- system and control (R215, R217, R219)
  | int (code : BitVec 8)
  | irt
  | hlt
  -- arithmetic with a literal (R179, R180)
  | iadd (src : Reg) (literal : BitVec 16) (dst : Reg)
  | isub (src : Reg) (literal : BitVec 16) (dst : Reg)
deriving DecidableEq, Repr

end Sys2Proof
end

