-- ==== Sys2Proof/WellFormed.lean ====
section
/-! DEFINITION. When an instruction is well formed (30_encoding.md R89, R90 (d), R91 (b);
10_state.md R41): each register field it uses names a register. -/

namespace Sys2Proof

/-- A register number that a used field may hold: not `noreg` (R89), and not reserved (R41) unless it
is `PCX_REGNUM`. -/
def Reg.legal (pcxRegnum : Option (Fin 8)) : Reg → Bool
  | .cell _ => true
  | .zero => true
  | .noreg => false
  | .upper k => decide (pcxRegnum = some k)

/-- The register fields an instruction uses (R92): the register of INC, DEC, SHL and SHR stands in
two fields of the word (R93) and once here. -/
def Instr.regs : Instr → List Reg
  | .nop | .int _ | .irt | .hlt => []
  | .mov a d | .movs a d | .not a d => [a, d]
  | .ldb a d _ | .ldbs a d _ | .ldh a d _ | .ldhs a d _ | .ldw a d _ => [a, d]
  | .stb a b _ | .sth a b _ | .stw a b _ => [a, b]
  | .lli _ d | .lui _ d => [d]
  | .jmp b _ | .jeq b _ | .jne b _ | .jgt b _ | .jge b _ | .jlt b _ | .jle b _ => [b]
  | .cmp a b => [a, b]
  | .inc r | .dec r | .shlLit r _ | .shrLit r _ => [r]
  | .shlReg r n | .shrReg r n => [r, n]
  | .add a b d | .sub a b d | .and a b d | .or a b d | .xor a b d | .nand a b d | .nor a b d
  | .xnor a b d => [a, b, d]
  | .iadd a _ d | .isub a _ d => [a, d]

/-- An instruction is well formed when every register field it uses is legal. -/
def Instr.wf (pcxRegnum : Option (Fin 8)) (i : Instr) : Bool :=
  i.regs.all (Reg.legal pcxRegnum)

end Sys2Proof
end

