-- ==== Sys2Proof/Decode.lean ====
section
/-! DEFINITION. Instruction words: the decoder (30_encoding.md R80 to R96), total and rejecting by
name, and after it the encoder. -/

namespace Sys2Proof

/-! ### Numbers of registers and opcodes -/

/-- The register cell's number, 0x00 to 0x15 (R21). -/
def Cell.num : Cell → BitVec 5
  | .rg0 => 0x00
  | .rg1 => 0x01
  | .rg2 => 0x02
  | .rg3 => 0x03
  | .rg4 => 0x04
  | .rg5 => 0x05
  | .rg6 => 0x06
  | .rg7 => 0x07
  | .rg8 => 0x08
  | .rg9 => 0x09
  | .rga => 0x0A
  | .rgb => 0x0B
  | .rgc => 0x0C
  | .rgd => 0x0D
  | .rge => 0x0E
  | .rgf => 0x0F
  | .acc => 0x10
  | .spr => 0x11
  | .bpr => 0x12
  | .ret => 0x13
  | .idr => 0x14
  | .mmr => 0x15

/-- The number that stands for a register in a register field (R21). -/
def Reg.num : Reg → BitVec 5
  | .cell c => c.num
  | .zero => 0x16
  | .noreg => 0x17
  | .upper k => 0x18 + BitVec.ofNat 5 k.val

/-- What a register field's number names (R21). -/
def Reg.ofNum (n : BitVec 5) : Reg :=
  match n.toNat with
  | 0x00 => .cell .rg0
  | 0x01 => .cell .rg1
  | 0x02 => .cell .rg2
  | 0x03 => .cell .rg3
  | 0x04 => .cell .rg4
  | 0x05 => .cell .rg5
  | 0x06 => .cell .rg6
  | 0x07 => .cell .rg7
  | 0x08 => .cell .rg8
  | 0x09 => .cell .rg9
  | 0x0A => .cell .rga
  | 0x0B => .cell .rgb
  | 0x0C => .cell .rgc
  | 0x0D => .cell .rgd
  | 0x0E => .cell .rge
  | 0x0F => .cell .rgf
  | 0x10 => .cell .acc
  | 0x11 => .cell .spr
  | 0x12 => .cell .bpr
  | 0x13 => .cell .ret
  | 0x14 => .cell .idr
  | 0x15 => .cell .mmr
  | 0x16 => .zero
  | 0x17 => .noreg
  | 0x18 => .upper 0
  | 0x19 => .upper 1
  | 0x1A => .upper 2
  | 0x1B => .upper 3
  | 0x1C => .upper 4
  | 0x1D => .upper 5
  | 0x1E => .upper 6
  | _ => .upper 7

/-- The opcode's number (R96). -/
def Opcode.num : Opcode → BitVec 6
  | .nop => 0x00
  | .mov => 0x01
  | .movs => 0x02
  | .ldb => 0x03
  | .ldbs => 0x04
  | .ldh => 0x05
  | .ldhs => 0x06
  | .ldw => 0x07
  | .stb => 0x08
  | .sth => 0x09
  | .stw => 0x0A
  | .lli => 0x0B
  | .lui => 0x0C
  | .jmp => 0x0D
  | .jeq => 0x0E
  | .jne => 0x0F
  | .jgt => 0x10
  | .jge => 0x11
  | .jlt => 0x12
  | .jle => 0x13
  | .cmp => 0x14
  | .inc => 0x15
  | .dec => 0x16
  | .shl => 0x17
  | .shr => 0x18
  | .add => 0x19
  | .sub => 0x1A
  | .and => 0x1B
  | .or => 0x1C
  | .not => 0x1D
  | .xor => 0x1E
  | .nand => 0x1F
  | .nor => 0x20
  | .xnor => 0x21
  | .int => 0x22
  | .irt => 0x23
  | .hlt => 0x24
  | .iadd => 0x25
  | .isub => 0x26

/-- The opcode of a number; 0x27 to 0x3F are reserved (R94). -/
def Opcode.ofNum (n : BitVec 6) : Option Opcode :=
  match n.toNat with
  | 0x00 => some .nop
  | 0x01 => some .mov
  | 0x02 => some .movs
  | 0x03 => some .ldb
  | 0x04 => some .ldbs
  | 0x05 => some .ldh
  | 0x06 => some .ldhs
  | 0x07 => some .ldw
  | 0x08 => some .stb
  | 0x09 => some .sth
  | 0x0A => some .stw
  | 0x0B => some .lli
  | 0x0C => some .lui
  | 0x0D => some .jmp
  | 0x0E => some .jeq
  | 0x0F => some .jne
  | 0x10 => some .jgt
  | 0x11 => some .jge
  | 0x12 => some .jlt
  | 0x13 => some .jle
  | 0x14 => some .cmp
  | 0x15 => some .inc
  | 0x16 => some .dec
  | 0x17 => some .shl
  | 0x18 => some .shr
  | 0x19 => some .add
  | 0x1A => some .sub
  | 0x1B => some .and
  | 0x1C => some .or
  | 0x1D => some .not
  | 0x1E => some .xor
  | 0x1F => some .nand
  | 0x20 => some .nor
  | 0x21 => some .xnor
  | 0x22 => some .int
  | 0x23 => some .irt
  | 0x24 => some .hlt
  | 0x25 => some .iadd
  | 0x26 => some .isub
  | _ => none

/-! ### Fields of a word (R8, R15, R81, R82) -/

/-- `op = w[31:26]`. -/
def fieldOp (w : Word) : BitVec 6 := w.extractLsb' 26 6
/-- `w[25:21]`: SrcReg1 of the R-type, SrcReg of the I-type. -/
def fieldA (w : Word) : BitVec 5 := w.extractLsb' 21 5
/-- `w[20:16]`: SrcReg2 of the R-type, DestReg of the I-type. -/
def fieldB (w : Word) : BitVec 5 := w.extractLsb' 16 5
/-- `w[15:11]`: DestReg of the R-type. -/
def fieldD (w : Word) : BitVec 5 := w.extractLsb' 11 5
/-- `w[10:6]`: ShiftAmt of the R-type. -/
def fieldSh (w : Word) : BitVec 5 := w.extractLsb' 6 5
/-- `w[5:0]`: Unused of the R-type. -/
def fieldUn (w : Word) : BitVec 6 := w.extractLsb' 0 6
/-- `w[15:0]`: Immediate of the I-type. -/
def fieldImm (w : Word) : BitVec 16 := w.extractLsb' 0 16

/-! ### Decoding (R95) -/

/-- Why a word is no instruction. Each of them raises `IllegalInstruction` (R231); which one is
named first is the model's, since they all raise the same exception. -/
inductive DecodeError
  /-- The opcode is one of 0x27 to 0x3F (R94). -/
  | reservedOpcode
  /-- The R-type field Unused is not 0 (R90 (a)). -/
  | unusedBits
  /-- ShiftAmt is not 0 where no shift amount is used (R90 (b), R93). -/
  | shiftAmount
  /-- A register field the instruction does not use is not noreg (R90 (c), R91 (a)). -/
  | unusedRegister
  /-- A register field the instruction uses holds noreg (R89). -/
  | noregOperand
  /-- A register field the instruction uses holds a reserved number (R41). -/
  | reservedRegister
  /-- INC, DEC, SHL or SHR with SrcReg1 and DestReg different (R93). -/
  | registersDiffer
  /-- INT with bits 15:8 of the immediate not 0 (R91 (c)). -/
  | interruptCode
  /-- Fewer than the four bytes of an instruction word were given (R80). -/
  | truncated
deriving DecidableEq, Repr

/-- A register field that the instruction uses (R90 (d), R91 (b)). -/
def usedReg (pcxRegnum : Option (Fin 8)) (n : BitVec 5) : Except DecodeError Reg :=
  match Reg.ofNum n with
  | .noreg => .error .noregOperand
  | .upper k => if pcxRegnum = some k then .ok (.upper k) else .error .reservedRegister
  | r => .ok r

/-- A register field that the instruction does not use must be 0x17 (R90 (c), R91 (a)). -/
def unusedReg (n : BitVec 5) : Except DecodeError Unit :=
  if n = 0x17 then .ok () else .error .unusedRegister

/-- The field Unused must be 0 (R90 (a)). -/
def checkUn (w : Word) : Except DecodeError Unit :=
  if fieldUn w = 0 then .ok () else .error .unusedBits

/-- ShiftAmt must be 0 where it is not used (R90 (b)). -/
def checkSh (w : Word) : Except DecodeError Unit :=
  if fieldSh w = 0 then .ok () else .error .shiftAmount

/-- R-type with no used field: NOP, IRT, HLT (R92). -/
def decodeR0 (i : Instr) (w : Word) : Except DecodeError Instr := do
  checkUn w
  checkSh w
  unusedReg (fieldA w)
  unusedReg (fieldB w)
  unusedReg (fieldD w)
  return i

/-- R-type with s1 and d used: MOV, MOVS, NOT (R92). -/
def decodeR2 (p : Option (Fin 8)) (mk : Reg → Reg → Instr) (w : Word) :
    Except DecodeError Instr := do
  checkUn w
  checkSh w
  unusedReg (fieldB w)
  let a ← usedReg p (fieldA w)
  let d ← usedReg p (fieldD w)
  return mk a d

/-- R-type with s1, s2 and d used: ADD, SUB and the two-source logical instructions (R92). -/
def decodeR3 (p : Option (Fin 8)) (mk : Reg → Reg → Reg → Instr) (w : Word) :
    Except DecodeError Instr := do
  checkUn w
  checkSh w
  let a ← usedReg p (fieldA w)
  let b ← usedReg p (fieldB w)
  let d ← usedReg p (fieldD w)
  return mk a b d

/-- R-type with s1 and s2 used: CMP (R92). -/
def decodeCmp (p : Option (Fin 8)) (w : Word) : Except DecodeError Instr := do
  checkUn w
  checkSh w
  unusedReg (fieldD w)
  let a ← usedReg p (fieldA w)
  let b ← usedReg p (fieldB w)
  return .cmp a b

/-- SrcReg1 and DestReg must be the same register (R93). -/
def sameReg (p : Option (Fin 8)) (w : Word) : Except DecodeError Reg :=
  if fieldA w = fieldD w then usedReg p (fieldA w) else .error .registersDiffer

/-- R-type with s1 = d used: INC, DEC (R92, R93). -/
def decodeR1 (p : Option (Fin 8)) (mk : Reg → Instr) (w : Word) : Except DecodeError Instr := do
  checkUn w
  checkSh w
  unusedReg (fieldB w)
  let r ← sameReg p w
  return mk r

/-- SHL and SHR (R93, R207): SrcReg2 = noreg chooses the literal form, with the count in ShiftAmt;
any other SrcReg2 the register form, where ShiftAmt must be 0. -/
def decodeShift (p : Option (Fin 8)) (mkLit : Reg → BitVec 5 → Instr) (mkReg : Reg → Reg → Instr)
    (w : Word) : Except DecodeError Instr := do
  checkUn w
  let r ← sameReg p w
  if fieldB w = 0x17 then
    return mkLit r (fieldSh w)
  else
    checkSh w
    let n ← usedReg p (fieldB w)
    return mkReg r n

/-- I-type with s and d used: loads, stores, IADD, ISUB (R92). -/
def decodeI2 (p : Option (Fin 8)) (mk : Reg → Reg → BitVec 16 → Instr) (w : Word) :
    Except DecodeError Instr := do
  let s ← usedReg p (fieldA w)
  let d ← usedReg p (fieldB w)
  return mk s d (fieldImm w)

/-- I-type with d used: LLI, LUI and the jumps (R92). -/
def decodeI1 (p : Option (Fin 8)) (mk : Reg → BitVec 16 → Instr) (w : Word) :
    Except DecodeError Instr := do
  unusedReg (fieldA w)
  let d ← usedReg p (fieldB w)
  return mk d (fieldImm w)

/-- INT: no register field, the code in bits 7:0 and bits 15:8 zero (R84, R91 (c)). -/
def decodeInt (w : Word) : Except DecodeError Instr := do
  unusedReg (fieldA w)
  unusedReg (fieldB w)
  if w.extractLsb' 8 8 = 0 then return .int (w.extractLsb' 0 8) else .error .interruptCode

/-- Decode an instruction word (R95): exactly one instruction, or the reason why it raises
`IllegalInstruction`. The rule of R88 (`STRICT_FIELDS`) is in the checks of the formats above. -/
def decodeWord (p : Option (Fin 8)) (w : Word) : Except DecodeError Instr :=
  match Opcode.ofNum (fieldOp w) with
  | none => .error .reservedOpcode
  | some .nop => decodeR0 .nop w
  | some .mov => decodeR2 p .mov w
  | some .movs => decodeR2 p .movs w
  | some .ldb => decodeI2 p .ldb w
  | some .ldbs => decodeI2 p .ldbs w
  | some .ldh => decodeI2 p .ldh w
  | some .ldhs => decodeI2 p .ldhs w
  | some .ldw => decodeI2 p .ldw w
  | some .stb => decodeI2 p .stb w
  | some .sth => decodeI2 p .sth w
  | some .stw => decodeI2 p .stw w
  | some .lli => decodeI1 p (fun d imm => .lli imm d) w
  | some .lui => decodeI1 p (fun d imm => .lui imm d) w
  | some .jmp => decodeI1 p .jmp w
  | some .jeq => decodeI1 p .jeq w
  | some .jne => decodeI1 p .jne w
  | some .jgt => decodeI1 p .jgt w
  | some .jge => decodeI1 p .jge w
  | some .jlt => decodeI1 p .jlt w
  | some .jle => decodeI1 p .jle w
  | some .cmp => decodeCmp p w
  | some .inc => decodeR1 p .inc w
  | some .dec => decodeR1 p .dec w
  | some .shl => decodeShift p .shlLit .shlReg w
  | some .shr => decodeShift p .shrLit .shrReg w
  | some .add => decodeR3 p .add w
  | some .sub => decodeR3 p .sub w
  | some .and => decodeR3 p .and w
  | some .or => decodeR3 p .or w
  | some .not => decodeR2 p .not w
  | some .xor => decodeR3 p .xor w
  | some .nand => decodeR3 p .nand w
  | some .nor => decodeR3 p .nor w
  | some .xnor => decodeR3 p .xnor w
  | some .int => decodeInt w
  | some .irt => decodeR0 .irt w
  | some .hlt => decodeR0 .hlt w
  | some .iadd => decodeI2 p (fun s d imm => .iadd s imm d) w
  | some .isub => decodeI2 p (fun s d imm => .isub s imm d) w

/-- The word whose bytes stand in memory from the lowest address on (20_memory.md R52, R53). -/
def wordOfBytes (b0 b1 b2 b3 : Byte) : Word := (((b3 ++ b2 : BitVec 16) ++ b1 : BitVec 24) ++ b0 : BitVec 32)

/-- Decode the instruction at the start of a list of bytes, lowest address first, and answer it with
the bytes after it (R80, R53). -/
def decodeBytes (p : Option (Fin 8)) : List Byte → Except DecodeError (Instr × List Byte)
  | b0 :: b1 :: b2 :: b3 :: rest => do
    let i ← decodeWord p (wordOfBytes b0 b1 b2 b3)
    return (i, rest)
  | _ => .error .truncated

/-- Byte `k` of a word, bits `8k+7` to `8k` (R52). -/
def wordByte (w : Word) (k : Nat) : Byte := w.extractLsb' (8 * k) 8

/-- The host's numbering of an instruction's bits: `w` in at most `nbits` bits, the rest 0. -/
def tableWord (nbits w : Nat) : Word := BitVec.ofNat 32 (w % 2 ^ min nbits 32)

/-- The instruction the decoder reads from a row of the opcode table, its bits laid out as four bytes
in memory order. `PCX_REGNUM` is none here, as it is after reset. -/
def decodeTableWord (nbits w : Nat) : Option Instr :=
  let x := tableWord nbits w
  match decodeBytes none [wordByte x 0, wordByte x 1, wordByte x 2, wordByte x 3] with
  | .ok (i, _) => some i
  | .error _ => none

/-! ### Encoding -/

/-- An R-type word (R81). -/
def rWord (op : Opcode) (a b d : BitVec 5) (sh : BitVec 5) : Word :=
  (((((op.num ++ a : BitVec 11) ++ b : BitVec 16) ++ d : BitVec 21) ++ sh : BitVec 26) ++ 0#6 : BitVec 32)

/-- An I-type word (R82). -/
def iWord (op : Opcode) (s d : BitVec 5) (imm : BitVec 16) : Word :=
  (((op.num ++ s : BitVec 11) ++ d : BitVec 16) ++ imm : BitVec 32)

/-- The number 0x17 in an unused register field (R87). -/
def noregNum : BitVec 5 := 0x17

/-- The word of an instruction (R81, R82, R92, R93). -/
def encode : Instr → Word
  | .nop => rWord .nop noregNum noregNum noregNum 0
  | .mov src dst => rWord .mov src.num noregNum dst.num 0
  | .movs src dst => rWord .movs src.num noregNum dst.num 0
  | .ldb base dst offset => iWord .ldb base.num dst.num offset
  | .ldbs base dst offset => iWord .ldbs base.num dst.num offset
  | .ldh base dst offset => iWord .ldh base.num dst.num offset
  | .ldhs base dst offset => iWord .ldhs base.num dst.num offset
  | .ldw base dst offset => iWord .ldw base.num dst.num offset
  | .stb src base offset => iWord .stb src.num base.num offset
  | .sth src base offset => iWord .sth src.num base.num offset
  | .stw src base offset => iWord .stw src.num base.num offset
  | .lli value dst => iWord .lli noregNum dst.num value
  | .lui value dst => iWord .lui noregNum dst.num value
  | .jmp base offset => iWord .jmp noregNum base.num offset
  | .jeq base offset => iWord .jeq noregNum base.num offset
  | .jne base offset => iWord .jne noregNum base.num offset
  | .jgt base offset => iWord .jgt noregNum base.num offset
  | .jge base offset => iWord .jge noregNum base.num offset
  | .jlt base offset => iWord .jlt noregNum base.num offset
  | .jle base offset => iWord .jle noregNum base.num offset
  | .cmp reg1 reg2 => rWord .cmp reg1.num reg2.num noregNum 0
  | .inc reg => rWord .inc reg.num noregNum reg.num 0
  | .dec reg => rWord .dec reg.num noregNum reg.num 0
  | .shlLit reg amount => rWord .shl reg.num noregNum reg.num amount
  | .shlReg reg count => rWord .shl reg.num count.num reg.num 0
  | .shrLit reg amount => rWord .shr reg.num noregNum reg.num amount
  | .shrReg reg count => rWord .shr reg.num count.num reg.num 0
  | .add src1 src2 dst => rWord .add src1.num src2.num dst.num 0
  | .sub src1 src2 dst => rWord .sub src1.num src2.num dst.num 0
  | .and src1 src2 dst => rWord .and src1.num src2.num dst.num 0
  | .or src1 src2 dst => rWord .or src1.num src2.num dst.num 0
  | .not src dst => rWord .not src.num noregNum dst.num 0
  | .xor src1 src2 dst => rWord .xor src1.num src2.num dst.num 0
  | .nand src1 src2 dst => rWord .nand src1.num src2.num dst.num 0
  | .nor src1 src2 dst => rWord .nor src1.num src2.num dst.num 0
  | .xnor src1 src2 dst => rWord .xnor src1.num src2.num dst.num 0
  | .int code => iWord .int noregNum noregNum (0#8 ++ code)
  | .irt => rWord .irt noregNum noregNum noregNum 0
  | .hlt => rWord .hlt noregNum noregNum noregNum 0
  | .iadd src literal dst => iWord .iadd src.num dst.num literal
  | .isub src literal dst => iWord .isub src.num dst.num literal

end Sys2Proof
end

