-- ==== Sys2Proof/Config.lean ====
section
/-! DEFINITION. The open parameters of DSA (00_scope.md R7) and the free values.

A parameter that the source leaves open is a field of `Config`, which stands in the machine's state
and which no step changes: a statement about every state is a statement about every configuration.
Where a parameter may be a function that plain data cannot write out, the data lists the points
that are known and an opaque constant, of which nothing can be proved, answers at every other point. -/

namespace Sys2Proof

/-- The privilege mode (10_state.md R36, 60_exceptions.md R250). -/
inductive Mode
  | kernel
  | user
deriving DecidableEq, Repr

/-- The kind of a memory access (20_memory.md R56 to R58). -/
inductive AccessKind
  | fetch
  | read
  | write
deriving DecidableEq, Repr

/-- The size of a memory access, `n` of R56: 1, 2 or 4 bytes (R51). -/
inductive Size
  | byte
  | half
  | word
deriving DecidableEq, Repr

/-- The number `n` of bytes of an access (R51, R60). -/
def Size.bytes : Size → Nat
  | .byte => 1
  | .half => 2
  | .word => 4

/-- `MOVS_WIDTH`, the width MOVS extends from: 8 or 16 bits (R7, decision D6, open). -/
inductive MovsWidth
  | byte
  | half
deriving DecidableEq, Repr, Inhabited

/-- The byte memory, as pairs of an address and the byte there. -/
abbrev Memory := List Host.Cell

/-- What `IDT_LOOKUP` comes to (48_system.md R215, R216): a handler address, or the exception it
raises with the address it failed on. -/
inductive Lookup
  | handler (address : Word)
  | alignmentFault (address : Word)
  | memoryAccessViolation (address : Word)
deriving DecidableEq, Repr, Inhabited

/-- One read of memory that `IDT_LOOKUP` makes (R60, the row of INT): the address and the size. -/
structure TableRead where
  address : Word
  size : Size
deriving DecidableEq, Repr

/-- One lookup as `IDT_LOOKUP` defines it (R60, R215, R235): what it reads of memory, in order, each read
subject to `Accessible` (60_exceptions.md R234), and what it answers when every read is accessible. -/
structure TableLookup where
  reads : List TableRead
  result : Lookup
deriving DecidableEq, Repr, Inhabited

/-- One known point of `Accessible` (R58): accesses whose address lies from `first` to `last`, of
the given size, kind and mode (`none`: of every one), are allowed or not. -/
structure AccessRule where
  first : Word
  last : Word
  size : Option Size
  kind : Option AccessKind
  mode : Option Mode
  allow : Bool
deriving DecidableEq, Repr

/-- One known point of `IDT_LOOKUP` (R215): for this value of idr and this code (`none`: for every
one) the lookup is `lookup`. -/
structure IdtEntry where
  idr : Option Word
  code : Option (BitVec 8)
  lookup : TableLookup
deriving DecidableEq, Repr

/-- The open parameters of R7, as plain data.
* `pcxRegnum`: `PCX_REGNUM`, `some k` for the register number `0x18 + k` (D4).
* `movsWidth`: `MOVS_WIDTH` (D6).
* `resetPc`: `RESET_PC` (D27).
* `access`: the known points of `Accessible`, the first that applies wins (D16); an access under
  none of them is answered by `Config.accessible`.
* `kernelStack`: `KERNEL_STACK`, a fixed word, or `none` where it is a function of the state (D19).
* `idt`: the known points of `IDT_LOOKUP`, the first that applies wins (D20); a lookup under none
  of them is answered by `Config.idtLookup`. -/
structure Config where
  pcxRegnum : Option (Fin 8)
  movsWidth : MovsWidth
  resetPc : Word
  access : List AccessRule
  kernelStack : Option Word
  idt : List IdtEntry
deriving DecidableEq, Repr

/-- FREE VALUE. The flag bits that the spec leaves unspecified (R32 `unspecified_5`, R217
`unspecified_6`): one fresh draw of six bits for each value of the state's counter of draws.
notes/assumptions/3.md -/
opaque Config.freeFlags : Nat → BitVec 6

/-- FREE VALUE. Whether JGE or JLE is taken on flags that the spec leaves unspecified (43_jump_branch.md
R159): one fresh draw for each value of the state's counter of draws. notes/assumptions/28.md -/
opaque Config.freeCondition : Nat → Bool

/-- OPEN. `Accessible` (R58) at an access that no `AccessRule` names: an uninterpreted predicate of
the address, size, kind, mode, mmr, spr and memory. notes/assumptions/4.md -/
opaque Config.accessible :
  (address : Word) → Size → AccessKind → Mode → (mmr spr : Word) → Memory → Bool

/-- OPEN. `IDT_LOOKUP(mem, idr, code)` (R215, D20) where no `IdtEntry` applies: the reads it makes and what
it answers. notes/assumptions/5.md -/
opaque Config.idtLookup : Memory → (idr : Word) → (code : BitVec 8) → TableLookup

/-- OPEN. The `MOVS_WIDTH` of the configuration after reset (D6): 8 or 16, and nothing says which.
notes/assumptions/8.md -/
opaque Config.resetMovsWidth : MovsWidth

/-- OPEN. The handler address that the configuration after reset gives for every interrupt code
(D20). notes/assumptions/8.md -/
opaque Config.resetHandler : Word

/-- DESIGN CHOICE (notes/assumptions/1.md). What each of the 22 register cells holds after reset,
where R40 gives no value and only says that zero must not be assumed. -/
def Config.resetWord : Word := 0xCCCCCCCC

/-- DESIGN CHOICE (notes/assumptions/8.md). The configuration `State.reset` starts with: pcx has no
register number (the choice 92_eei_decisions.md recommends), PCX starts at 0x1000 (where
95_test_vectors.md stands its code), every access is allowed, and the values of `MOVS_WIDTH`,
`KERNEL_STACK` and the handler address stay uninterpreted. No statement rests on it. -/
def Config.reset : Config where
  pcxRegnum := none
  movsWidth := Config.resetMovsWidth
  resetPc := 0x00001000
  access := [⟨0x00000000, 0xFFFFFFFF, none, none, none, true⟩]
  kernelStack := none
  idt := [⟨none, none, ⟨[], .handler Config.resetHandler⟩⟩]

end Sys2Proof
end

