-- ==== Sys2Proof/Machine/State.lean ====
section
/-! DEFINITION. The state of the machine (10_state.md R20), the reasons a step can stop, and the
state after reset (R40, 70_reset_and_hazards.md R270). -/

namespace Sys2Proof.Machine

/-- The 22 register cells (R20 to R23, R35). -/
structure RegFile where
  rg0 : Word
  rg1 : Word
  rg2 : Word
  rg3 : Word
  rg4 : Word
  rg5 : Word
  rg6 : Word
  rg7 : Word
  rg8 : Word
  rg9 : Word
  rga : Word
  rgb : Word
  rgc : Word
  rgd : Word
  rge : Word
  rgf : Word
  acc : Word
  spr : Word
  bpr : Word
  ret : Word
  idr : Word
  mmr : Word
deriving DecidableEq, Repr

/-- The status register STS (R31), a 32-bit register that no instruction reads or writes as a word:
its six flags, bits 0 to 5 in this order, and its reserved bits 31 to 6. `Sts.toWord` of
Machine/Flags.lean lays them out as the register. -/
structure Sts where
  eq : Bool
  gt : Bool
  ge : Bool
  lt : Bool
  le : Bool
  z : Bool
  reserved : BitVec 26
deriving DecidableEq, Repr

/-- What INT keeps for IRT (R38): the mode and bpr of before the INT. -/
structure Saved where
  mode : Mode
  bpr : Word
deriving DecidableEq, Repr

/-- The state of the machine (R20). The last three fields are the model's own: `flagsUnspecified` says
that the comparison flags were last written with unspecified values, by `SetZ` or IRT and not by a CMP
(43_jump_branch.md R159), `draws` counts the free values drawn so far, and `cfg` holds the open parameters of
R7, which the rules take as arguments of the step. -/
structure State where
  regs : RegFile
  pcx : Word
  sts : Sts
  mode : Mode
  saved : Option Saved
  halted : Bool
  mem : Memory
  flagsUnspecified : Bool
  draws : Nat
  cfg : Config
deriving DecidableEq, Repr

/-- Why a step ends in a fault: the four exceptions of the spec, each of which ends the run in
`Fault(E, A, info)` with the state of before the step (60_exceptions.md R230, R240), and the halted
machine. `instr` is `A`, the address of the instruction. Safe: where an implementation delivers the
exception to a handler and goes on, the model proves nothing about it. -/
inductive Fault
  /-- Raised by decoding, and by a register field that names no register (R231). Safe. -/
  | illegalInstruction (instr : Word)
  /-- Raised by a field that names idr or mmr in User mode, or pcx as a destination (R232); `reg` is
  the register the check failed on. Safe. -/
  | protectionFault (instr : Word) (reg : Reg)
  /-- Raised by a data access or a fetch at a misaligned address (R233), or by the lookup of INT as
  `IDT_LOOKUP` defines (R235). Safe. -/
  | alignmentFault (instr : Word) (address : Word)
  /-- Raised by a fetch, load, store or read of the lookup of INT that is not accessible (R234), or by the
  lookup as `IDT_LOOKUP` defines (R235). Safe. -/
  | memoryAccessViolation (instr : Word) (address : Word)
  /-- No exception: raised by the step of a halted machine, which has no step (R28, R39). Safe. -/
  | halted
deriving DecidableEq, Repr

/-- Why the machine refuses: the spec gives the situation no meaning (00_scope.md R14). -/
inductive Refusal
  /-- Raised by an arm of `exec` that has no meaning yet. Safe. -/
  | notModelled (mnemonic : String)
  /-- Raised by a read of pcx other than as the base of a jump (R30, decision D5). Safe. -/
  | pcxRead (reg : Reg)
  /-- Raised by INT while a saved context is held (48_system.md R216, decision D22). Safe. -/
  | nestedInterrupt
  /-- Raised by IRT with no saved context (R218, decision D22). Safe. -/
  | noSavedContext
deriving DecidableEq, Repr

/-- The three outcomes of an instruction or a step. -/
abbrev Out := Host.Outcome State Fault Refusal

/-- OPEN. `KERNEL_STACK(state)` (R215, D19) where the configuration fixes no word.
notes/assumptions/6.md -/
opaque kernelStackOf : State → Word

/-- A machine right after reset, for every value the spec leaves open (R40, R270): STS 0, PCX at
`RESET_PC`, Kernel mode, nothing saved, not halted, the flags specified; the registers, the memory and the parameters
are arguments. -/
def State.boot (cfg : Config) (regs : RegFile) (mem : Memory) : State where
  regs := regs
  pcx := cfg.resetPc
  sts := ⟨false, false, false, false, false, false, 0⟩
  mode := .kernel
  saved := none
  halted := false
  mem := mem
  flagsUnspecified := false
  draws := 0
  cfg := cfg

/-- Every register cell holding `w`. -/
def RegFile.fill (w : Word) : RegFile where
  rg0 := w
  rg1 := w
  rg2 := w
  rg3 := w
  rg4 := w
  rg5 := w
  rg6 := w
  rg7 := w
  rg8 := w
  rg9 := w
  rga := w
  rgb := w
  rgc := w
  rgd := w
  rge := w
  rgf := w
  acc := w
  spr := w
  bpr := w
  ret := w
  idr := w
  mmr := w

/-- The machine after reset. The registers hold `Config.resetWord` (the spec gives no value:
notes/assumptions/1.md), memory lists nothing, the parameters are those of `Config.reset`
(notes/assumptions/8.md). -/
def State.reset : State :=
  State.boot Config.reset (RegFile.fill Config.resetWord) []

end Sys2Proof.Machine
end

