-- ==== Sys2Proof/Machine/Flags.lean ====
section
/-! DEFINITION. The status register: its layout as a word and every flag computation of the spec
(10_state.md R31, R32; 48_system.md R217). -/

namespace Sys2Proof.Machine

/-- STS as the 32-bit register of R31: Equal bit 0, GreaterThan 1, GreaterThanOrEqual 2, LessThan 3,
LessThanOrEqual 4, Zero 5, reserved 31 to 6. -/
def Sts.toWord (f : Sts) : Word :=
  ((((((f.reserved ++ BitVec.ofBool f.z : BitVec 27) ++ BitVec.ofBool f.le : BitVec 28) ++
    BitVec.ofBool f.lt : BitVec 29) ++ BitVec.ofBool f.ge : BitVec 30) ++
    BitVec.ofBool f.gt : BitVec 31) ++ BitVec.ofBool f.eq : BitVec 32)

/-- `SetCmp(a, b)` (R32, R170): every flag takes the truth value of its condition on the exact signed
values, and is specified from now on (R159). -/
def State.setCmp (s : State) (a b : Word) : State :=
  { s with
    sts := { s.sts with
      eq := decide (a = b)
      gt := decide (a.toInt > b.toInt)
      ge := decide (a.toInt ≥ b.toInt)
      lt := decide (a.toInt < b.toInt)
      le := decide (a.toInt ≤ b.toInt)
      z := decide (a = b) }
    flagsUnspecified := false }

/-- `SetZ(v)` (R32): Zero takes the truth value of `v = 0`, and the five comparison flags take a fresh
unspecified value (`unspecified_5`). -/
def State.setZ (s : State) (v : Word) : State :=
  let free := Config.freeFlags s.draws
  { s with
    sts := { s.sts with
      eq := free.getLsbD 0
      gt := free.getLsbD 1
      ge := free.getLsbD 2
      lt := free.getLsbD 3
      le := free.getLsbD 4
      z := decide (v = 0) }
    flagsUnspecified := true
    draws := s.draws + 1 }

/-- STS[5:0] after IRT (R217): all six flags take a fresh unspecified value (`unspecified_6`). -/
def State.freeFlags (s : State) : State :=
  let free := Config.freeFlags s.draws
  { s with
    sts := { s.sts with
      eq := free.getLsbD 0
      gt := free.getLsbD 1
      ge := free.getLsbD 2
      lt := free.getLsbD 3
      le := free.getLsbD 4
      z := free.getLsbD 5 }
    flagsUnspecified := true
    draws := s.draws + 1 }

/-- The condition of JGE and JLE, the OR of two flags (43_jump_branch.md R154, R156). On unspecified
flags it is a free value of its own: R159 admits both outcomes there, whatever a jump before it has
shown of the flags (notes/assumptions/28.md). -/
def State.eitherFlag (s : State) (a b : Bool) : Bool :=
  if s.flagsUnspecified then Config.freeCondition s.draws else a || b

/-- The state after the condition of a JGE or JLE: the free value, where it took one, is spent. -/
def State.spendCondition (s : State) : State :=
  { s with draws := if s.flagsUnspecified then s.draws + 1 else s.draws }

end Sys2Proof.Machine
end

