-- ==== Sys2Proof/Machine/Operands.lean ====
section
/-! DEFINITION. Operand assembly: extension, effective and target addresses, shift counts
(00_scope.md R10; 20_memory.md R59; 30_encoding.md R84, R85; 43_jump_branch.md R157;
47_shift.md R205 to R207). -/

namespace Sys2Proof.Machine

/-- `sext_16` of an immediate (R10, R84). -/
def sext16 (imm : BitVec 16) : Word := imm.signExtend 32

/-- `zext_16` of an immediate (R10, R84). -/
def zext16 (imm : BitVec 16) : Word := imm.setWidth 32

/-- `sext_8` of the low 8 bits of a word (R10). -/
def sextLow8 (w : Word) : Word := (w.setWidth 8).signExtend 32

/-- `sext_16` of the low 16 bits of a word (R10). -/
def sextLow16 (w : Word) : Word := (w.setWidth 16).signExtend 32

/-- `zext_8` of the low 8 bits of a word (R10). -/
def zextLow8 (w : Word) : Word := (w.setWidth 8).setWidth 32

/-- `zext_16` of the low 16 bits of a word (R10). -/
def zextLow16 (w : Word) : Word := (w.setWidth 16).setWidth 32

/-- What MOVS writes: the low `MOVS_WIDTH` bits of the source, sign-extended (R112). -/
def movsExtend (width : MovsWidth) (w : Word) : Word :=
  match width with
  | .byte => sextLow8 w
  | .half => sextLow16 w

/-- `(base + sext_16(imm)) mod 2^32`: the effective address of a load or store (R59) and the target
of a jump (R157). -/
def baseOffset (base : Word) (imm : BitVec 16) : Word := base + sext16 imm

/-- `imm ++ old[15:0]`, what LUI writes (R141). -/
def upperHalf (imm : BitVec 16) (old : Word) : Word := imm ++ old.setWidth 16

/-- The count of a register-form shift, `x[s2][4:0]` (R207). -/
def shiftCount (w : Word) : BitVec 5 := w.setWidth 5

/-- `shift(a, n)` of SHL (R205). -/
def shiftLeft (a : Word) (n : BitVec 5) : Word := a <<< n.toNat

/-- `shift(a, n)` of SHR (R206). -/
def shiftRight (a : Word) (n : BitVec 5) : Word := a >>> n.toNat

/-- The J-type address calculation, `PCX[31:28] ++ w[25:0] ++ 0b00` (R85), which no instruction uses
(R86). -/
def jTypeTarget (pcx : Word) (address : BitVec 26) : Word :=
  ((pcx.extractLsb' 28 4 ++ address : BitVec 30) ++ 0#2 : BitVec 32)

end Sys2Proof.Machine
end

