-- ==== Sys2Proof/Machine/Ops.lean ====
section
/-! DEFINITION. The named operations over registers and memory, taking an exception, and the entry
to and return from an interrupt (10_state.md R24 to R30; 20_memory.md R56 to R58; 60_exceptions.md
R236, R240; 48_system.md R215, R217). -/

namespace Sys2Proof.Machine

/-! ### Exceptions -/

/-- An exception with its info (R230, R240): the register number or the memory address the check
failed on. -/
inductive Exc
  | illegalInstruction
  | protectionFault (reg : Reg)
  | alignmentFault (address : Word)
  | memoryAccessViolation (address : Word)
deriving DecidableEq, Repr

/-- `Fault(E, A, info)` of an exception at the instruction address `a` (R240). -/
def Exc.toFault (a : Word) : Exc → Fault
  | .illegalInstruction => .illegalInstruction a
  | .protectionFault r => .protectionFault a r
  | .alignmentFault addr => .alignmentFault a addr
  | .memoryAccessViolation addr => .memoryAccessViolation a addr

/-- TAKING AN EXCEPTION (R240): the run ends in `Fault(E, A, info)`, and the state is the one from
before the step. The spec describes no handler, saved register or vector for exceptions. -/
def raiseException (a : Word) (e : Exc) : Out :=
  .fault (e.toFault a)

/-- How an instruction stops before it has written anything: an exception, or a refusal. -/
inductive Stop
  | raise (e : Exc)
  | refuse (r : Refusal)
deriving DecidableEq, Repr

/-- The address the executing instruction was fetched from: PCX already holds `A + 4` (R15, R28). -/
def State.instrAddr (s : State) : Word := s.pcx - 4

/-- The outcome of an instruction at address `a`. -/
def outcome (a : Word) : Except Stop State → Out
  | .ok t => .next t
  | .error (.raise e) => raiseException a e
  | .error (.refuse r) => .refused r

/-! ### Register cells -/

/-- The value of a register cell, `R[i]` (R11). -/
def RegFile.get (f : RegFile) : Cell → Word
  | .rg0 => f.rg0
  | .rg1 => f.rg1
  | .rg2 => f.rg2
  | .rg3 => f.rg3
  | .rg4 => f.rg4
  | .rg5 => f.rg5
  | .rg6 => f.rg6
  | .rg7 => f.rg7
  | .rg8 => f.rg8
  | .rg9 => f.rg9
  | .rga => f.rga
  | .rgb => f.rgb
  | .rgc => f.rgc
  | .rgd => f.rgd
  | .rge => f.rge
  | .rgf => f.rgf
  | .acc => f.acc
  | .spr => f.spr
  | .bpr => f.bpr
  | .ret => f.ret
  | .idr => f.idr
  | .mmr => f.mmr

/-- Write a register cell, `R[i] <- v`. -/
def RegFile.set (f : RegFile) (c : Cell) (v : Word) : RegFile :=
  match c with
  | .rg0 => { f with rg0 := v }
  | .rg1 => { f with rg1 := v }
  | .rg2 => { f with rg2 := v }
  | .rg3 => { f with rg3 := v }
  | .rg4 => { f with rg4 := v }
  | .rg5 => { f with rg5 := v }
  | .rg6 => { f with rg6 := v }
  | .rg7 => { f with rg7 := v }
  | .rg8 => { f with rg8 := v }
  | .rg9 => { f with rg9 := v }
  | .rga => { f with rga := v }
  | .rgb => { f with rgb := v }
  | .rgc => { f with rgc := v }
  | .rgd => { f with rgd := v }
  | .rge => { f with rge := v }
  | .rgf => { f with rgf := v }
  | .acc => { f with acc := v }
  | .spr => { f with spr := v }
  | .bpr => { f with bpr := v }
  | .ret => { f with ret := v }
  | .idr => { f with idr := v }
  | .mmr => { f with mmr := v }

/-- The value of a register cell in a state. -/
def State.get (s : State) (c : Cell) : Word := s.regs.get c

/-- The state with a register cell written. -/
def State.set (s : State) (c : Cell) (v : Word) : State := { s with regs := s.regs.set c v }

/-- The privileged cells, idr and mmr (R35). -/
def privileged : Cell → Bool
  | .idr | .mmr => true
  | _ => false

/-- The cell may be named in a used register field in the current mode (R24, R25, R251). -/
def State.mayName (s : State) (c : Cell) : Bool :=
  !(privileged c && decide (s.mode = .user))

/-! ### Registers by number -/

/-- Where a source field stands: as the base of a jump, the only place pcx can be read, or
elsewhere (R30). -/
inductive ReadContext
  | jumpBase
  | other
deriving DecidableEq, Repr

/-- Register read `x[i]` (R24, R30). -/
def State.readReg (s : State) (context : ReadContext) (r : Reg) : Except Stop Word :=
  match r with
  | .cell c => if s.mayName c then .ok (s.get c) else .error (.raise (.protectionFault r))
  | .zero => .ok 0
  | .noreg => .error (.raise .illegalInstruction)
  | .upper k =>
    if s.cfg.pcxRegnum = some k then
      match context with
      | .jumpBase => .ok s.pcx
      | .other => .error (.refuse (.pcxRead r))
    else .error (.raise .illegalInstruction)

/-- `CheckWrite(i)`: what `x[i] <- v` raises (R26). -/
def State.checkWrite (s : State) (r : Reg) : Except Stop Unit :=
  match r with
  | .cell c => if s.mayName c then .ok () else .error (.raise (.protectionFault r))
  | .zero => .ok ()
  | .noreg => .error (.raise .illegalInstruction)
  | .upper k =>
    if s.cfg.pcxRegnum = some k then .error (.raise (.protectionFault r))
    else .error (.raise .illegalInstruction)

/-- What a register write that raises nothing does: a cell takes the value, `zero` discards it
(R25). -/
def State.putReg (s : State) (r : Reg) (v : Word) : State :=
  match r with
  | .cell c => s.set c v
  | _ => s

/-- Register write `x[i] <- v` (R25). -/
def State.writeReg (s : State) (r : Reg) (v : Word) : Except Stop State := do
  s.checkWrite r
  return s.putReg r v

/-- How an instruction uses a register field (R24, R25). -/
inductive Use
  | source
  | destination
deriving DecidableEq, Repr

/-- The `ProtectionFault` conditions on a used field that is legal (R232): idr or mmr in User mode, or
pcx as a destination. -/
def State.protects (s : State) (use : Use) (r : Reg) : Bool :=
  match r with
  | .cell c => !s.mayName c
  | .upper _ => decide (use = .destination)
  | _ => false

/-- The checks of an instruction's used register fields, in the order of R236 items 3 and 4: first
`IllegalInstruction` over all of them, then `ProtectionFault` over all of them. The register that a
`ProtectionFault` reports is the first one in the order the instruction's rule reads and writes them
(notes/assumptions/10.md). -/
def State.checkFields (s : State) (fields : List (Use × Reg)) : Except Stop Unit :=
  if fields.all (fun f => f.2.legal s.cfg.pcxRegnum) then
    match fields.find? (fun f => s.protects f.1 f.2) with
    | some f => .error (.raise (.protectionFault f.2))
    | none => .ok ()
  else .error (.raise .illegalInstruction)

/-! ### Memory -/

/-- The byte at an address that memory does not list (notes/assumptions/2.md). -/
def Memory.unlisted : Byte := 0

/-- The byte at an address. -/
def Memory.read : Memory → Nat → Byte
  | [], _ => Memory.unlisted
  | (a, b) :: m, k => if k = a then b else Memory.read m k

/-- Write the byte at an address, keeping the canonical form. -/
def Memory.write : Memory → Nat → Byte → Memory
  | [], k, v => if v = Memory.unlisted then [] else [(k, v)]
  | (a, b) :: m, k, v =>
    if k < a then
      if v = Memory.unlisted then (a, b) :: m else (k, v) :: (a, b) :: m
    else if k = a then
      if v = Memory.unlisted then m else (k, v) :: m
    else (a, b) :: Memory.write m k v

/-- The canonical form from the address `lo` on: addresses rise strictly, lie below 2^32 (R50), and no
entry is what an unlisted address reads as. -/
def Memory.wfFrom : Nat → Memory → Bool
  | _, [] => true
  | lo, (a, b) :: m =>
    decide (lo ≤ a) && decide (a < 2 ^ 32) && decide (b ≠ Memory.unlisted) && Memory.wfFrom (a + 1) m

/-- Memory is in its canonical form. -/
def Memory.wf (m : Memory) : Bool := Memory.wfFrom 0 m

/-- `mem[a]` (R12). -/
def State.byteAt (s : State) (a : Word) : Byte := Memory.read s.mem a.toNat

/-- The little-endian value of the `n` bytes at `a`, `mem[a+n-1] ++ ... ++ mem[a]`, in the low bits of
a word whose other bits are 0 (R52, R56). -/
def State.valueAt (s : State) (a : Word) : Size → Word
  | .byte => wordOfBytes (s.byteAt a) 0 0 0
  | .half => wordOfBytes (s.byteAt a) (s.byteAt (a + 1)) 0 0
  | .word => wordOfBytes (s.byteAt a) (s.byteAt (a + 1)) (s.byteAt (a + 2)) (s.byteAt (a + 3))

/-- Write one byte, `mem[a] <- v`. -/
def State.putByte (s : State) (a : Word) (v : Byte) : State :=
  { s with mem := Memory.write s.mem a.toNat v }

/-- Store the low `n` bytes of a word, the least significant at the lowest address (R52, R57). -/
def State.putValue (s : State) (a : Word) (v : Word) : Size → State
  | .byte => s.putByte a (wordByte v 0)
  | .half => (s.putByte a (wordByte v 0)).putByte (a + 1) (wordByte v 1)
  | .word =>
    (((s.putByte a (wordByte v 0)).putByte (a + 1) (wordByte v 1)).putByte (a + 2)
      (wordByte v 2)).putByte (a + 3) (wordByte v 3)

/-- An access rule applies to an access. -/
def ruleApplies (r : AccessRule) (a : Word) (n : Size) (kind : AccessKind) (mode : Mode) : Bool :=
  decide (r.first ≤ a) && decide (a ≤ r.last) && decide (r.size.getD n = n) &&
    decide (r.kind.getD kind = kind) && decide (r.mode.getD mode = mode)

/-- `Accessible(addr, n, kind, mode)` (R58): the first access rule that applies decides, and where
none does the uninterpreted predicate. -/
def State.accessible (s : State) (a : Word) (n : Size) (kind : AccessKind) : Bool :=
  match s.cfg.access.find? (fun r => ruleApplies r a n kind s.mode) with
  | some r => r.allow
  | none => Config.accessible a n kind s.mode s.regs.mmr s.regs.spr s.mem

/-- The address is a multiple of the access size (R51, R55). -/
def aligned (a : Word) (n : Size) : Bool := decide (a.toNat % n.bytes = 0)

/-- The checks of a memory access, in the order of R56 and R57: alignment, then `Accessible`. -/
def State.checkAccess (s : State) (a : Word) (n : Size) (kind : AccessKind) : Except Stop Unit :=
  if aligned a n then
    if s.accessible a n kind then .ok () else .error (.raise (.memoryAccessViolation a))
  else .error (.raise (.alignmentFault a))

/-- `MemRead(addr, n)` (R56). -/
def State.memRead (s : State) (a : Word) (n : Size) (kind : AccessKind) : Except Stop Word := do
  s.checkAccess a n kind
  return s.valueAt a n

/-- `MemWrite(addr, n, v)` of the low bits of `v` (R57). -/
def State.memWrite (s : State) (a : Word) (n : Size) (v : Word) : Except Stop State := do
  s.checkAccess a n .write
  return s.putValue a v n

/-! ### Fetching (R28, R29, R53) -/

/-- Fetch the word at PCX. The alignment check of R29 is that of `MemRead` for a word. -/
def State.fetch (s : State) : Except Stop Word := s.memRead s.pcx .word .fetch

/-! ### Interrupt entry and return (R215 to R218, R244, R245) -/

/-- The parameter `IDT_LOOKUP(mem, idr, code)` (R215): the first entry of the configuration that applies
decides, and where none does the uninterpreted lookup. It reads idr with no privilege check (R35).
notes/assumptions/5.md -/
def State.tableLookup (s : State) (code : BitVec 8) : TableLookup :=
  match s.cfg.idt.find? (fun e =>
      decide (e.idr.getD s.regs.idr = s.regs.idr) && decide (e.code.getD code = code)) with
  | some e => e.lookup
  | none => Config.idtLookup s.mem s.regs.idr code

/-- The lookup of INT (R215, R234, R235): its reads are made in order, and the first that `Accessible`
denies raises `MemoryAccessViolation` with its address; with every read accessible the parameter's answer
stands. The kind is read and the mode that of before the entry (DEDUCED: notes/assumptions/5.md). -/
def State.idtLookup (s : State) (code : BitVec 8) : Lookup :=
  match (s.tableLookup code).reads.find? (fun r => !s.accessible r.address r.size .read) with
  | some r => .memoryAccessViolation r.address
  | none => (s.tableLookup code).result

/-- `KERNEL_STACK(state)` (R215, D19). -/
def State.kernelStack (s : State) : Word :=
  match s.cfg.kernelStack with
  | some w => w
  | none => kernelStackOf s

/-- Entry to an interrupt handler (R215, R244): the old mode and bpr are saved, ret receives PCX, bpr
the kernel stack address, the mode becomes Kernel and PCX the handler address. -/
def State.interruptEntry (s : State) (handler : Word) : State :=
  { s with
    saved := some ⟨s.mode, s.regs.bpr⟩
    regs := (s.regs.set .ret s.pcx).set .bpr s.kernelStack
    mode := .kernel
    pcx := handler }

/-- Return from an interrupt handler, but for the flags (R217, R245): the mode and bpr come back from
the saved context, PCX from ret, and the context is spent. -/
def State.interruptReturn (s : State) (c : Saved) : State :=
  { s with
    mode := c.mode
    regs := s.regs.set .bpr c.bpr
    pcx := s.regs.ret
    saved := none }

end Sys2Proof.Machine
end

