-- ==== Sys2Proof/Machine/Shapes.lean ====
section
/-! DEFINITION. The common parts of the instruction rules: one operation for each shape of
instruction (41_load_store.md R120, R126; 43_jump_branch.md R157; 46_logical.md R197; 45_arithmetic.md
R182; 47_shift.md R207). Every check that can raise is made before anything is written (00_scope.md
R13), and a refusal is considered only where nothing raises (10_state.md R30). -/

namespace Sys2Proof.Machine

/-- Write a result to its destination and set the flags from it (`x[d] <- v; SetZ(v)`); the flags are
written even where the destination is `zero` (R182, decision D12). -/
def State.writeResult (s : State) (d : Reg) (v : Word) : Except Stop State := do
  let t ← s.writeReg d v
  return t.setZ v

/-- `x[d] <- f(x[a])` and `SetZ`: MOV, MOVS, NOT, INC, DEC, the literal shifts, IADD and ISUB. -/
def unaryOp (f : Word → Word) (a d : Reg) (s : State) : Out :=
  outcome s.instrAddr do
    s.checkFields [(.source, a), (.destination, d)]
    let x ← s.readReg .other a
    s.writeResult d (f x)

/-- `x[d] <- f(x[a], x[b])` and `SetZ`: ADD, SUB and the two-source logical instructions (R197). -/
def binaryOp (f : Word → Word → Word) (a b d : Reg) (s : State) : Out :=
  outcome s.instrAddr do
    s.checkFields [(.source, a), (.source, b), (.destination, d)]
    let x ← s.readReg .other a
    let y ← s.readReg .other b
    s.writeResult d (f x y)

/-- The register form of a shift (R207): the count comes from the low five bits of the register `n`,
read before `r` is written; `r` is source and destination. -/
def shiftRegOp (f : Word → BitVec 5 → Word) (r n : Reg) (s : State) : Out :=
  outcome s.instrAddr do
    s.checkFields [(.source, n), (.source, r), (.destination, r)]
    let y ← s.readReg .other n
    let x ← s.readReg .other r
    s.writeResult r (f x (shiftCount y))

/-- The common part of the loads (R120). -/
def loadOp (n : Size) (ext : Word → Word) (base dst : Reg) (offset : BitVec 16) (s : State) : Out :=
  outcome s.instrAddr do
    s.checkFields [(.source, base), (.destination, dst)]
    let b ← s.readReg .other base
    let v ← s.memRead (baseOffset b offset) n .read
    s.writeReg dst (ext v)

/-- The common part of the stores (R126). The checks of the access come before the read of the data
register, because a read of pcx there is refused only where no exception is raised (R30). -/
def storeOp (n : Size) (src base : Reg) (offset : BitVec 16) (s : State) : Out :=
  outcome s.instrAddr do
    s.checkFields [(.source, src), (.source, base)]
    let b ← s.readReg .other base
    s.checkAccess (baseOffset b offset) n .write
    let data ← s.readReg .other src
    s.memWrite (baseOffset b offset) n data

/-- The common part of the jumps (R157): the register checks are made whether or not the condition
holds, and the target is not checked. -/
def jumpOp (cond : Bool) (base : Reg) (offset : BitVec 16) (s : State) : Out :=
  outcome s.instrAddr do
    s.checkFields [(.source, base)]
    let b ← s.readReg .jumpBase base
    return if cond then { s with pcx := baseOffset b offset } else s

end Sys2Proof.Machine
end

