-- ==== Sys2Proof/Machine/Arithmetic.lean ====
section
/-! DEFINITION. INC, DEC, ADD, SUB, IADD, ISUB (45_arithmetic.md R175 to R182): arithmetic modulo 2^32
(R181), ending in `SetZ` (R182). -/

namespace Sys2Proof.Machine

/-- INC (R175): `x[s1] + 1`; the register is source and destination. -/
def execInc (reg : Reg) (s : State) : Out := unaryOp (fun x => x + 1) reg reg s

/-- DEC (R176): `x[s1] - 1`. -/
def execDec (reg : Reg) (s : State) : Out := unaryOp (fun x => x - 1) reg reg s

/-- ADD (R177): `x[s1] + x[s2]`. -/
def execAdd (src1 src2 dst : Reg) (s : State) : Out := binaryOp (fun x y => x + y) src1 src2 dst s

/-- SUB (R178): `x[s1] - x[s2]`. -/
def execSub (src1 src2 dst : Reg) (s : State) : Out := binaryOp (fun x y => x - y) src1 src2 dst s

/-- IADD (R179): `x[s] + sext_16(imm)`. -/
def execIadd (src : Reg) (literal : BitVec 16) (dst : Reg) (s : State) : Out :=
  unaryOp (fun x => x + sext16 literal) src dst s

/-- ISUB (R180): `x[s] - sext_16(imm)`. -/
def execIsub (src : Reg) (literal : BitVec 16) (dst : Reg) (s : State) : Out :=
  unaryOp (fun x => x - sext16 literal) src dst s

end Sys2Proof.Machine
end

