-- ==== Sys2Proof/Machine/Compare.lean ====
section
/-! DEFINITION. CMP (44_compare.md R170). -/

namespace Sys2Proof.Machine

/-- CMP (R170): all six flags from the signed comparison; no register is written. -/
def execCmp (reg1 reg2 : Reg) (s : State) : Out :=
  outcome s.instrAddr do
    s.checkFields [(.source, reg1), (.source, reg2)]
    let a ← s.readReg .other reg1
    let b ← s.readReg .other reg2
    return s.setCmp a b

end Sys2Proof.Machine
end

