-- ==== Sys2Proof/Machine/DataMovement.lean ====
section
/-! DEFINITION. NOP, MOV, MOVS (40_data_movement.md R110 to R112). -/

namespace Sys2Proof.Machine

/-- NOP (R110): nothing. -/
def execNop (s : State) : Out := .next s

/-- MOV (R111): `v <- x[s1]; x[d] <- v; SetZ(v)`. -/
def execMov (src dst : Reg) (s : State) : Out := unaryOp (fun x => x) src dst s

/-- MOVS (R112): as MOV, with the low `MOVS_WIDTH` bits sign-extended. -/
def execMovs (src dst : Reg) (s : State) : Out := unaryOp (movsExtend s.cfg.movsWidth) src dst s

end Sys2Proof.Machine
end

