-- ==== Sys2Proof/Machine/ImmediateLoad.lean ====
section
/-! DEFINITION. LLI, LUI (42_immediate_load.md R140, R141). Neither writes STS. -/

namespace Sys2Proof.Machine

/-- LLI (R140): `x[d] <- zext_16(imm)`. -/
def execLli (value : BitVec 16) (dst : Reg) (s : State) : Out :=
  outcome s.instrAddr do
    s.checkFields [(.destination, dst)]
    s.writeReg dst (zext16 value)

/-- LUI (R141): `x[d] <- imm ++ x[d][15:0]`; the destination is read and written, and where it is
pcx the write's exception precedes the read's refusal. -/
def execLui (value : BitVec 16) (dst : Reg) (s : State) : Out :=
  outcome s.instrAddr do
    s.checkFields [(.source, dst), (.destination, dst)]
    let old ← s.readReg .other dst
    s.writeReg dst (upperHalf value old)

end Sys2Proof.Machine
end

