-- ==== Sys2Proof/Machine/Jump.lean ====
section
/-! DEFINITION. JMP, JEQ, JNE, JGT, JGE, JLT, JLE (43_jump_branch.md R150 to R159). No jump writes
STS. -/

namespace Sys2Proof.Machine

/-- JMP (R150): always. -/
def execJmp (base : Reg) (offset : BitVec 16) (s : State) : Out := jumpOp true base offset s

/-- JEQ (R151): if STS.EQ = 1. -/
def execJeq (base : Reg) (offset : BitVec 16) (s : State) : Out := jumpOp s.sts.eq base offset s

/-- JNE (R152): if STS.EQ = 0. -/
def execJne (base : Reg) (offset : BitVec 16) (s : State) : Out := jumpOp (!s.sts.eq) base offset s

/-- JGT (R153): if STS.GT = 1. -/
def execJgt (base : Reg) (offset : BitVec 16) (s : State) : Out := jumpOp s.sts.gt base offset s

/-- JGE (R154): if STS.GT = 1 or STS.EQ = 1 (decision D30), and on unspecified flags either way
(R159). -/
def execJge (base : Reg) (offset : BitVec 16) (s : State) : Out :=
  jumpOp (s.eitherFlag s.sts.gt s.sts.eq) base offset s.spendCondition

/-- JLT (R155): if STS.LT = 1. -/
def execJlt (base : Reg) (offset : BitVec 16) (s : State) : Out := jumpOp s.sts.lt base offset s

/-- JLE (R156): if STS.LT = 1 or STS.EQ = 1 (decision D30), and on unspecified flags either way
(R159). -/
def execJle (base : Reg) (offset : BitVec 16) (s : State) : Out :=
  jumpOp (s.eitherFlag s.sts.lt s.sts.eq) base offset s.spendCondition

end Sys2Proof.Machine
end

