-- ==== Sys2Proof/Machine/LoadStore.lean ====
section
/-! DEFINITION. LDB, LDBS, LDH, LDHS, LDW, STB, STH, STW (41_load_store.md R120 to R129). No load or
store writes STS. -/

namespace Sys2Proof.Machine

/-- LDB (R121): one byte, zero-extended. -/
def execLdb (base dst : Reg) (offset : BitVec 16) (s : State) : Out :=
  loadOp .byte zextLow8 base dst offset s

/-- LDBS (R122): one byte, sign-extended. -/
def execLdbs (base dst : Reg) (offset : BitVec 16) (s : State) : Out :=
  loadOp .byte sextLow8 base dst offset s

/-- LDH (R123): a halfword, zero-extended. -/
def execLdh (base dst : Reg) (offset : BitVec 16) (s : State) : Out :=
  loadOp .half zextLow16 base dst offset s

/-- LDHS (R124): a halfword, sign-extended. -/
def execLdhs (base dst : Reg) (offset : BitVec 16) (s : State) : Out :=
  loadOp .half sextLow16 base dst offset s

/-- LDW (R125): a word. -/
def execLdw (base dst : Reg) (offset : BitVec 16) (s : State) : Out :=
  loadOp .word (fun v => v) base dst offset s

/-- STB (R127): bits 7:0 of the data register. -/
def execStb (src base : Reg) (offset : BitVec 16) (s : State) : Out :=
  storeOp .byte src base offset s

/-- STH (R128): bits 15:0 of the data register. -/
def execSth (src base : Reg) (offset : BitVec 16) (s : State) : Out :=
  storeOp .half src base offset s

/-- STW (R129): the whole data register. -/
def execStw (src base : Reg) (offset : BitVec 16) (s : State) : Out :=
  storeOp .word src base offset s

end Sys2Proof.Machine
end

