-- ==== Sys2Proof/Machine/Logical.lean ====
section
/-! DEFINITION. AND, OR, NOT, XOR, NAND, NOR, XNOR (46_logical.md R190 to R197), ending in `SetZ`. -/

namespace Sys2Proof.Machine

/-- AND (R190). -/
def execAnd (src1 src2 dst : Reg) (s : State) : Out := binaryOp (fun x y => x &&& y) src1 src2 dst s

/-- OR (R191). -/
def execOr (src1 src2 dst : Reg) (s : State) : Out := binaryOp (fun x y => x ||| y) src1 src2 dst s

/-- NOT (R192). -/
def execNot (src dst : Reg) (s : State) : Out := unaryOp (fun x => x ^^^ 0xFFFFFFFF) src dst s

/-- XOR (R193). -/
def execXor (src1 src2 dst : Reg) (s : State) : Out := binaryOp (fun x y => x ^^^ y) src1 src2 dst s

/-- NAND (R194). -/
def execNand (src1 src2 dst : Reg) (s : State) : Out :=
  binaryOp (fun x y => (x &&& y) ^^^ 0xFFFFFFFF) src1 src2 dst s

/-- NOR (R195). -/
def execNor (src1 src2 dst : Reg) (s : State) : Out :=
  binaryOp (fun x y => (x ||| y) ^^^ 0xFFFFFFFF) src1 src2 dst s

/-- XNOR (R196). -/
def execXnor (src1 src2 dst : Reg) (s : State) : Out :=
  binaryOp (fun x y => (x ^^^ y) ^^^ 0xFFFFFFFF) src1 src2 dst s

end Sys2Proof.Machine
end

