-- ==== Sys2Proof/Machine/Shift.lean ====
section
/-! DEFINITION. SHL, SHR in the literal and the register form (47_shift.md R205 to R207), ending in
`SetZ`. -/

namespace Sys2Proof.Machine

/-- SHL, literal form (R205, R207). -/
def execShlLit (reg : Reg) (amount : BitVec 5) (s : State) : Out :=
  unaryOp (fun x => shiftLeft x amount) reg reg s

/-- SHL, register form (R205, R207). -/
def execShlReg (reg count : Reg) (s : State) : Out := shiftRegOp shiftLeft reg count s

/-- SHR, literal form (R206, R207). -/
def execShrLit (reg : Reg) (amount : BitVec 5) (s : State) : Out :=
  unaryOp (fun x => shiftRight x amount) reg reg s

/-- SHR, register form (R206, R207). -/
def execShrReg (reg count : Reg) (s : State) : Out := shiftRegOp shiftRight reg count s

end Sys2Proof.Machine
end

