-- ==== Sys2Proof/Machine/System.lean ====
section
/-! DEFINITION. INT, IRT, HLT (48_system.md R215 to R220), legal in either mode (decision D23). -/

namespace Sys2Proof.Machine

/-- INT (R215, R216): refused while a saved context is held; otherwise the handler is looked up, and
unless the lookup raises, the handler is entered. STS is unchanged. -/
def execInt (code : BitVec 8) (s : State) : Out :=
  match s.saved with
  | some _ => .refused .nestedInterrupt
  | none =>
    match s.idtLookup code with
    | .handler h => .next (s.interruptEntry h)
    | .alignmentFault a => raiseException s.instrAddr (.alignmentFault a)
    | .memoryAccessViolation a => raiseException s.instrAddr (.memoryAccessViolation a)

/-- IRT (R217, R218): refused with no saved context; otherwise the return, with all six flags
unspecified. -/
def execIrt (s : State) : Out :=
  match s.saved with
  | none => .refused .noSavedContext
  | some c => .next (s.interruptReturn c).freeFlags

/-- HLT (R219): the machine is halted for good. -/
def execHlt (s : State) : Out := .next { s with halted := true }

end Sys2Proof.Machine
end

