-- ==== Sys2Proof/Machine/Dispatch.lean ====
section
/-! DEFINITION. The dispatch: one arm per instruction (30_encoding.md R96). `exec` runs an instruction
in a state whose PCX already holds the address of the next one (10_state.md R28). -/

namespace Sys2Proof.Machine

def exec (i : Instr) (s : State) : Host.Outcome State Fault Refusal :=
  match i with
  -- data movement (R110 to R112)
  | .nop => Sys2Proof.Machine.execNop s
  | .mov src dst => Sys2Proof.Machine.execMov src dst s
  | .movs src dst => Sys2Proof.Machine.execMovs src dst s
  -- loads (R120 to R125)
  | .ldb base dst offset => Sys2Proof.Machine.execLdb base dst offset s
  | .ldbs base dst offset => Sys2Proof.Machine.execLdbs base dst offset s
  | .ldh base dst offset => Sys2Proof.Machine.execLdh base dst offset s
  | .ldhs base dst offset => Sys2Proof.Machine.execLdhs base dst offset s
  | .ldw base dst offset => Sys2Proof.Machine.execLdw base dst offset s
  -- stores (R126 to R129)
  | .stb src base offset => Sys2Proof.Machine.execStb src base offset s
  | .sth src base offset => Sys2Proof.Machine.execSth src base offset s
  | .stw src base offset => Sys2Proof.Machine.execStw src base offset s
  -- immediate loads (R140, R141)
  | .lli value dst => Sys2Proof.Machine.execLli value dst s
  | .lui value dst => Sys2Proof.Machine.execLui value dst s
  -- jumps and branches (R150 to R157)
  | .jmp base offset => Sys2Proof.Machine.execJmp base offset s
  | .jeq base offset => Sys2Proof.Machine.execJeq base offset s
  | .jne base offset => Sys2Proof.Machine.execJne base offset s
  | .jgt base offset => Sys2Proof.Machine.execJgt base offset s
  | .jge base offset => Sys2Proof.Machine.execJge base offset s
  | .jlt base offset => Sys2Proof.Machine.execJlt base offset s
  | .jle base offset => Sys2Proof.Machine.execJle base offset s
  -- comparison (R170)
  | .cmp reg1 reg2 => Sys2Proof.Machine.execCmp reg1 reg2 s
  -- arithmetic (R175, R176)
  | .inc reg => Sys2Proof.Machine.execInc reg s
  | .dec reg => Sys2Proof.Machine.execDec reg s
  -- shifts (R205 to R207)
  | .shlLit reg amount => Sys2Proof.Machine.execShlLit reg amount s
  | .shlReg reg count => Sys2Proof.Machine.execShlReg reg count s
  | .shrLit reg amount => Sys2Proof.Machine.execShrLit reg amount s
  | .shrReg reg count => Sys2Proof.Machine.execShrReg reg count s
  -- arithmetic (R177, R178)
  | .add src1 src2 dst => Sys2Proof.Machine.execAdd src1 src2 dst s
  | .sub src1 src2 dst => Sys2Proof.Machine.execSub src1 src2 dst s
  -- bitwise logical (R190 to R197)
  | .and src1 src2 dst => Sys2Proof.Machine.execAnd src1 src2 dst s
  | .or src1 src2 dst => Sys2Proof.Machine.execOr src1 src2 dst s
  | .not src dst => Sys2Proof.Machine.execNot src dst s
  | .xor src1 src2 dst => Sys2Proof.Machine.execXor src1 src2 dst s
  | .nand src1 src2 dst => Sys2Proof.Machine.execNand src1 src2 dst s
  | .nor src1 src2 dst => Sys2Proof.Machine.execNor src1 src2 dst s
  | .xnor src1 src2 dst => Sys2Proof.Machine.execXnor src1 src2 dst s
  -- system and control (R215, R217, R219)
  | .int code => Sys2Proof.Machine.execInt code s
  | .irt => Sys2Proof.Machine.execIrt s
  | .hlt => Sys2Proof.Machine.execHlt s
  -- arithmetic with a literal (R179, R180)
  | .iadd src literal dst => Sys2Proof.Machine.execIadd src literal dst s
  | .isub src literal dst => Sys2Proof.Machine.execIsub src literal dst s

end Sys2Proof.Machine
end

