-- ==== Sys2Proof/Machine/Step.lean ====
section
/-! DEFINITION. The step of the machine (10_state.md R28). -/

namespace Sys2Proof.Machine

/-- One step (R28): a halted machine has none; otherwise the word at PCX is fetched, PCX moves past it,
and the word is decoded and its instruction executed. The addresses of the four bytes are those of
`State.fetch`, and a word that does not decode raises `IllegalInstruction` (30_encoding.md R95). -/
def step (s : State) : Host.Outcome State Fault Refusal :=
  if s.halted then .fault .halted
  else
    match s.fetch with
    | .error (.raise e) => raiseException s.pcx e
    | .error (.refuse r) => .refused r
    | .ok cir =>
      match decodeWord s.cfg.pcxRegnum cir with
      | .error _ => raiseException s.pcx .illegalInstruction
      | .ok i => exec i { s with pcx := s.pcx + 4 }

/-- The state with an instruction's bits stored where the next step fetches: at PCX, as four bytes in
memory order. A program is loaded from outside the machine (70_reset_and_hazards.md R272, R274;
notes/assumptions/9.md). -/
def State.withFetchWord (s : State) (nbits w : Nat) : State :=
  s.putValue s.pcx (tableWord nbits w) .word

end Sys2Proof.Machine
end

