-- ==== Sys2Proof/Assembly.lean ====
section
/-! DEFINITION. The assembler statement of an instruction (30_encoding.md R98, R99; 10_state.md R21):
its mnemonic and its operands in order. How a statement is spelled as text beyond that is not in the
source, and pseudo-instructions are out of scope (00_scope.md R5). -/

namespace Sys2Proof

/-- An operand of an assembler statement: a register, or the value of a literal. -/
inductive AsmOperand
  | reg (r : Reg)
  | literal (v : Int)
deriving DecidableEq, Repr

/-- The name of a register cell (R21). -/
def Cell.name : Cell → String
  | .rg0 => "rg0" | .rg1 => "rg1" | .rg2 => "rg2" | .rg3 => "rg3"
  | .rg4 => "rg4" | .rg5 => "rg5" | .rg6 => "rg6" | .rg7 => "rg7"
  | .rg8 => "rg8" | .rg9 => "rg9" | .rga => "rga" | .rgb => "rgb"
  | .rgc => "rgc" | .rgd => "rgd" | .rge => "rge" | .rgf => "rgf"
  | .acc => "acc" | .spr => "spr" | .bpr => "bpr" | .ret => "ret"
  | .idr => "idr" | .mmr => "mmr"

/-- The name of a register; a reserved number has none, and `PCX_REGNUM` is written pcx (R21, R30). -/
def Reg.name (pcxRegnum : Option (Fin 8)) : Reg → Option String
  | .cell c => some c.name
  | .zero => some "zero"
  | .noreg => some "noreg"
  | .upper k => if pcxRegnum = some k then some "pcx" else none

/-- The opcode of an instruction (R96). -/
def Instr.opcode : Instr → Opcode
  | .nop => .nop | .mov _ _ => .mov | .movs _ _ => .movs
  | .ldb _ _ _ => .ldb | .ldbs _ _ _ => .ldbs | .ldh _ _ _ => .ldh | .ldhs _ _ _ => .ldhs
  | .ldw _ _ _ => .ldw | .stb _ _ _ => .stb | .sth _ _ _ => .sth | .stw _ _ _ => .stw
  | .lli _ _ => .lli | .lui _ _ => .lui
  | .jmp _ _ => .jmp | .jeq _ _ => .jeq | .jne _ _ => .jne | .jgt _ _ => .jgt
  | .jge _ _ => .jge | .jlt _ _ => .jlt | .jle _ _ => .jle
  | .cmp _ _ => .cmp | .inc _ => .inc | .dec _ => .dec
  | .shlLit _ _ => .shl | .shlReg _ _ => .shl | .shrLit _ _ => .shr | .shrReg _ _ => .shr
  | .add _ _ _ => .add | .sub _ _ _ => .sub | .and _ _ _ => .and | .or _ _ _ => .or
  | .not _ _ => .not | .xor _ _ _ => .xor | .nand _ _ _ => .nand | .nor _ _ _ => .nor
  | .xnor _ _ _ => .xnor | .int _ => .int | .irt => .irt | .hlt => .hlt
  | .iadd _ _ _ => .iadd | .isub _ _ _ => .isub

/-- The mnemonic (R96). -/
def Opcode.mnemonic : Opcode → String
  | .nop => "NOP" | .mov => "MOV" | .movs => "MOVS" | .ldb => "LDB" | .ldbs => "LDBS"
  | .ldh => "LDH" | .ldhs => "LDHS" | .ldw => "LDW" | .stb => "STB" | .sth => "STH"
  | .stw => "STW" | .lli => "LLI" | .lui => "LUI" | .jmp => "JMP" | .jeq => "JEQ"
  | .jne => "JNE" | .jgt => "JGT" | .jge => "JGE" | .jlt => "JLT" | .jle => "JLE"
  | .cmp => "CMP" | .inc => "INC" | .dec => "DEC" | .shl => "SHL" | .shr => "SHR"
  | .add => "ADD" | .sub => "SUB" | .and => "AND" | .or => "OR" | .not => "NOT"
  | .xor => "XOR" | .nand => "NAND" | .nor => "NOR" | .xnor => "XNOR" | .int => "INT"
  | .irt => "IRT" | .hlt => "HLT" | .iadd => "IADD" | .isub => "ISUB"

/-- The operands in the order of R99: sources first and the destination last, except where the table
says otherwise; LLI and LUI write the value first (90_conflicts.md C5). Offsets and the literals of
IADD and ISUB are signed, the others unsigned (R84). -/
def Instr.asmOperands : Instr → List AsmOperand
  | .nop | .irt | .hlt => []
  | .mov a d | .movs a d | .not a d => [.reg a, .reg d]
  | .ldb b d o | .ldbs b d o | .ldh b d o | .ldhs b d o | .ldw b d o =>
    [.reg b, .reg d, .literal o.toInt]
  | .stb a b o | .sth a b o | .stw a b o => [.reg a, .reg b, .literal o.toInt]
  | .lli v d | .lui v d => [.literal v.toNat, .reg d]
  | .jmp b o | .jeq b o | .jne b o | .jgt b o | .jge b o | .jlt b o | .jle b o =>
    [.reg b, .literal o.toInt]
  | .cmp a b => [.reg a, .reg b]
  | .inc r | .dec r => [.reg r]
  | .shlLit r n | .shrLit r n => [.reg r, .literal n.toNat]
  | .shlReg r n | .shrReg r n => [.reg r, .reg n]
  | .add a b d | .sub a b d | .and a b d | .or a b d | .xor a b d | .nand a b d | .nor a b d
  | .xnor a b d => [.reg a, .reg b, .reg d]
  | .iadd a v d | .isub a v d => [.reg a, .literal v.toInt, .reg d]
  | .int c => [.literal c.toNat]

end Sys2Proof
end

