-- ==== Sys2Proof/Safety.lean ====
section
/-! DEFINITION. The terms claims are stated in: what a register field reads as and whether it can be
written, what an instruction changes and what it leaves alone, what each instruction uses, and the
invariant of the machine. They are written from the rules and not from the operations of Machine/Ops,
so that a claim compares the two. -/

namespace Sys2Proof.Machine

/-! ### Operands -/

/-- idr and mmr are out of reach in User mode (10_state.md R35). -/
def State.reachable (s : State) (c : Cell) : Bool :=
  match s.mode, c with
  | .user, .idr => false
  | .user, .mmr => false
  | _, _ => true

/-- The value a source field reads as, other than the base of a jump (R24); none where the read stops. -/
def State.sourceValue (s : State) : Reg → Option Word
  | .cell c => if s.reachable c then some (s.get c) else none
  | .zero => some 0
  | _ => none

/-- The value the base of a jump reads as (R24, R30): pcx is readable there. -/
def State.baseValue (s : State) : Reg → Option Word
  | .upper k => if s.cfg.pcxRegnum = some k then some s.pcx else none
  | r => s.sourceValue r

/-- A destination field whose write raises nothing (R25). -/
def State.writable (s : State) : Reg → Bool
  | .cell c => s.reachable c
  | .zero => true
  | _ => false

/-! ### The lookup of INT -/

/-- Every read of the lookup of INT for this code is accessible (60_exceptions.md R234). -/
abbrev State.TableReadable (s : State) (code : BitVec 8) : Prop :=
  ∀ r ∈ (s.tableLookup code).reads, s.accessible r.address r.size .read = true

/-! ### What changes and what does not -/

/-- The destination holds `v` and every other register cell is unchanged; a write to `zero` changes
none (R25). -/
def WroteOnly (s t : State) (d : Reg) (v : Word) : Prop :=
  ∀ c : Cell, t.get c = if d = .cell c then v else s.get c

/-- Every register cell is unchanged. -/
def SameCells (s t : State) : Prop := ∀ c : Cell, t.get c = s.get c

/-- Every byte of memory reads as before. -/
def SameMemory (s t : State) : Prop := ∀ a : Word, t.byteAt a = s.byteAt a

/-- The mode, the saved context, the halt and the open parameters are unchanged. -/
def SameControl (s t : State) : Prop :=
  t.mode = s.mode ∧ t.saved = s.saved ∧ t.halted = s.halted ∧ t.cfg = s.cfg

/-- No flag changes, and the flags are specified or not as before (R159). -/
def SameFlags (s t : State) : Prop :=
  t.sts = s.sts ∧ t.flagsUnspecified = s.flagsUnspecified

/-- Zero says whether `v` is 0, and the reserved bits are unchanged; the five comparison flags are
unspecified, and nothing is said of them (`SetZ`, R32). -/
def ZeroFrom (s t : State) (v : Word) : Prop :=
  t.sts.z = decide (v = 0) ∧ t.sts.reserved = s.sts.reserved ∧ t.flagsUnspecified = true

/-- The result `v` goes to `d`, Zero is set from it, and nothing else changes. -/
def ComputedOnly (s t : State) (d : Reg) (v : Word) : Prop :=
  WroteOnly s t d v ∧ ZeroFrom s t v ∧ t.pcx = s.pcx ∧ SameMemory s t ∧ SameControl s t

/-- The value `v` goes to `d`, and nothing else changes: no flag. -/
def LoadedOnly (s t : State) (d : Reg) (v : Word) : Prop :=
  WroteOnly s t d v ∧ SameFlags s t ∧ t.pcx = s.pcx ∧ SameMemory s t ∧ SameControl s t

/-- PCX is `target`, and nothing else changes. -/
def JumpedOnly (s t : State) (target : Word) : Prop :=
  SameCells s t ∧ SameFlags s t ∧ t.pcx = target ∧ SameMemory s t ∧ SameControl s t

/-- The `n` bytes at `a` are the low bytes of `v`, the lowest first, and nothing else changes: every
byte outside them reads as before (20_memory.md R52, R57). -/
def StoredOnly (s t : State) (a : Word) (n : Size) (v : Word) : Prop :=
  (∀ k < n.bytes, t.byteAt (a + BitVec.ofNat 32 k) = v.extractLsb' (8 * k) 8) ∧
  (∀ x : Word, (∀ k < n.bytes, x ≠ a + BitVec.ofNat 32 k) → t.byteAt x = s.byteAt x) ∧
  SameCells s t ∧ SameFlags s t ∧ t.pcx = s.pcx ∧ SameControl s t

/-! ### What an instruction uses (30_encoding.md R97) -/

/-- The register an instruction names as its destination. -/
def destination : Instr → Option Reg
  | .mov _ d | .movs _ d | .not _ d => some d
  | .ldb _ d _ | .ldbs _ d _ | .ldh _ d _ | .ldhs _ d _ | .ldw _ d _ => some d
  | .lli _ d | .lui _ d => some d
  | .inc r | .dec r | .shlLit r _ | .shlReg r _ | .shrLit r _ | .shrReg r _ => some r
  | .add _ _ d | .sub _ _ d | .and _ _ d | .or _ _ d | .xor _ _ d | .nand _ _ d | .nor _ _ d
  | .xnor _ _ d => some d
  | .iadd _ _ d | .isub _ _ d => some d
  | .nop | .stb _ _ _ | .sth _ _ _ | .stw _ _ _ | .jmp _ _ | .jeq _ _ | .jne _ _ | .jgt _ _
  | .jge _ _ | .jlt _ _ | .jle _ _ | .cmp _ _ | .int _ | .irt | .hlt => none

/-- The instructions that write STS: CMP, those that end in `SetZ`, and IRT. -/
def writesFlags : Instr → Bool
  | .mov _ _ | .movs _ _ | .not _ _ | .cmp _ _ | .inc _ | .dec _
  | .shlLit _ _ | .shlReg _ _ | .shrLit _ _ | .shrReg _ _
  | .add _ _ _ | .sub _ _ _ | .and _ _ _ | .or _ _ _ | .xor _ _ _ | .nand _ _ _ | .nor _ _ _
  | .xnor _ _ _ | .iadd _ _ _ | .isub _ _ _ | .irt => true
  | _ => false

/-- The size and kind of an instruction's data access, with its base register and offset (R60). -/
def dataAccess : Instr → Option (Size × AccessKind × Reg × BitVec 16)
  | .ldb b _ o | .ldbs b _ o => some (.byte, .read, b, o)
  | .ldh b _ o | .ldhs b _ o => some (.half, .read, b, o)
  | .ldw b _ o => some (.word, .read, b, o)
  | .stb _ b o => some (.byte, .write, b, o)
  | .sth _ b o => some (.half, .write, b, o)
  | .stw _ b o => some (.word, .write, b, o)
  | _ => none

/-- The seven jumps. -/
def isJump : Instr → Bool
  | .jmp _ _ | .jeq _ _ | .jne _ _ | .jgt _ _ | .jge _ _ | .jlt _ _ | .jle _ _ => true
  | _ => false

/-- INT. -/
def isInt : Instr → Bool
  | .int _ => true
  | _ => false

/-- The instruction whose word stands at PCX, where there is one. -/
def State.current (s : State) : Option Instr :=
  match decodeWord s.cfg.pcxRegnum (wordOfBytes (s.byteAt s.pcx) (s.byteAt (s.pcx + 1))
    (s.byteAt (s.pcx + 2)) (s.byteAt (s.pcx + 3))) with
  | .ok i => some i
  | .error _ => none

/-- A step fetches here: the machine is not halted, PCX is a multiple of 4 and the fetch is accessible
(10_state.md R28, R29). -/
def State.fetches (s : State) : Bool :=
  !s.halted && decide (s.pcx.toNat % 4 = 0) && s.accessible s.pcx .word .fetch

/-! ### Outcomes -/

/-- The outcome with its next state changed by `f`. -/
def mapNext (f : State → State) : Out → Out
  | .next t => .next (f t)
  | .fault e => .fault e
  | .refused r => .refused r

/-- The two outcomes are of the same kind, with next states related by `R` and equal reasons. -/
def RelatedOut (R : State → State → Prop) : Out → Out → Prop
  | .next t, .next u => R t u
  | .fault e, .fault f => e = f
  | .refused q, .refused r => q = r
  | _, _ => False

/-- The states agree but for the flags GreaterThanOrEqual, LessThanOrEqual and Zero. -/
def AgreeButUnreadFlags (s t : State) : Prop :=
  t = { s with sts := { s.sts with ge := t.sts.ge, le := t.sts.le, z := t.sts.z } }

/-- The instruction address a fault reports; none for a halted machine. -/
def Fault.address : Fault → Option Word
  | .illegalInstruction a => some a
  | .protectionFault a _ => some a
  | .alignmentFault a _ => some a
  | .memoryAccessViolation a _ => some a
  | .halted => none

/-! ### The invariant of the machine -/

/-- Memory is in its canonical form; STS[31:6] is 0 (10_state.md R31); a saved context is held in
Kernel mode only, since INT enters Kernel mode and IRT spends the context (R36, R38). -/
def State.Inv (s : State) : Prop :=
  Memory.wf s.mem = true ∧ s.sts.reserved = 0 ∧ (s.saved.isSome = true → s.mode = .kernel)

/-- The successful end of a run (70_reset_and_hazards.md R274): `k` steps lead from `s` to a halted
state. -/
def EndsAt (k : Nat) (s t : State) : Prop :=
  Host.Core.run Sys2Proof.core k s = .next t ∧ t.halted = true

end Sys2Proof.Machine
end

