-- ==== Sys2Proof/Certificates/Slice0/Obligations.lean ====
section
/-! DEFINITION. The statements for the provers. Their terms are those of Sys2Proof/Safety.lean. -/

open Sys2Proof Sys2Proof.Machine

/-! ### Encoding and decoding -/

/-- R81, R82: a word is the sum of the fields of the R-type, and of the I-type, each at its place. -/
def Obligations.WordIsSumOfFormatFields : Prop :=
  ∀ w : Word,
    w.toNat = (fieldOp w).toNat * 2 ^ 26 + (fieldA w).toNat * 2 ^ 21 + (fieldB w).toNat * 2 ^ 16 +
      (fieldD w).toNat * 2 ^ 11 + (fieldSh w).toNat * 2 ^ 6 + (fieldUn w).toNat ∧
    w.toNat = (fieldOp w).toNat * 2 ^ 26 + (fieldA w).toNat * 2 ^ 21 + (fieldB w).toNat * 2 ^ 16 +
      (fieldImm w).toNat

/-- Decoding the word of a well-formed instruction gives the instruction, for all 41 constructors,
every operand and every `PCX_REGNUM`. -/
def Obligations.DecodeOfEncodeGivesInstruction : Prop :=
  ∀ (p : Option (Fin 8)) (i : Instr), i.wf p = true → decodeWord p (encode i) = .ok i

/-- A word that decodes gives a well-formed instruction, and is that instruction's word: no bit of
a word that runs is ignored. The strictness is the spec's decision D10. -/
def Obligations.DecodedInstructionEncodesToItsWord : Prop :=
  ∀ (p : Option (Fin 8)) (w : Word) (i : Instr),
    decodeWord p w = .ok i → i.wf p = true ∧ encode i = w

/-- Instruction words written out from the spec, one or more for each family, decode to the
instructions they stand for. -/
def Obligations.SpecWordsDecode : Prop :=
  decodeWord none 0x02F7B800 = .ok .nop ∧
  decodeWord none 0x04371000 = .ok (.mov (.cell .rg1) (.cell .rg2)) ∧
  decodeWord none 0x0C220003 = .ok (.ldb (.cell .rg1) (.cell .rg2) 3) ∧
  decodeWord none 0x28410004 = .ok (.stw (.cell .rg2) (.cell .rg1) 4) ∧
  decodeWord none 0x2EE01234 = .ok (.lli 0x1234 (.cell .rg0)) ∧
  decodeWord none 0x36F61000 = .ok (.jmp .zero 0x1000) ∧
  decodeWord none 0x5001B800 = .ok (.cmp (.cell .rg0) (.cell .rg1)) ∧
  decodeWord none 0x54B72800 = .ok (.inc (.cell .rg5)) ∧
  decodeWord none 0x5C370FC0 = .ok (.shlLit (.cell .rg1) 31) ∧
  decodeWord none 0x5C220800 = .ok (.shlReg (.cell .rg1) (.cell .rg2)) ∧
  decodeWord none 0x64011000 = .ok (.add (.cell .rg0) (.cell .rg1) (.cell .rg2)) ∧
  decodeWord none 0x80011000 = .ok (.nor (.cell .rg0) (.cell .rg1) (.cell .rg2)) ∧
  decodeWord none 0x8AF70021 = .ok (.int 0x21) ∧
  decodeWord none 0x9A310008 = .ok (.isub (.cell .spr) 8 (.cell .spr)) ∧
  decodeWord (some 0) 0x36F8FFF8 = .ok (.jmp (.upper 0) 0xFFF8)

/-- A word that is the word of no well-formed instruction raises `IllegalInstruction` at the address
it was fetched from. That every such word raises is the spec's decision D10, and that the raise ends
the run its decision D13. -/
def Obligations.OtherWordsRaiseIllegalInstruction : Prop :=
  ∀ (s : State) (w : Word), s.fetches = true →
    w = wordOfBytes (s.byteAt s.pcx) (s.byteAt (s.pcx + 1)) (s.byteAt (s.pcx + 2))
      (s.byteAt (s.pcx + 3)) →
    (∀ i : Instr, i.wf s.cfg.pcxRegnum = true → encode i ≠ w) →
    step s = .fault (.illegalInstruction s.pcx)

/-- A word whose opcode, the top six bits of the byte at `A + 3` (R53), is one of 0x27 to 0x3F raises
`IllegalInstruction`. -/
def Obligations.ReservedOpcodesRaiseIllegalInstruction : Prop :=
  ∀ s : State, s.fetches = true → 0x27 ≤ (s.byteAt (s.pcx + 3)).toNat / 4 →
    step s = .fault (.illegalInstruction s.pcx)

/-- An instruction that names noreg or a reserved number in a field it uses raises
`IllegalInstruction`, whatever else is wrong with it. That a reserved number does, and that this comes
before a `ProtectionFault`, are the spec's decisions D10 and D14. -/
def Obligations.IllFormedOperandsRaiseIllegalInstruction : Prop :=
  ∀ (i : Instr) (s : State), i.wf s.cfg.pcxRegnum = false →
    exec i s = .fault (.illegalInstruction (s.pcx - 4))

/-- R89: an instruction that names noreg as a source or destination raises `IllegalInstruction`,
whatever the mode, and so does its word where it is fetched: no decoded instruction names noreg. (The
word of a register shift whose count is noreg is the literal form by R93, and runs as that.) -/
def Obligations.NoregOperandRaisesIllegalInstruction : Prop :=
  (∀ (i : Instr) (s : State), .noreg ∈ i.regs →
    exec i s = .fault (.illegalInstruction (s.pcx - 4))) ∧
  (∀ (i : Instr) (s : State), .noreg ∈ i.regs → (∀ r, i ≠ .shlReg r .noreg) →
    (∀ r, i ≠ .shrReg r .noreg) → s.fetches = true →
    encode i = wordOfBytes (s.byteAt s.pcx) (s.byteAt (s.pcx + 1)) (s.byteAt (s.pcx + 2))
      (s.byteAt (s.pcx + 3)) →
    step s = .fault (.illegalInstruction s.pcx)) ∧
  (∀ (p : Option (Fin 8)) (w : Word) (i : Instr), decodeWord p w = .ok i → .noreg ∉ i.regs)

/-! ### The step -/

/-- Where the machine fetches and the four bytes at PCX decode to an instruction, the step is that
instruction's meaning in the state whose PCX is moved past the word (decisions D1 and D2). -/
def Obligations.StepRunsDecodedInstruction : Prop :=
  ∀ (s : State) (i : Instr), s.fetches = true →
    decodeBytes s.cfg.pcxRegnum [s.byteAt s.pcx, s.byteAt (s.pcx + 1), s.byteAt (s.pcx + 2),
      s.byteAt (s.pcx + 3)] = .ok (i, []) →
    step s = exec i { s with pcx := s.pcx + 4 }

/-- The word of a well-formed instruction stored at PCX is the instruction the next step runs. -/
def Obligations.StoredInstructionRunsNext : Prop :=
  ∀ (s : State) (i : Instr), Memory.wf s.mem = true → i.wf s.cfg.pcxRegnum = true →
    (s.withFetchWord 32 (encode i).toNat).fetches = true →
    step (s.withFetchWord 32 (encode i).toNat) =
      exec i { s.withFetchWord 32 (encode i).toNat with pcx := s.pcx + 4 }

/-- A fetch at a PCX that is no multiple of 4 raises `AlignmentFault`, and a fetch at a multiple of 4
that is not accessible `MemoryAccessViolation`, each with the fetch address. The fetch's alignment
fault and the order of the two are the spec's decisions D15 and D14. -/
def Obligations.FetchRaisesAlignmentThenAccess : Prop :=
  ∀ s : State, s.halted = false →
    (s.pcx.toNat % 4 ≠ 0 → step s = .fault (.alignmentFault s.pcx s.pcx)) ∧
    (s.pcx.toNat % 4 = 0 → s.accessible s.pcx .word .fetch = false →
      step s = .fault (.memoryAccessViolation s.pcx s.pcx))

/-- After a run has ended at a halted state there is no further step (decision D29; that the model's
answer is the fault `halted` is notes/assumptions/12.md). -/
def Obligations.NoStepAfterTheEnd : Prop :=
  ∀ (k j : Nat) (s t : State), EndsAt k s t →
    Host.Core.run Sys2Proof.core (k + (j + 1)) s = .fault .halted

/-! ### Results: each says that the instruction answers a next state, and all of that state -/

/-- NOP changes nothing; HLT changes only `halted`. -/
def Obligations.NopAndHltComplete : Prop :=
  ∀ s : State, exec .nop s = .next s ∧ exec .hlt s = .next { s with halted := true }

/-- MOV copies its source; MOVS copies the low `MOVS_WIDTH` bits of its source, sign-extended. Zero is
set from the result. The clearing of Zero and its setting where the destination is `zero` are the
spec's decisions D7 and D12. -/
def Obligations.MovAndMovsCopy : Prop :=
  ∀ (s : State) (a d : Reg) (x : Word), s.sourceValue a = some x → s.writable d = true →
    (∃ t, exec (.mov a d) s = .next t ∧ ComputedOnly s t d x) ∧
    (∃ t, exec (.movs a d) s = .next t ∧ ComputedOnly s t d
      (match s.cfg.movsWidth with
        | .byte => (x.setWidth 8).signExtend 32
        | .half => (x.setWidth 16).signExtend 32))

/-- LDB, LDBS, LDH, LDHS, LDW load the little-endian bytes at base plus offset, extended as each says,
and change no flag (decision D9). -/
def Obligations.LoadsReadMemory : Prop :=
  ∀ (s : State) (base d : Reg) (off : BitVec 16) (b : Word),
    s.sourceValue base = some b → s.writable d = true →
    (s.accessible (baseOffset b off) .byte .read = true →
      (∃ t, exec (.ldb base d off) s = .next t ∧
        LoadedOnly s t d ((s.byteAt (baseOffset b off)).setWidth 32)) ∧
      (∃ t, exec (.ldbs base d off) s = .next t ∧
        LoadedOnly s t d ((s.byteAt (baseOffset b off)).signExtend 32))) ∧
    ((baseOffset b off).toNat % 2 = 0 → s.accessible (baseOffset b off) .half .read = true →
      (∃ t, exec (.ldh base d off) s = .next t ∧ LoadedOnly s t d
        ((s.byteAt (baseOffset b off + 1) ++ s.byteAt (baseOffset b off) : BitVec 16).setWidth 32)) ∧
      (∃ t, exec (.ldhs base d off) s = .next t ∧ LoadedOnly s t d
        ((s.byteAt (baseOffset b off + 1) ++ s.byteAt (baseOffset b off) : BitVec 16).signExtend
          32))) ∧
    ((baseOffset b off).toNat % 4 = 0 → s.accessible (baseOffset b off) .word .read = true →
      ∃ t, exec (.ldw base d off) s = .next t ∧ LoadedOnly s t d
        (wordOfBytes (s.byteAt (baseOffset b off)) (s.byteAt (baseOffset b off + 1))
          (s.byteAt (baseOffset b off + 2)) (s.byteAt (baseOffset b off + 3))))

/-- STB, STH, STW store the low 1, 2 or 4 bytes of the data register at base plus offset, the least
significant at the lowest address, and change nothing else; no flag (decision D9). -/
def Obligations.StoresWriteMemory : Prop :=
  ∀ (s : State) (src base : Reg) (off : BitVec 16) (v b : Word), Memory.wf s.mem = true →
    s.sourceValue src = some v → s.sourceValue base = some b →
    (s.accessible (baseOffset b off) .byte .write = true →
      ∃ t, exec (.stb src base off) s = .next t ∧ StoredOnly s t (baseOffset b off) .byte v) ∧
    ((baseOffset b off).toNat % 2 = 0 → s.accessible (baseOffset b off) .half .write = true →
      ∃ t, exec (.sth src base off) s = .next t ∧ StoredOnly s t (baseOffset b off) .half v) ∧
    ((baseOffset b off).toNat % 4 = 0 → s.accessible (baseOffset b off) .word .write = true →
      ∃ t, exec (.stw src base off) s = .next t ∧ StoredOnly s t (baseOffset b off) .word v)

/-- LLI writes the immediate with the upper half cleared; LUI writes the immediate above the
destination's lower half; neither changes a flag (decision D9). -/
def Obligations.LliAndLuiLoadHalves : Prop :=
  ∀ (s : State) (d : Reg) (v : BitVec 16) (old : Word),
    s.writable d = true → s.sourceValue d = some old →
    (∃ t, exec (.lli v d) s = .next t ∧ LoadedOnly s t d (v.setWidth 32)) ∧
    (∃ t, exec (.lui v d) s = .next t ∧ LoadedOnly s t d (v ++ old.extractLsb' 0 16))

/-- The seven jumps: PCX becomes base plus offset where the condition on the flags holds, and stays
past the jump otherwise. The base is a register, `zero`, or pcx itself. JEQ, JNE, JGT and JLT read one
flag. JGE and JLE read the OR of two, by the spec's decision D30; on unspecified flags a free value decides
them, whatever the flags are (R159; its form is the model's choice, notes/assumptions/28.md). The value of
pcx as a base is the spec's decision D1. -/
def Obligations.JumpsGoToBasePlusOffset : Prop :=
  ∀ (s : State) (base : Reg) (off : BitVec 16) (b : Word), s.baseValue base = some b →
    (∃ t, exec (.jmp base off) s = .next t ∧ JumpedOnly s t (b + off.signExtend 32)) ∧
    (∃ t, exec (.jeq base off) s = .next t ∧
      JumpedOnly s t (if s.sts.eq = true then b + off.signExtend 32 else s.pcx)) ∧
    (∃ t, exec (.jne base off) s = .next t ∧
      JumpedOnly s t (if s.sts.eq = false then b + off.signExtend 32 else s.pcx)) ∧
    (∃ t, exec (.jgt base off) s = .next t ∧
      JumpedOnly s t (if s.sts.gt = true then b + off.signExtend 32 else s.pcx)) ∧
    (∃ t, exec (.jge base off) s = .next t ∧
      JumpedOnly s t
        (if (if s.flagsUnspecified = true then Config.freeCondition s.draws = true
            else s.sts.gt = true ∨ s.sts.eq = true)
          then b + off.signExtend 32 else s.pcx)) ∧
    (∃ t, exec (.jlt base off) s = .next t ∧
      JumpedOnly s t (if s.sts.lt = true then b + off.signExtend 32 else s.pcx)) ∧
    (∃ t, exec (.jle base off) s = .next t ∧
      JumpedOnly s t
        (if (if s.flagsUnspecified = true then Config.freeCondition s.draws = true
            else s.sts.lt = true ∨ s.sts.eq = true)
          then b + off.signExtend 32 else s.pcx))

/-- CMP writes all six flags from the signed comparison of its operands, and nothing else. That a flag
is written 0 where its condition is false is the spec's decision D7. -/
def Obligations.CmpSetsTheSixFlags : Prop :=
  ∀ (s : State) (a b : Reg) (x y : Word), s.sourceValue a = some x → s.sourceValue b = some y →
    ∃ t, exec (.cmp a b) s = .next t ∧
      t.sts = ⟨decide (x = y), decide (x.toInt > y.toInt), decide (x.toInt ≥ y.toInt),
        decide (x.toInt < y.toInt), decide (x.toInt ≤ y.toInt), decide (x = y), s.sts.reserved⟩ ∧
      t.flagsUnspecified = false ∧ SameCells s t ∧ t.pcx = s.pcx ∧ SameMemory s t ∧ SameControl s t

/-- INC adds 1 and DEC subtracts 1, modulo 2^32 (flags: decisions D7 and D12). -/
def Obligations.IncAndDecStepByOne : Prop :=
  ∀ (s : State) (r : Reg) (x : Word), s.sourceValue r = some x → s.writable r = true →
    (∃ t, exec (.inc r) s = .next t ∧ ComputedOnly s t r (x + 1)) ∧
    (∃ t, exec (.dec r) s = .next t ∧ ComputedOnly s t r (x - 1))

/-- ADD and SUB compute the sum and the difference modulo 2^32 (flags: decisions D7 and D12). -/
def Obligations.AddAndSubCompute : Prop :=
  ∀ (s : State) (a b d : Reg) (x y : Word),
    s.sourceValue a = some x → s.sourceValue b = some y → s.writable d = true →
    (∃ t, exec (.add a b d) s = .next t ∧ ComputedOnly s t d (x + y)) ∧
    (∃ t, exec (.sub a b d) s = .next t ∧ ComputedOnly s t d (x - y))

/-- IADD and ISUB add and subtract the sign-extended literal modulo 2^32 (flags: decisions D7 and
D12). -/
def Obligations.IaddAndIsubCompute : Prop :=
  ∀ (s : State) (a d : Reg) (literal : BitVec 16) (x : Word),
    s.sourceValue a = some x → s.writable d = true →
    (∃ t, exec (.iadd a literal d) s = .next t ∧
      ComputedOnly s t d (x + literal.signExtend 32)) ∧
    (∃ t, exec (.isub a literal d) s = .next t ∧
      ComputedOnly s t d (x - literal.signExtend 32))

/-- The seven logical instructions compute their bitwise functions (flags: decisions D7 and D12). -/
def Obligations.LogicalInstructionsCompute : Prop :=
  ∀ (s : State) (a b d : Reg) (x y : Word),
    s.sourceValue a = some x → s.sourceValue b = some y → s.writable d = true →
    (∃ t, exec (.and a b d) s = .next t ∧ ComputedOnly s t d (x &&& y)) ∧
    (∃ t, exec (.or a b d) s = .next t ∧ ComputedOnly s t d (x ||| y)) ∧
    (∃ t, exec (.not a d) s = .next t ∧ ComputedOnly s t d (~~~x)) ∧
    (∃ t, exec (.xor a b d) s = .next t ∧ ComputedOnly s t d (x ^^^ y)) ∧
    (∃ t, exec (.nand a b d) s = .next t ∧ ComputedOnly s t d (~~~(x &&& y))) ∧
    (∃ t, exec (.nor a b d) s = .next t ∧ ComputedOnly s t d (~~~(x ||| y))) ∧
    (∃ t, exec (.xnor a b d) s = .next t ∧ ComputedOnly s t d (~~~(x ^^^ y)))

/-- The shifts, bit by bit: bit `i` of the result is bit `i - n` (SHL) or `i + n` (SHR) of the
register, 0 where there is none; the count is the literal, or the low five bits of the count register
(flags: decisions D7, D8 and D12). -/
def Obligations.ShiftsMoveBits : Prop :=
  ∀ (s : State) (r c : Reg) (amount : BitVec 5) (x y : Word),
    s.sourceValue r = some x → s.writable r = true → s.sourceValue c = some y →
    (∃ t v, exec (.shlLit r amount) s = .next t ∧ ComputedOnly s t r v ∧
      ∀ i < 32, v.getLsbD i = (decide (amount.toNat ≤ i) && x.getLsbD (i - amount.toNat))) ∧
    (∃ t v, exec (.shrLit r amount) s = .next t ∧ ComputedOnly s t r v ∧
      ∀ i < 32, v.getLsbD i = (decide (i + amount.toNat ≤ 31) && x.getLsbD (i + amount.toNat))) ∧
    (∃ t v, exec (.shlReg r c) s = .next t ∧ ComputedOnly s t r v ∧
      ∀ i < 32, v.getLsbD i = (decide (y.toNat % 32 ≤ i) && x.getLsbD (i - y.toNat % 32))) ∧
    (∃ t v, exec (.shrReg r c) s = .next t ∧ ComputedOnly s t r v ∧
      ∀ i < 32, v.getLsbD i = (decide (i + y.toNat % 32 ≤ 31) && x.getLsbD (i + y.toNat % 32)))

/-- INT with no saved context and a lookup whose reads are accessible and that finds a handler: ret receives PCX, bpr the kernel stack
address, the mode and bpr of before are saved, the mode is Kernel, PCX is the handler, and nothing else
changes. The saved context and the mode are the spec's decision D18; that the reads of the lookup are of kind
read, in the mode of before the entry, is the model's deduction (notes/assumptions/5.md). -/
def Obligations.IntEntersTheHandler : Prop :=
  ∀ (s : State) (code : BitVec 8) (h : Word), s.saved = none → s.TableReadable code →
    (s.tableLookup code).result = .handler h →
    ∃ t, exec (.int code) s = .next t ∧
      t.get .ret = s.pcx ∧ t.get .bpr = s.kernelStack ∧
      (∀ c, c ≠ .ret → c ≠ .bpr → t.get c = s.get c) ∧
      t.saved = some ⟨s.mode, s.get .bpr⟩ ∧ t.mode = .kernel ∧ t.pcx = h ∧ SameFlags s t ∧
      SameMemory s t ∧ t.halted = s.halted ∧ t.cfg = s.cfg

/-- IRT with a saved context: the mode and bpr come back from it, PCX is ret, the context is spent, and
nothing else changes but STS[5:0], of which nothing is said. What IRT restores is the spec's decision
D21. -/
def Obligations.IrtReturnsToTheSavedContext : Prop :=
  ∀ (s : State) (c : Saved), s.saved = some c →
    ∃ t, exec .irt s = .next t ∧ t.mode = c.mode ∧ t.get .bpr = c.bpr ∧ t.pcx = s.get .ret ∧
      t.saved = none ∧ (∀ x, x ≠ .bpr → t.get x = s.get x) ∧
      t.sts.reserved = s.sts.reserved ∧ t.flagsUnspecified = true ∧
      SameMemory s t ∧ t.halted = s.halted ∧ t.cfg = s.cfg

/-! ### Sequences -/

/-- LLI of the low half and then LUI of the high half load a 32-bit constant; in the other order the
high half is lost (R142). -/
def Obligations.LliThenLuiLoadsConstant : Prop :=
  ∀ (s : State) (c : Cell) (k : Word), s.reachable c = true →
    (∃ t u, exec (.lli (k.extractLsb' 0 16) (.cell c)) s = .next t ∧
      exec (.lui (k.extractLsb' 16 16) (.cell c)) t = .next u ∧ u.get c = k) ∧
    (∃ t u, exec (.lui (k.extractLsb' 16 16) (.cell c)) s = .next t ∧
      exec (.lli (k.extractLsb' 0 16) (.cell c)) t = .next u ∧
      u.get c = (k.extractLsb' 0 16).setWidth 32)

/-- The flags a CMP leaves are one of the three values 0x35, 0x06, 0x18 of STS[5:0], by the signed
order of its operands (R171; decision D7). -/
def Obligations.StatusWordAfterCmp : Prop :=
  ∀ (s t : State) (a b : Reg) (x y : Word), s.sourceValue a = some x → s.sourceValue b = some y →
    exec (.cmp a b) s = .next t →
    t.sts.toWord.extractLsb' 0 6 =
      (if x = y then 0x35 else if x.toInt > y.toInt then 0x06 else 0x18)

/-- After CMP the conditional jumps are taken by the signed order of the compared values (R151 to
R156). -/
def Obligations.JumpsAfterCmpFollowSignedOrder : Prop :=
  ∀ (s t : State) (a b base : Reg) (off : BitVec 16) (x y v : Word),
    s.sourceValue a = some x → s.sourceValue b = some y → exec (.cmp a b) s = .next t →
    t.baseValue base = some v →
    (∃ u, exec (.jeq base off) t = .next u ∧
      u.pcx = if x = y then v + off.signExtend 32 else t.pcx) ∧
    (∃ u, exec (.jne base off) t = .next u ∧
      u.pcx = if x ≠ y then v + off.signExtend 32 else t.pcx) ∧
    (∃ u, exec (.jgt base off) t = .next u ∧
      u.pcx = if x.toInt > y.toInt then v + off.signExtend 32 else t.pcx) ∧
    (∃ u, exec (.jge base off) t = .next u ∧
      u.pcx = if x.toInt ≥ y.toInt then v + off.signExtend 32 else t.pcx) ∧
    (∃ u, exec (.jlt base off) t = .next u ∧
      u.pcx = if x.toInt < y.toInt then v + off.signExtend 32 else t.pcx) ∧
    (∃ u, exec (.jle base off) t = .next u ∧
      u.pcx = if x.toInt ≤ y.toInt then v + off.signExtend 32 else t.pcx)

/-- A word stored by STW is what LDW from the same base and offset loads next, into any destination. -/
def Obligations.StoredWordLoadsBack : Prop :=
  ∀ (s t : State) (src base d : Reg) (off : BitVec 16) (v b : Word), Memory.wf s.mem = true →
    s.sourceValue src = some v → s.sourceValue base = some b → s.writable d = true →
    exec (.stw src base off) s = .next t → t.accessible (baseOffset b off) .word .read = true →
    ∃ u, exec (.ldw base d off) t = .next u ∧ LoadedOnly t u d v

/-- After the word 0xAABBCCDD is written at `a`, the narrower reads there give its bytes and halves
(R54). -/
def Obligations.NarrowReadsSeeTheBytesOfAWordWrite : Prop :=
  ∀ (s t : State) (a : Word), Memory.wf s.mem = true →
    s.memWrite a .word 0xAABBCCDD = .ok t →
    (∀ x n, t.accessible x n .read = true) →
    t.memRead a .byte .read = .ok 0xDD ∧ t.memRead (a + 1) .byte .read = .ok 0xCC ∧
    t.memRead (a + 2) .byte .read = .ok 0xBB ∧ t.memRead (a + 3) .byte .read = .ok 0xAA ∧
    t.memRead a .half .read = .ok 0xCCDD ∧ t.memRead (a + 2) .half .read = .ok 0xAABB

/-- IRT right after an INT gives back the mode and bpr of before the INT and goes on after it; ret is
lost and no other cell changes (decisions D18 and D21). -/
def Obligations.IntThenIrtRestores : Prop :=
  ∀ (s t : State) (code : BitVec 8), exec (.int code) s = .next t →
    ∃ u, exec .irt t = .next u ∧ u.mode = s.mode ∧ u.pcx = s.pcx ∧ u.saved = none ∧
      u.get .ret = s.pcx ∧ (∀ c, c ≠ .ret → u.get c = s.get c) ∧ SameMemory s u ∧
      u.halted = s.halted

/-! ### Registers and memory by number -/

/-- Register read by number (R24): 0x00 to 0x13 read the cell, 0x14 and 0x15 the cell or, in User mode,
`ProtectionFault`, 0x16 reads 0, 0x17 is `IllegalInstruction`; from 0x18 on `PCX_REGNUM` reads PCX as
the base of a jump and is refused elsewhere (decision D5), any other number is `IllegalInstruction`
(decision D10). -/
def Obligations.RegisterReadByNumber : Prop :=
  ∀ (s : State) (context : ReadContext) (n : BitVec 5),
    (∀ c : Cell, c.num = n → n.toNat ≤ 0x13 →
      s.readReg context (Reg.ofNum n) = .ok (s.get c)) ∧
    (∀ c : Cell, c.num = n → 0x14 ≤ n.toNat → n.toNat ≤ 0x15 → s.readReg context (Reg.ofNum n) =
      if s.mode = .user then .error (.raise (.protectionFault (.cell c))) else .ok (s.get c)) ∧
    (n = 0x16 → s.readReg context (Reg.ofNum n) = .ok 0) ∧
    (n = 0x17 → s.readReg context (Reg.ofNum n) = .error (.raise .illegalInstruction)) ∧
    (∀ k : Fin 8, n.toNat = 0x18 + k.val → s.readReg context (Reg.ofNum n) =
      if s.cfg.pcxRegnum = some k then
        (if context = .jumpBase then .ok s.pcx else .error (.refuse (.pcxRead (.upper k))))
      else .error (.raise .illegalInstruction))

/-- Register write by number (R25): 0x00 to 0x13 write the cell and no other, 0x14 and 0x15 do so or, in
User mode, raise `ProtectionFault`, 0x16 changes nothing, 0x17 is `IllegalInstruction`; from 0x18 on
`PCX_REGNUM` raises `ProtectionFault`, any other number `IllegalInstruction` (decision D10). -/
def Obligations.RegisterWriteByNumber : Prop :=
  ∀ (s : State) (n : BitVec 5) (v : Word),
    (∀ c : Cell, c.num = n → (n.toNat ≤ 0x13 ∨ s.mode = .kernel) →
      ∃ t, s.writeReg (Reg.ofNum n) v = .ok t ∧ t = { s with regs := t.regs } ∧
        ∀ e : Cell, t.get e = if e = c then v else s.get e) ∧
    (∀ c : Cell, c.num = n → 0x14 ≤ n.toNat → s.mode = .user →
      s.writeReg (Reg.ofNum n) v = .error (.raise (.protectionFault (.cell c)))) ∧
    (n = 0x16 → s.writeReg (Reg.ofNum n) v = .ok s) ∧
    (n = 0x17 → s.writeReg (Reg.ofNum n) v = .error (.raise .illegalInstruction)) ∧
    (∀ k : Fin 8, n.toNat = 0x18 + k.val → s.writeReg (Reg.ofNum n) v =
      if s.cfg.pcxRegnum = some k then .error (.raise (.protectionFault (.upper k)))
      else .error (.raise .illegalInstruction))

/-- `MemWrite` (R57): a misaligned address raises `AlignmentFault`, else an inaccessible one
`MemoryAccessViolation`, else the `n` bytes are stored and no other byte changes. -/
def Obligations.MemWriteChecksThenStores : Prop :=
  ∀ (s : State) (a v : Word) (n : Size),
    (a.toNat % n.bytes ≠ 0 → s.memWrite a n v = .error (.raise (.alignmentFault a))) ∧
    (a.toNat % n.bytes = 0 → s.accessible a n .write = false →
      s.memWrite a n v = .error (.raise (.memoryAccessViolation a))) ∧
    (a.toNat % n.bytes = 0 → s.accessible a n .write = true → Memory.wf s.mem = true →
      ∃ t, s.memWrite a n v = .ok t ∧ StoredOnly s t a n v)

/-- Extension (R10): the low bits are the value, the others all its top bit, or all 0. -/
def Obligations.ExtensionsFillTheUpperBits : Prop :=
  ∀ (w : Word) (h : BitVec 16) (i : Nat), i < 32 →
    (sextLow8 w).getLsbD i = w.getLsbD (min i 7) ∧
    (zextLow8 w).getLsbD i = (decide (i < 8) && w.getLsbD i) ∧
    (sextLow16 w).getLsbD i = w.getLsbD (min i 15) ∧
    (zextLow16 w).getLsbD i = (decide (i < 16) && w.getLsbD i) ∧
    (sext16 h).getLsbD i = h.getLsbD (min i 15) ∧
    (zext16 h).getLsbD i = (decide (i < 16) && h.getLsbD i)

/-! ### Exceptions and refusals -/

/-- R232: a well-formed instruction raises `ProtectionFault` exactly where it names idr or mmr in
User mode, or pcx as its destination; not for `zero` as a destination, and INT, IRT and HLT never. A
read from noreg is an `IllegalInstruction`. -/
def Obligations.ProtectionFaultExactlyOnItsTriggers : Prop :=
  (∀ (i : Instr) (s : State), i.wf s.cfg.pcxRegnum = true →
    ((∃ a r, exec i s = .fault (.protectionFault a r)) ↔
      (s.mode = .user ∧ (.cell .idr ∈ i.regs ∨ .cell .mmr ∈ i.regs)) ∨
      (∃ k, s.cfg.pcxRegnum = some k ∧ destination i = some (.upper k)))) ∧
  (∀ (i : Instr) (s : State), .noreg ∈ i.regs →
    exec i s = .fault (.illegalInstruction (s.pcx - 4))) ∧
  (∀ (s : State) (code : BitVec 8) (a : Word) (r : Reg),
    exec (.int code) s ≠ .fault (.protectionFault a r) ∧
    exec .irt s ≠ .fault (.protectionFault a r) ∧ exec .hlt s ≠ .fault (.protectionFault a r))

/-- In User mode a well-formed instruction that names idr or mmr in a used field raises
`ProtectionFault` on one of them. -/
def Obligations.UserModeNamingIdrOrMmrFaults : Prop :=
  ∀ (i : Instr) (s : State), i.wf s.cfg.pcxRegnum = true → s.mode = .user →
    (.cell .idr ∈ i.regs ∨ .cell .mmr ∈ i.regs) →
    ∃ c, (c = .idr ∨ c = .mmr) ∧ .cell c ∈ i.regs ∧
      exec i s = .fault (.protectionFault (s.pcx - 4) (.cell c))

/-- A well-formed instruction whose destination is pcx raises `ProtectionFault` on it, also where it
reads pcx too (INC, DEC, LUI, the shifts). -/
def Obligations.WritingPcxFaults : Prop :=
  ∀ (i : Instr) (s : State) (k : Fin 8), i.wf s.cfg.pcxRegnum = true →
    s.cfg.pcxRegnum = some k → destination i = some (.upper k) →
    (∀ c : Cell, .cell c ∈ i.regs → s.reachable c = true) →
    exec i s = .fault (.protectionFault (s.pcx - 4) (.upper k))

/-- A well-formed instruction that reads pcx other than as the base of a jump, and raises nothing, is
refused. This is the spec's decision D5; that a store's access is checked before its data register is
read is notes/assumptions/11.md. -/
def Obligations.ReadingPcxElsewhereIsRefused : Prop :=
  ∀ (i : Instr) (s : State) (k : Fin 8), i.wf s.cfg.pcxRegnum = true →
    s.cfg.pcxRegnum = some k → .upper k ∈ i.regs → isJump i = false →
    destination i ≠ some (.upper k) → (∀ c : Cell, .cell c ∈ i.regs → s.reachable c = true) →
    (∀ n base off b, dataAccess i = some (n, .write, base, off) → s.sourceValue base = some b →
      (baseOffset b off).toNat % n.bytes = 0 ∧ s.accessible (baseOffset b off) n .write = true) →
    exec i s = .refused (.pcxRead (.upper k))

/-- R55: a halfword access at an odd address and a word access at an address not divisible by 4 raise
`AlignmentFault`, accessible or not; a byte access never does. -/
def Obligations.MisalignedAccessesFault : Prop :=
  ∀ (i : Instr) (s : State) (n : Size) (kind : AccessKind) (base : Reg) (off : BitVec 16) (b : Word),
    dataAccess i = some (n, kind, base, off) → (∀ r ∈ i.regs, s.writable r = true) →
    s.sourceValue base = some b →
    ((baseOffset b off).toNat % n.bytes ≠ 0 →
      exec i s = .fault (.alignmentFault (s.pcx - 4) (baseOffset b off))) ∧
    (n = .byte → ∀ x y, exec i s ≠ .fault (.alignmentFault x y))

/-- An aligned load or store that is not accessible raises `MemoryAccessViolation` with its address
(the order after the alignment check is the spec's decision D14). -/
def Obligations.InaccessibleAccessesFault : Prop :=
  ∀ (i : Instr) (s : State) (n : Size) (kind : AccessKind) (base : Reg) (off : BitVec 16) (b : Word),
    dataAccess i = some (n, kind, base, off) → (∀ r ∈ i.regs, s.writable r = true) →
    s.sourceValue base = some b → (baseOffset b off).toNat % n.bytes = 0 →
    s.accessible (baseOffset b off) n kind = false →
    exec i s = .fault (.memoryAccessViolation (s.pcx - 4) (baseOffset b off))

/-- A store whose data register is pcx raises the exception of its access, and is refused only where
there is none (R30; that the access is checked before the data register is read is
notes/assumptions/11.md). -/
def Obligations.StoreOfPcxRaisesItsAccessFirst : Prop :=
  ∀ (i : Instr) (s : State) (n : Size) (k : Fin 8) (base : Reg) (off : BitVec 16) (b : Word),
    (i = .stb (.upper k) base off ∧ n = .byte ∨ i = .sth (.upper k) base off ∧ n = .half ∨
      i = .stw (.upper k) base off ∧ n = .word) →
    s.cfg.pcxRegnum = some k → s.sourceValue base = some b →
    exec i s =
      if (baseOffset b off).toNat % n.bytes ≠ 0 then
        .fault (.alignmentFault (s.pcx - 4) (baseOffset b off))
      else if s.accessible (baseOffset b off) n .write = false then
        .fault (.memoryAccessViolation (s.pcx - 4) (baseOffset b off))
      else .refused (.pcxRead (.upper k))

/-- Which instruction can raise which exception, and why (R231 to R235): a fault of an instruction is
an illegal operand; idr or mmr in User mode, or pcx as the destination; a halfword or word access whose
address, base plus offset, is misaligned; a load or store whose address is not accessible; or, of INT,
a read of its lookup that is not accessible, or with every read accessible the exception that
`IDT_LOOKUP` defines, with the address it gives. The address is the one that is reported. That the reads
of the lookup are of kind read, in the mode of before the entry, is the model's deduction
(notes/assumptions/5.md). That a
`MemoryAccessViolation` of a load or store comes only of an aligned address is the spec's decision D14
(notes/assumptions/13.md). That INT raises only with no saved context is its decision D22, and that the
refusal comes before the lookup the model's deduction from R215 (notes/assumptions/14.md). -/
def Obligations.InstructionsRaiseOnlyTheirExceptions : Prop :=
  ∀ (i : Instr) (s : State) (f : Fault), exec i s = .fault f →
    match f with
    | .illegalInstruction _ => i.wf s.cfg.pcxRegnum = false
    | .protectionFault _ r => r ∈ i.regs ∧
        ((s.mode = .user ∧ (r = .cell .idr ∨ r = .cell .mmr)) ∨
         (destination i = some r ∧ ∃ k, r = .upper k ∧ s.cfg.pcxRegnum = some k))
    | .alignmentFault _ a =>
        (∃ code, i = .int code ∧ s.saved = none ∧ s.TableReadable code ∧
          (s.tableLookup code).result = .alignmentFault a) ∨
        ∃ n kind base off b, dataAccess i = some (n, kind, base, off) ∧ n ≠ .byte ∧
          s.sourceValue base = some b ∧ a = baseOffset b off ∧ a.toNat % n.bytes ≠ 0
    | .memoryAccessViolation _ a =>
        (∃ code, i = .int code ∧ s.saved = none ∧
          ((∃ r ∈ (s.tableLookup code).reads, r.address = a ∧ s.accessible a r.size .read = false) ∨
           s.TableReadable code ∧ (s.tableLookup code).result = .memoryAccessViolation a)) ∨
        ∃ n kind base off b, dataAccess i = some (n, kind, base, off) ∧
          s.sourceValue base = some b ∧ a = baseOffset b off ∧ a.toNat % n.bytes = 0 ∧
          s.accessible a n kind = false
    | .halted => False

/-- Every fault of a step but that of a halted machine reports the address of the instruction, the
value PCX had when the step began (decision D13). -/
def Obligations.FaultsReportTheInstructionAddress : Prop :=
  ∀ (s : State) (f : Fault), step s = .fault f →
    (s.halted = true ∧ f = .halted) ∨ (s.halted = false ∧ f.address = some s.pcx)

/-- INT with a lookup that raises ends in that exception (R215, R234, R235): the first read of the
lookup that is not accessible is a `MemoryAccessViolation` at its address, and with every read accessible
INT raises what `IDT_LOOKUP` defines. That the reads are of kind read, in the mode of before the entry, is
the model's deduction (notes/assumptions/5.md). -/
def Obligations.IntRaisesWhatItsLookupRaises : Prop :=
  ∀ (s : State) (code : BitVec 8) (a : Word), s.saved = none →
    (∀ before r after, (s.tableLookup code).reads = before ++ r :: after →
      (∀ q ∈ before, s.accessible q.address q.size .read = true) →
      s.accessible r.address r.size .read = false →
      exec (.int code) s = .fault (.memoryAccessViolation (s.pcx - 4) r.address)) ∧
    (s.TableReadable code → (s.tableLookup code).result = .alignmentFault a →
      exec (.int code) s = .fault (.alignmentFault (s.pcx - 4) a)) ∧
    (s.TableReadable code → (s.tableLookup code).result = .memoryAccessViolation a →
      exec (.int code) s = .fault (.memoryAccessViolation (s.pcx - 4) a))

/-- INT while a context is saved, and IRT while none is, are refused (decision D22). -/
def Obligations.NestedIntAndBareIrtAreRefused : Prop :=
  ∀ (s : State) (code : BitVec 8),
    (s.saved.isSome = true → exec (.int code) s = .refused .nestedInterrupt) ∧
    (s.saved = none → exec .irt s = .refused .noSavedContext)

/-! ### What an instruction can change: frames over all instructions -/

/-- A register cell changes only where it is the destination, or is ret or bpr in INT, or bpr in IRT. -/
def Obligations.OnlyDestinationsChange : Prop :=
  ∀ (i : Instr) (s t : State) (c : Cell), exec i s = .next t → t.get c ≠ s.get c →
    destination i = some (.cell c) ∨ (isInt i = true ∧ (c = .ret ∨ c = .bpr)) ∨
      (i = .irt ∧ c = .bpr)

/-- A byte of memory changes only where a store writes it: outside the bytes at base plus offset, and
for every instruction that is no store, memory reads as before. -/
def Obligations.MemoryChangesOnlyWhereStored : Prop :=
  ∀ (i : Instr) (s t : State) (x : Word), exec i s = .next t →
    (∀ n base off b, dataAccess i = some (n, .write, base, off) → s.sourceValue base = some b →
      ∀ k < n.bytes, x ≠ baseOffset b off + BitVec.ofNat 32 k) →
    t.byteAt x = s.byteAt x

/-- STS is unchanged but for CMP, the instructions that end in `SetZ`, and IRT (decision D9 for the
others). After CMP the flags are specified, after the other writers unspecified (R159; the field that says
so is the model's own, notes/assumptions/28.md). The reserved bits are unchanged by every instruction. -/
def Obligations.OnlyFlagWritersChangeSts : Prop :=
  ∀ (i : Instr) (s t : State), exec i s = .next t →
    (writesFlags i = false → SameFlags s t) ∧
    (writesFlags i = true → (t.flagsUnspecified = false ↔ ∃ a b, i = .cmp a b)) ∧
    t.sts.reserved = s.sts.reserved

/-- PCX moves only by a jump, INT or IRT; the mode and the saved context change only by INT or IRT; the
machine halts only by HLT; the parameters never change. -/
def Obligations.ControlStateChangesOnlyByItsInstructions : Prop :=
  ∀ (i : Instr) (s t : State), exec i s = .next t →
    (isJump i = false → isInt i = false → i ≠ .irt → t.pcx = s.pcx) ∧
    (isInt i = false → i ≠ .irt → t.mode = s.mode ∧ t.saved = s.saved) ∧
    (i ≠ .hlt → t.halted = s.halted) ∧ t.cfg = s.cfg

/-! ### The whole machine -/

/-- Every step keeps the invariant of the machine, from every state that has it: canonical memory,
STS[31:6] = 0, and a saved context only in Kernel mode. -/
def Obligations.StepKeepsTheInvariant : Prop :=
  ∀ s t : State, s.Inv → step s = .next t → t.Inv

/-- The machine has the invariant after reset, whatever the parameters and registers are and for every
canonical memory. -/
def Obligations.ResetHasTheInvariant : Prop :=
  State.reset.Inv ∧
  ∀ (cfg : Config) (regs : RegFile) (mem : Memory), Memory.wf mem = true →
    (State.boot cfg regs mem).Inv

/-- After reset STS is 0 (R31, R270); the rest of the state is as R40 puts it, by the spec's own
decisions D17, D18, D27 and D29. The host's machine starts in such a state: `State.reset` is
`State.boot` of some parameters and registers and of a canonical memory, which are the model's choice
(notes/assumptions/1.md, 2.md and 8.md). -/
def Obligations.StateAfterReset : Prop :=
  (∃ cfg regs mem, Sys2Proof.core.reset = State.boot cfg regs mem ∧ Memory.wf mem = true) ∧
  ∀ (cfg : Config) (regs : RegFile) (mem : Memory),
    (State.boot cfg regs mem).sts.toWord = 0 ∧ (State.boot cfg regs mem).pcx = cfg.resetPc ∧
    (State.boot cfg regs mem).mode = .kernel ∧ (State.boot cfg regs mem).saved = none ∧
    (State.boot cfg regs mem).halted = false ∧ (State.boot cfg regs mem).mem = mem ∧
    (State.boot cfg regs mem).regs = regs

/-- With the flags as they are at boot, JNE is taken and the other five conditional jumps are not
(R273, R152). -/
def Obligations.OnlyJneIsTakenAtBoot : Prop :=
  ∀ (cfg : Config) (regs : RegFile) (mem : Memory) (off : BitVec 16),
    (∃ t, exec (.jne .zero off) (State.boot cfg regs mem) = .next t ∧ t.pcx = off.signExtend 32) ∧
    (∀ i, i = .jeq .zero off ∨ i = .jgt .zero off ∨ i = .jge .zero off ∨ i = .jlt .zero off ∨
        i = .jle .zero off →
      ∃ t, exec i (State.boot cfg regs mem) = .next t ∧ t.pcx = cfg.resetPc)

/-- No step in User mode changes idr or mmr. -/
def Obligations.UserModeCannotChangeIdrOrMmr : Prop :=
  ∀ s t : State, s.mode = .user → step s = .next t →
    t.get .idr = s.get .idr ∧ t.get .mmr = s.get .mmr

/-- The only step out of User mode is an INT, each read of its lookup is accessible in User mode, and it
goes to the handler the lookup gives (R252; decision D18 for the change of mode). That the reads are checked
in the mode of before the entry, and as reads, is the model's deduction (notes/assumptions/5.md). -/
def Obligations.UserModeIsLeftOnlyByInt : Prop :=
  ∀ s t : State, s.Inv → s.mode = .user → step s = .next t → t.mode = .kernel →
    ∃ code, s.current = some (.int code) ∧ s.TableReadable code ∧
      (s.tableLookup code).result = .handler t.pcx

/-- In User mode, but for INT, no step depends on idr: with another value there the step has the same
outcome, and for the same draws of free values its next state differs in idr alone. That a free value
depends on the counter of draws alone is the model's choice (notes/assumptions/3.md and 28.md), and so is
that `Accessible` does not depend on idr (notes/assumptions/26.md): R58 lets it depend on the rest of the
state. -/
def Obligations.UserModeCannotReadIdr : Prop :=
  ∀ (s : State) (v : Word), s.mode = .user → (∀ code, s.current ≠ some (.int code)) →
    step { s with regs := s.regs.set .idr v } =
      mapNext (fun t => { t with regs := t.regs.set .idr v }) (step s)

/-- The flags GreaterThanOrEqual, LessThanOrEqual and Zero are read by nothing (R33): states that agree
but for them step, for the same draws of free values, to states that agree but for them. `KERNEL_STACK` is
fixed here, since it may be any function of the state. That a free value depends on the counter of draws
alone, and so not on these flags, is the model's choice (notes/assumptions/3.md and 28.md), and so is that
`Accessible` does not depend on the flags (notes/assumptions/26.md): R58 lets it depend on the rest of the
state. -/
def Obligations.UnreadFlagsAreUnobservable : Prop :=
  ∀ s s' : State, AgreeButUnreadFlags s s' → s.cfg.kernelStack.isSome = true →
    RelatedOut AgreeButUnreadFlags (step s) (step s')

/-- An instruction other than a conditional jump does not look at STS (R33): with another STS it has the
same outcome, its next state is the same but for STS, and of STS the six flags are the same too where
the instruction writes them; where it writes none, and in the reserved bits, STS stays what it was. That
the unspecified flags after `SetZ` and IRT are the same is for the same draws of free values: that they do
not follow the old STS, as decision D8 and R218 would let them, is the model's choice
(notes/assumptions/3.md).
`KERNEL_STACK` is fixed here, since it may be any function of the state. That `Accessible` does not depend
on the flags is the model's choice (notes/assumptions/26.md): R58 lets it depend on the rest of the
state. -/
def Obligations.OnlyConditionalJumpsReadSts : Prop :=
  ∀ (i : Instr) (s : State) (f : Sts), (isJump i = true → ∃ base off, i = .jmp base off) →
    s.cfg.kernelStack.isSome = true →
    RelatedOut
      (fun t u => u = { t with sts := u.sts } ∧
        if writesFlags i = true then u.sts = { t.sts with reserved := f.reserved }
        else t.sts = s.sts ∧ u.sts = f)
      (exec i s) (exec i { s with sts := f })
end

