-- ==== Sys2Proof/Laws/State.lean ====
section
/-! SUPPORT. One lemma per field and update of the state, so that no proof unfolds a record update. -/

namespace Sys2Proof.Machine

/-! ### State.set -/

@[simp] theorem State.set_regs (s : State) (c : Cell) (v : Word) : (s.set c v).regs = s.regs.set c v := rfl

@[simp] theorem State.set_pcx (s : State) (c : Cell) (v : Word) : (s.set c v).pcx = s.pcx := rfl

@[simp] theorem State.set_sts (s : State) (c : Cell) (v : Word) : (s.set c v).sts = s.sts := rfl

@[simp] theorem State.set_mode (s : State) (c : Cell) (v : Word) : (s.set c v).mode = s.mode := rfl

@[simp] theorem State.set_saved (s : State) (c : Cell) (v : Word) : (s.set c v).saved = s.saved := rfl

@[simp] theorem State.set_halted (s : State) (c : Cell) (v : Word) : (s.set c v).halted = s.halted := rfl

@[simp] theorem State.set_mem (s : State) (c : Cell) (v : Word) : (s.set c v).mem = s.mem := rfl

@[simp] theorem State.set_draws (s : State) (c : Cell) (v : Word) : (s.set c v).draws = s.draws := rfl

@[simp] theorem State.set_cfg (s : State) (c : Cell) (v : Word) : (s.set c v).cfg = s.cfg := rfl

@[simp] theorem State.set_flagsUnspecified (s : State) (c : Cell) (v : Word) : (s.set c v).flagsUnspecified = s.flagsUnspecified := rfl

/-! ### State.putReg -/

@[simp] theorem State.putReg_pcx (s : State) (r : Reg) (v : Word) : (s.putReg r v).pcx = s.pcx := by cases r <;> rfl

@[simp] theorem State.putReg_sts (s : State) (r : Reg) (v : Word) : (s.putReg r v).sts = s.sts := by cases r <;> rfl

@[simp] theorem State.putReg_mode (s : State) (r : Reg) (v : Word) : (s.putReg r v).mode = s.mode := by cases r <;> rfl

@[simp] theorem State.putReg_saved (s : State) (r : Reg) (v : Word) : (s.putReg r v).saved = s.saved := by cases r <;> rfl

@[simp] theorem State.putReg_halted (s : State) (r : Reg) (v : Word) : (s.putReg r v).halted = s.halted := by cases r <;> rfl

@[simp] theorem State.putReg_mem (s : State) (r : Reg) (v : Word) : (s.putReg r v).mem = s.mem := by cases r <;> rfl

@[simp] theorem State.putReg_draws (s : State) (r : Reg) (v : Word) : (s.putReg r v).draws = s.draws := by cases r <;> rfl

@[simp] theorem State.putReg_cfg (s : State) (r : Reg) (v : Word) : (s.putReg r v).cfg = s.cfg := by cases r <;> rfl

@[simp] theorem State.putReg_flagsUnspecified (s : State) (r : Reg) (v : Word) : (s.putReg r v).flagsUnspecified = s.flagsUnspecified := by cases r <;> rfl

/-! ### State.putByte -/

@[simp] theorem State.putByte_regs (s : State) (a : Word) (b : Byte) : (s.putByte a b).regs = s.regs := rfl

@[simp] theorem State.putByte_pcx (s : State) (a : Word) (b : Byte) : (s.putByte a b).pcx = s.pcx := rfl

@[simp] theorem State.putByte_sts (s : State) (a : Word) (b : Byte) : (s.putByte a b).sts = s.sts := rfl

@[simp] theorem State.putByte_mode (s : State) (a : Word) (b : Byte) : (s.putByte a b).mode = s.mode := rfl

@[simp] theorem State.putByte_saved (s : State) (a : Word) (b : Byte) : (s.putByte a b).saved = s.saved := rfl

@[simp] theorem State.putByte_halted (s : State) (a : Word) (b : Byte) : (s.putByte a b).halted = s.halted := rfl

@[simp] theorem State.putByte_mem (s : State) (a : Word) (b : Byte) : (s.putByte a b).mem = Memory.write s.mem a.toNat b := rfl

@[simp] theorem State.putByte_draws (s : State) (a : Word) (b : Byte) : (s.putByte a b).draws = s.draws := rfl

@[simp] theorem State.putByte_cfg (s : State) (a : Word) (b : Byte) : (s.putByte a b).cfg = s.cfg := rfl

@[simp] theorem State.putByte_flagsUnspecified (s : State) (a : Word) (b : Byte) : (s.putByte a b).flagsUnspecified = s.flagsUnspecified := rfl

/-! ### State.putValue -/

@[simp] theorem State.putValue_regs (s : State) (a v : Word) (n : Size) : (s.putValue a v n).regs = s.regs := by cases n <;> rfl

@[simp] theorem State.putValue_pcx (s : State) (a v : Word) (n : Size) : (s.putValue a v n).pcx = s.pcx := by cases n <;> rfl

@[simp] theorem State.putValue_sts (s : State) (a v : Word) (n : Size) : (s.putValue a v n).sts = s.sts := by cases n <;> rfl

@[simp] theorem State.putValue_mode (s : State) (a v : Word) (n : Size) : (s.putValue a v n).mode = s.mode := by cases n <;> rfl

@[simp] theorem State.putValue_saved (s : State) (a v : Word) (n : Size) : (s.putValue a v n).saved = s.saved := by cases n <;> rfl

@[simp] theorem State.putValue_halted (s : State) (a v : Word) (n : Size) : (s.putValue a v n).halted = s.halted := by cases n <;> rfl

@[simp] theorem State.putValue_draws (s : State) (a v : Word) (n : Size) : (s.putValue a v n).draws = s.draws := by cases n <;> rfl

@[simp] theorem State.putValue_cfg (s : State) (a v : Word) (n : Size) : (s.putValue a v n).cfg = s.cfg := by cases n <;> rfl

@[simp] theorem State.putValue_flagsUnspecified (s : State) (a v : Word) (n : Size) : (s.putValue a v n).flagsUnspecified = s.flagsUnspecified := by cases n <;> rfl

/-! ### State.setCmp -/

@[simp] theorem State.setCmp_regs (s : State) (a b : Word) : (s.setCmp a b).regs = s.regs := rfl

@[simp] theorem State.setCmp_pcx (s : State) (a b : Word) : (s.setCmp a b).pcx = s.pcx := rfl

@[simp] theorem State.setCmp_mode (s : State) (a b : Word) : (s.setCmp a b).mode = s.mode := rfl

@[simp] theorem State.setCmp_saved (s : State) (a b : Word) : (s.setCmp a b).saved = s.saved := rfl

@[simp] theorem State.setCmp_halted (s : State) (a b : Word) : (s.setCmp a b).halted = s.halted := rfl

@[simp] theorem State.setCmp_mem (s : State) (a b : Word) : (s.setCmp a b).mem = s.mem := rfl

@[simp] theorem State.setCmp_draws (s : State) (a b : Word) : (s.setCmp a b).draws = s.draws := rfl

@[simp] theorem State.setCmp_cfg (s : State) (a b : Word) : (s.setCmp a b).cfg = s.cfg := rfl

@[simp] theorem State.setCmp_flagsUnspecified (s : State) (a b : Word) : (s.setCmp a b).flagsUnspecified = false := rfl

/-! ### State.setZ -/

@[simp] theorem State.setZ_regs (s : State) (v : Word) : (s.setZ v).regs = s.regs := rfl

@[simp] theorem State.setZ_pcx (s : State) (v : Word) : (s.setZ v).pcx = s.pcx := rfl

@[simp] theorem State.setZ_mode (s : State) (v : Word) : (s.setZ v).mode = s.mode := rfl

@[simp] theorem State.setZ_saved (s : State) (v : Word) : (s.setZ v).saved = s.saved := rfl

@[simp] theorem State.setZ_halted (s : State) (v : Word) : (s.setZ v).halted = s.halted := rfl

@[simp] theorem State.setZ_mem (s : State) (v : Word) : (s.setZ v).mem = s.mem := rfl

@[simp] theorem State.setZ_draws (s : State) (v : Word) : (s.setZ v).draws = s.draws + 1 := rfl

@[simp] theorem State.setZ_cfg (s : State) (v : Word) : (s.setZ v).cfg = s.cfg := rfl

@[simp] theorem State.setZ_flagsUnspecified (s : State) (v : Word) : (s.setZ v).flagsUnspecified = true := rfl

/-! ### State.freeFlags -/

@[simp] theorem State.freeFlags_regs (s : State) : (s.freeFlags).regs = s.regs := rfl

@[simp] theorem State.freeFlags_pcx (s : State) : (s.freeFlags).pcx = s.pcx := rfl

@[simp] theorem State.freeFlags_mode (s : State) : (s.freeFlags).mode = s.mode := rfl

@[simp] theorem State.freeFlags_saved (s : State) : (s.freeFlags).saved = s.saved := rfl

@[simp] theorem State.freeFlags_halted (s : State) : (s.freeFlags).halted = s.halted := rfl

@[simp] theorem State.freeFlags_mem (s : State) : (s.freeFlags).mem = s.mem := rfl

@[simp] theorem State.freeFlags_draws (s : State) : (s.freeFlags).draws = s.draws + 1 := rfl

@[simp] theorem State.freeFlags_cfg (s : State) : (s.freeFlags).cfg = s.cfg := rfl

@[simp] theorem State.freeFlags_flagsUnspecified (s : State) : (s.freeFlags).flagsUnspecified = true := rfl

/-! ### State.interruptEntry -/

@[simp] theorem State.interruptEntry_regs (s : State) (h : Word) : (s.interruptEntry h).regs = (s.regs.set .ret s.pcx).set .bpr s.kernelStack := rfl

@[simp] theorem State.interruptEntry_pcx (s : State) (h : Word) : (s.interruptEntry h).pcx = h := rfl

@[simp] theorem State.interruptEntry_sts (s : State) (h : Word) : (s.interruptEntry h).sts = s.sts := rfl

@[simp] theorem State.interruptEntry_mode (s : State) (h : Word) : (s.interruptEntry h).mode = .kernel := rfl

@[simp] theorem State.interruptEntry_saved (s : State) (h : Word) : (s.interruptEntry h).saved = some ⟨s.mode, s.regs.bpr⟩ := rfl

@[simp] theorem State.interruptEntry_halted (s : State) (h : Word) : (s.interruptEntry h).halted = s.halted := rfl

@[simp] theorem State.interruptEntry_mem (s : State) (h : Word) : (s.interruptEntry h).mem = s.mem := rfl

@[simp] theorem State.interruptEntry_draws (s : State) (h : Word) : (s.interruptEntry h).draws = s.draws := rfl

@[simp] theorem State.interruptEntry_cfg (s : State) (h : Word) : (s.interruptEntry h).cfg = s.cfg := rfl

@[simp] theorem State.interruptEntry_flagsUnspecified (s : State) (h : Word) : (s.interruptEntry h).flagsUnspecified = s.flagsUnspecified := rfl

/-! ### State.interruptReturn -/

@[simp] theorem State.interruptReturn_regs (s : State) (c : Saved) : (s.interruptReturn c).regs = s.regs.set .bpr c.bpr := rfl

@[simp] theorem State.interruptReturn_pcx (s : State) (c : Saved) : (s.interruptReturn c).pcx = s.regs.ret := rfl

@[simp] theorem State.interruptReturn_sts (s : State) (c : Saved) : (s.interruptReturn c).sts = s.sts := rfl

@[simp] theorem State.interruptReturn_mode (s : State) (c : Saved) : (s.interruptReturn c).mode = c.mode := rfl

@[simp] theorem State.interruptReturn_saved (s : State) (c : Saved) : (s.interruptReturn c).saved = none := rfl

@[simp] theorem State.interruptReturn_halted (s : State) (c : Saved) : (s.interruptReturn c).halted = s.halted := rfl

@[simp] theorem State.interruptReturn_mem (s : State) (c : Saved) : (s.interruptReturn c).mem = s.mem := rfl

@[simp] theorem State.interruptReturn_draws (s : State) (c : Saved) : (s.interruptReturn c).draws = s.draws := rfl

@[simp] theorem State.interruptReturn_cfg (s : State) (c : Saved) : (s.interruptReturn c).cfg = s.cfg := rfl

@[simp] theorem State.interruptReturn_flagsUnspecified (s : State) (c : Saved) : (s.interruptReturn c).flagsUnspecified = s.flagsUnspecified := rfl

/-! ### State.spendCondition -/

@[simp] theorem State.spendCondition_regs (s : State) : s.spendCondition.regs = s.regs := rfl

@[simp] theorem State.spendCondition_pcx (s : State) : s.spendCondition.pcx = s.pcx := rfl

@[simp] theorem State.spendCondition_sts (s : State) : s.spendCondition.sts = s.sts := rfl

@[simp] theorem State.spendCondition_mode (s : State) : s.spendCondition.mode = s.mode := rfl

@[simp] theorem State.spendCondition_saved (s : State) : s.spendCondition.saved = s.saved := rfl

@[simp] theorem State.spendCondition_halted (s : State) : s.spendCondition.halted = s.halted := rfl

@[simp] theorem State.spendCondition_mem (s : State) : s.spendCondition.mem = s.mem := rfl

@[simp] theorem State.spendCondition_flagsUnspecified (s : State) : s.spendCondition.flagsUnspecified = s.flagsUnspecified := rfl

@[simp] theorem State.spendCondition_cfg (s : State) : s.spendCondition.cfg = s.cfg := rfl

theorem State.spendCondition_of_specified {s : State} (h : s.flagsUnspecified = false) :
    s.spendCondition = s := by
  rw [State.spendCondition, if_neg (by simp [h])]

theorem State.eitherFlag_of_specified {s : State} (h : s.flagsUnspecified = false) (a b : Bool) :
    s.eitherFlag a b = (a || b) := by
  simp [State.eitherFlag, h]

theorem State.eitherFlag_of_unspecified {s : State} (h : s.flagsUnspecified = true) (a b : Bool) :
    s.eitherFlag a b = Config.freeCondition s.draws := by
  simp [State.eitherFlag, h]

/-! ### The flags written -/

@[simp] theorem State.setCmp_reserved (s : State) (a b : Word) :
    (s.setCmp a b).sts.reserved = s.sts.reserved := rfl

@[simp] theorem State.setZ_z (s : State) (v : Word) : (s.setZ v).sts.z = decide (v = 0) := rfl

@[simp] theorem State.setZ_reserved (s : State) (v : Word) :
    (s.setZ v).sts.reserved = s.sts.reserved := rfl

@[simp] theorem State.freeFlags_reserved (s : State) :
    s.freeFlags.sts.reserved = s.sts.reserved := rfl

end Sys2Proof.Machine
end

