-- ==== Sys2Proof/Laws/Memory.lean ====
section
/-! SUPPORT. The byte memory: a read after a write, and the canonical form that every operation
keeps. -/

namespace Sys2Proof.Machine

/-! ### The list -/

theorem Memory.read_cons (a : Nat) (b : Byte) (m : Memory) (k : Nat) :
    Memory.read ((a, b) :: m) k = if k = a then b else Memory.read m k := rfl

theorem Memory.read_below {m : Memory} {lo k : Nat} (h : Memory.wfFrom lo m = true) (hk : k < lo) :
    Memory.read m k = Memory.unlisted := by
  induction m generalizing lo with
  | nil => rfl
  | cons e m ih =>
    obtain ⟨a, b⟩ := e
    simp only [Memory.wfFrom, Bool.and_eq_true, decide_eq_true_eq] at h
    rw [Memory.read, if_neg (by omega)]
    exact ih h.2 (by omega)

/-- A write leaves every other address alone. -/
theorem Memory.read_write_ne (m : Memory) {k j : Nat} (v : Byte) (h : j ≠ k) :
    Memory.read (Memory.write m k v) j = Memory.read m j := by
  induction m with
  | nil =>
    rw [Memory.write]
    split
    · rfl
    · rw [Memory.read_cons, if_neg h]
  | cons e m ih =>
    obtain ⟨a, b⟩ := e
    rw [Memory.write]
    split
    · split
      · rfl
      · rw [Memory.read, if_neg h]
    · split
      · rename_i hka
        subst hka
        split <;> simp [Memory.read, h]
      · by_cases hj : j = a
        · simp [Memory.read, hj]
        · rw [Memory.read, Memory.read, if_neg hj, if_neg hj, ih]

/-- In a canonical memory a read after a write to the same address gives the byte written. -/
theorem Memory.read_write_same {m : Memory} {lo : Nat} (k : Nat) (v : Byte)
    (h : Memory.wfFrom lo m = true) : Memory.read (Memory.write m k v) k = v := by
  induction m generalizing lo with
  | nil =>
    rw [Memory.write]
    split
    · rename_i hv; rw [hv]; rfl
    · rw [Memory.read, if_pos rfl]
  | cons e m ih =>
    obtain ⟨a, b⟩ := e
    simp only [Memory.wfFrom, Bool.and_eq_true, decide_eq_true_eq] at h
    rw [Memory.write]
    split
    · rename_i hka
      split
      · rename_i hv
        rw [Memory.read, if_neg (by omega), hv]
        exact Memory.read_below h.2 (by omega)
      · rw [Memory.read, if_pos rfl]
    · split
      · rename_i hka
        split
        · rename_i hv
          rw [hv]
          exact Memory.read_below h.2 (by omega)
        · rw [Memory.read, if_pos rfl]
      · rename_i hka
        rw [Memory.read, if_neg hka]
        exact ih h.2

/-- A write keeps the canonical form. -/
theorem Memory.wfFrom_write {m : Memory} {lo k : Nat} (v : Byte) (h : Memory.wfFrom lo m = true)
    (hlo : lo ≤ k) (hk : k < 2 ^ 32) : Memory.wfFrom lo (Memory.write m k v) = true := by
  induction m generalizing lo with
  | nil =>
    rw [Memory.write]
    split
    · rfl
    · rename_i hv
      simp only [Memory.wfFrom, Bool.and_eq_true, decide_eq_true_eq]
      exact ⟨⟨⟨hlo, hk⟩, hv⟩, trivial⟩
  | cons e m ih =>
    obtain ⟨a, b⟩ := e
    have h' := h
    simp only [Memory.wfFrom, Bool.and_eq_true, decide_eq_true_eq] at h
    obtain ⟨⟨⟨h1, h2⟩, h3⟩, h4⟩ := h
    rw [Memory.write]
    split
    · split
      · exact h'
      · rename_i hv
        simp only [Memory.wfFrom, Bool.and_eq_true, decide_eq_true_eq]
        exact ⟨⟨⟨hlo, hk⟩, hv⟩, ⟨⟨by omega, h2⟩, h3⟩, h4⟩
    · split
      · rename_i hka
        subst hka
        split
        · clear ih h'
          cases m with
          | nil => rfl
          | cons e m =>
            obtain ⟨a', b'⟩ := e
            simp only [Memory.wfFrom, Bool.and_eq_true, decide_eq_true_eq] at h4 ⊢
            exact ⟨⟨⟨by omega, h4.1.1.2⟩, h4.1.2⟩, h4.2⟩
        · rename_i hv
          simp only [Memory.wfFrom, Bool.and_eq_true, decide_eq_true_eq]
          exact ⟨⟨⟨h1, h2⟩, hv⟩, h4⟩
      · rename_i hlt hne
        simp only [Memory.wfFrom, Bool.and_eq_true, decide_eq_true_eq]
        exact ⟨⟨⟨h1, h2⟩, h3⟩, ih h4 (by omega)⟩

theorem Memory.wf_write {m : Memory} (h : Memory.wf m = true) (a : Word) (v : Byte) :
    Memory.wf (Memory.write m a.toNat v) = true :=
  Memory.wfFrom_write v h (Nat.zero_le _) a.isLt

/-- Canonical memories that read alike at every address are equal. -/
theorem Memory.ext_read {m n : Memory} {lo : Nat} (hm : Memory.wfFrom lo m = true)
    (hn : Memory.wfFrom lo n = true) (h : ∀ k, Memory.read m k = Memory.read n k) : m = n := by
  induction m generalizing n lo with
  | nil =>
    cases n with
    | nil => rfl
    | cons e n =>
      obtain ⟨a, b⟩ := e
      simp only [Memory.wfFrom, Bool.and_eq_true, decide_eq_true_eq] at hn
      have := h a
      rw [Memory.read_cons, if_pos rfl] at this
      exact absurd this.symm hn.1.2
  | cons e m ih =>
    obtain ⟨a, b⟩ := e
    simp only [Memory.wfFrom, Bool.and_eq_true, decide_eq_true_eq] at hm
    cases n with
    | nil =>
      have := h a
      rw [Memory.read_cons, if_pos rfl] at this
      exact absurd this hm.1.2
    | cons e' n =>
      obtain ⟨a', b'⟩ := e'
      simp only [Memory.wfFrom, Bool.and_eq_true, decide_eq_true_eq] at hn
      have ha : a = a' := by
        rcases Nat.lt_trichotomy a a' with hlt | heq | hgt
        · have := h a
          rw [Memory.read_cons, if_pos rfl, Memory.read_cons, if_neg (by omega),
            Memory.read_below hn.2 (by omega)] at this
          exact absurd this hm.1.2
        · exact heq
        · have := h a'
          rw [Memory.read_cons, if_neg (by omega), Memory.read_below hm.2 (by omega),
            Memory.read_cons, if_pos rfl] at this
          exact absurd this.symm hn.1.2
      subst ha
      have hb : b = b' := by simpa [Memory.read] using h a
      subst hb
      congr 1
      refine ih hm.2 hn.2 fun k => ?_
      by_cases hk : k = a
      · rw [hk, Memory.read_below hm.2 (by omega), Memory.read_below hn.2 (by omega)]
      · simpa [Memory.read, hk] using h k

/-! ### The state's bytes -/

theorem State.byteAt_putByte_ne (s : State) {a x : Word} (b : Byte) (h : x ≠ a) :
    (s.putByte a b).byteAt x = s.byteAt x :=
  Memory.read_write_ne s.mem b fun e => h (BitVec.eq_of_toNat_eq e)

theorem State.byteAt_putByte_same {s : State} (a : Word) (b : Byte) (h : Memory.wf s.mem = true) :
    (s.putByte a b).byteAt a = b :=
  Memory.read_write_same a.toNat b h

theorem State.wf_putByte {s : State} (a : Word) (b : Byte) (h : Memory.wf s.mem = true) :
    Memory.wf (s.putByte a b).mem = true :=
  Memory.wf_write h a b

theorem State.wf_putValue {s : State} (a v : Word) (n : Size) (h : Memory.wf s.mem = true) :
    Memory.wf (s.putValue a v n).mem = true := by
  cases n with
  | byte => exact State.wf_putByte _ _ h
  | half => exact State.wf_putByte _ _ (State.wf_putByte _ _ h)
  | word =>
    exact State.wf_putByte _ _ (State.wf_putByte _ _ (State.wf_putByte _ _ (State.wf_putByte _ _ h)))

/-- The bytes outside a stored value read as before. -/
theorem State.byteAt_putValue_ne (s : State) {a x : Word} (v : Word) (n : Size)
    (h : ∀ k < n.bytes, x ≠ a + BitVec.ofNat 32 k) : (s.putValue a v n).byteAt x = s.byteAt x := by
  have h0 : 0 < n.bytes → x ≠ a := fun hk => by simpa using h 0 hk
  have h1 : 1 < n.bytes → x ≠ a + 1 := fun hk => h 1 hk
  have h2 : 2 < n.bytes → x ≠ a + 2 := fun hk => h 2 hk
  have h3 : 3 < n.bytes → x ≠ a + 3 := fun hk => h 3 hk
  cases n with
  | byte => exact State.byteAt_putByte_ne _ _ (h0 (by decide))
  | half =>
    rw [State.putValue, State.byteAt_putByte_ne _ _ (h1 (by decide)),
      State.byteAt_putByte_ne _ _ (h0 (by decide))]
  | word =>
    rw [State.putValue, State.byteAt_putByte_ne _ _ (h3 (by decide)),
      State.byteAt_putByte_ne _ _ (h2 (by decide)), State.byteAt_putByte_ne _ _ (h1 (by decide)),
      State.byteAt_putByte_ne _ _ (h0 (by decide))]

/-- The bytes of a stored value, the least significant at the lowest address. -/
theorem State.byteAt_putValue {s : State} (a v : Word) (n : Size) (h : Memory.wf s.mem = true) :
    ∀ k < n.bytes, (s.putValue a v n).byteAt (a + BitVec.ofNat 32 k) = wordByte v k := by
  have e0 : a + BitVec.ofNat 32 0 = a := by simp
  have d1 : a ≠ a + 1 := by bv_omega
  have d2 : a ≠ a + 2 := by bv_omega
  have d3 : a ≠ a + 3 := by bv_omega
  have d12 : a + 1 ≠ a + 2 := by bv_omega
  have d13 : a + 1 ≠ a + 3 := by bv_omega
  have d23 : a + 2 ≠ a + 3 := by bv_omega
  intro k hk
  cases n with
  | byte =>
    obtain rfl : k = 0 := by simp [Size.bytes] at hk; omega
    rw [e0]; exact State.byteAt_putByte_same _ _ h
  | half =>
    have hk' : k = 0 ∨ k = 1 := by simp [Size.bytes] at hk; omega
    rcases hk' with rfl | rfl
    · rw [e0, State.putValue, State.byteAt_putByte_ne _ _ d1]
      exact State.byteAt_putByte_same _ _ h
    · exact State.byteAt_putByte_same _ _ (State.wf_putByte _ _ h)
  | word =>
    have hk' : k = 0 ∨ k = 1 ∨ k = 2 ∨ k = 3 := by simp [Size.bytes] at hk; omega
    have h1 := State.wf_putByte a (wordByte v 0) h
    have h2 := State.wf_putByte (a + 1) (wordByte v 1) h1
    have h3 := State.wf_putByte (a + 2) (wordByte v 2) h2
    rcases hk' with rfl | rfl | rfl | rfl
    · rw [e0, State.putValue, State.byteAt_putByte_ne _ _ d3, State.byteAt_putByte_ne _ _ d2,
        State.byteAt_putByte_ne _ _ d1]
      exact State.byteAt_putByte_same _ _ h
    · show State.byteAt _ (a + 1) = _
      rw [State.putValue, State.byteAt_putByte_ne _ _ d13, State.byteAt_putByte_ne _ _ d12]
      exact State.byteAt_putByte_same _ _ h1
    · show State.byteAt _ (a + 2) = _
      rw [State.putValue, State.byteAt_putByte_ne _ _ d23]
      exact State.byteAt_putByte_same _ _ h2
    · exact State.byteAt_putByte_same _ _ h3

/-- A word from its four bytes. -/
theorem wordOfBytes_wordByte (w : Word) :
    wordOfBytes (wordByte w 0) (wordByte w 1) (wordByte w 2) (wordByte w 3) = w := by
  apply BitVec.eq_of_getLsbD_eq
  intro i hi
  simp only [wordOfBytes, wordByte, BitVec.getLsbD_append, BitVec.getLsbD_extractLsb']
  by_cases h1 : i < 8
  · simp [h1]
  · by_cases h2 : i < 16
    · simp [h1, show i - 8 < 8 by omega, show 8 + (i - 8) = i by omega]
    · by_cases h3 : i < 24
      · simp [h1, show ¬ i - 8 < 8 by omega, show i - 8 - 8 < 8 by omega,
          show 16 + (i - 8 - 8) = i by omega]
      · simp [h1, show ¬ i - 8 < 8 by omega, show ¬ i - 8 - 8 < 8 by omega,
          show i - 8 - 8 - 8 < 8 by omega, show 24 + (i - 8 - 8 - 8) = i by omega]

/-- A word read back from where it was stored. -/
theorem State.valueAt_putValue_word {s : State} (a v : Word) (h : Memory.wf s.mem = true) :
    (s.putValue a v .word).valueAt a .word = v := by
  have hb := State.byteAt_putValue a v .word h
  have b0 : (s.putValue a v .word).byteAt a = wordByte v 0 := by simpa using hb 0 (by decide)
  have b1 := hb 1 (by decide)
  have b2 := hb 2 (by decide)
  have b3 := hb 3 (by decide)
  simp only [State.valueAt]
  rw [b0]
  rw [show (a + 1 : Word) = a + BitVec.ofNat 32 1 from rfl, b1,
    show (a + 2 : Word) = a + BitVec.ofNat 32 2 from rfl, b2,
    show (a + 3 : Word) = a + BitVec.ofNat 32 3 from rfl, b3, wordOfBytes_wordByte]

end Sys2Proof.Machine
end

