-- ==== Sys2Proof/Laws/Registers.lean ====
section
/-! SUPPORT. The register cells, and what reading, checking and writing a register by number can do. -/

namespace Sys2Proof.Machine

/-! ### Cells -/

/-- A cell reads as what was last written to it, and a write changes no other cell. -/
theorem RegFile.get_set (f : RegFile) (c d : Cell) (v : Word) :
    (f.set c v).get d = if d = c then v else f.get d := by
  cases c <;> cases d <;> rfl

@[simp] theorem RegFile.get_set_same (f : RegFile) (c : Cell) (v : Word) : (f.set c v).get c = v := by
  rw [RegFile.get_set, if_pos rfl]

theorem RegFile.get_set_ne (f : RegFile) {c d : Cell} (v : Word) (h : d ≠ c) :
    (f.set c v).get d = f.get d := by
  rw [RegFile.get_set, if_neg h]

/-- Register files that agree in every cell are equal. -/
theorem RegFile.ext_get {f g : RegFile} (h : ∀ c, f.get c = g.get c) : f = g := by
  have e : ∀ k : RegFile, k = ⟨k.get .rg0, k.get .rg1, k.get .rg2, k.get .rg3, k.get .rg4, k.get .rg5,
      k.get .rg6, k.get .rg7, k.get .rg8, k.get .rg9, k.get .rga, k.get .rgb, k.get .rgc, k.get .rgd,
      k.get .rge, k.get .rgf, k.get .acc, k.get .spr, k.get .bpr, k.get .ret, k.get .idr,
      k.get .mmr⟩ := fun _ => rfl
  rw [e f, e g]
  simp only [h]

theorem State.get_def (s : State) (c : Cell) : s.get c = s.regs.get c := rfl

theorem State.get_set (s : State) (c d : Cell) (v : Word) :
    (s.set c v).get d = if d = c then v else s.get d :=
  RegFile.get_set s.regs c d v

/-- Writing a register by number changes the named cell and no other. -/
theorem State.get_putReg (s : State) (r : Reg) (v : Word) (c : Cell) :
    (s.putReg r v).get c = if r = .cell c then v else s.get c := by
  cases r with
  | cell d =>
    show (s.set d v).get c = _
    rw [State.get_set]
    by_cases h : c = d
    · rw [if_pos h, if_pos (by rw [h])]
    · rw [if_neg h, if_neg (fun e => h (Reg.cell.inj e).symm)]
  | zero => rfl
  | noreg => rfl
  | upper k => rfl

/-! ### Reading, checking, writing -/

theorem mayName_of_kernel {s : State} (h : s.mode = .kernel) (c : Cell) : s.mayName c = true := by
  simp [State.mayName, h]

/-- Everything a register read can answer. -/
theorem readReg_ok_iff {s : State} {k : ReadContext} {r : Reg} {v : Word} :
    s.readReg k r = .ok v ↔
      (∃ c, r = .cell c ∧ s.mayName c = true ∧ v = s.get c) ∨ (r = .zero ∧ v = 0) ∨
      (∃ n, r = .upper n ∧ s.cfg.pcxRegnum = some n ∧ k = .jumpBase ∧ v = s.pcx) := by
  cases r with
  | cell c =>
    by_cases h : s.mayName c = true
    · simp only [State.readReg, h, if_true, Except.ok.injEq, Reg.cell.injEq, reduceCtorEq, false_and,
        or_false, exists_const]
      exact ⟨fun e => ⟨c, rfl, h, e.symm⟩, fun ⟨_, hc, _, e⟩ => by rw [e, hc]⟩
    · simp [State.readReg, h]
  | zero => simp [State.readReg, @eq_comm _ v]
  | noreg => simp [State.readReg]
  | upper n =>
    by_cases h : s.cfg.pcxRegnum = some n
    · cases k <;> simp [State.readReg, h, @eq_comm _ v]
    · simp [State.readReg, h]

/-- When the checks of the register fields pass: every field is legal and none is protected. -/
theorem checkFields_ok_iff {s : State} {fs : List (Use × Reg)} :
    s.checkFields fs = .ok () ↔
      ∀ f ∈ fs, f.2.legal s.cfg.pcxRegnum = true ∧ s.protects f.1 f.2 = false := by
  unfold State.checkFields
  by_cases h : fs.all (fun f => f.2.legal s.cfg.pcxRegnum) = true
  · rw [if_pos h]
    rw [List.all_eq_true] at h
    cases hf : fs.find? (fun f => s.protects f.1 f.2) with
    | some f =>
      have hm := List.mem_of_find?_eq_some hf
      have hp := List.find?_some hf
      simp only [reduceCtorEq, false_iff]
      intro hall
      exact absurd (hall f hm).2 (by simp [hp])
    | none =>
      simp only [true_iff]
      intro f hm
      exact ⟨h f hm, by simpa using List.find?_eq_none.mp hf f hm⟩
  · rw [if_neg h]
    simp only [reduceCtorEq, false_iff]
    intro hall
    exact h (List.all_eq_true.mpr fun f hm => (hall f hm).1)

/-- What the checks of the register fields answer otherwise: `IllegalInstruction` where a field is
illegal, and else `ProtectionFault` on a field that is protected. -/
theorem checkFields_error {s : State} {fs : List (Use × Reg)} {e : Stop}
    (h : s.checkFields fs = .error e) :
    ((∃ f ∈ fs, f.2.legal s.cfg.pcxRegnum = false) ∧ e = .raise .illegalInstruction) ∨
    ((∀ f ∈ fs, f.2.legal s.cfg.pcxRegnum = true) ∧
      ∃ f ∈ fs, s.protects f.1 f.2 = true ∧ e = .raise (.protectionFault f.2)) := by
  unfold State.checkFields at h
  split at h
  · rename_i hl
    split at h
    · rename_i f hf
      exact .inr ⟨List.all_eq_true.mp hl,
        f, List.mem_of_find?_eq_some hf, by simpa using List.find?_some hf, (Except.error.inj h).symm⟩
    · cases h
  · rename_i hl
    refine .inl ⟨?_, (Except.error.inj h).symm⟩
    simpa using hl

/-- After its checks a register write cannot stop: it is `putReg`. -/
theorem writeReg_of_checked {s : State} {r : Reg} (v : Word) (hl : r.legal s.cfg.pcxRegnum = true)
    (hp : s.protects .destination r = false) : s.writeReg r v = .ok (s.putReg r v) := by
  cases r with
  | cell c =>
    have hm : s.mayName c = true := by simpa [State.protects] using hp
    simp [State.writeReg, State.checkWrite, hm, bind, Except.bind, pure, Except.pure]
  | zero => rfl
  | noreg => simp [Reg.legal] at hl
  | upper k => simp [State.protects] at hp

/-- After its checks a source read answers a value, but for pcx, where it is refused. -/
theorem readReg_of_checked {s : State} {r : Reg} (hl : r.legal s.cfg.pcxRegnum = true)
    (hp : s.protects .source r = false) :
    (∃ v, s.readReg .other r = .ok v) ∨
      ((∃ k, r = .upper k ∧ s.cfg.pcxRegnum = some k) ∧
        s.readReg .other r = .error (.refuse (.pcxRead r))) := by
  cases r with
  | cell c =>
    have hm : s.mayName c = true := by simpa [State.protects] using hp
    exact .inl ⟨s.get c, by simp [State.readReg, hm]⟩
  | zero => exact .inl ⟨0, rfl⟩
  | noreg => simp [Reg.legal] at hl
  | upper k =>
    have hk : s.cfg.pcxRegnum = some k := by simpa [Reg.legal] using hl
    exact .inr ⟨⟨k, rfl, hk⟩, by simp [State.readReg, hk]⟩

end Sys2Proof.Machine
end

