-- ==== Sys2Proof/Laws/Ops.lean ====
section
/-! SUPPORT. For each shape of instruction one lemma that says what it does when its checks pass, and
one that says everything it can do when it answers a next state. -/

namespace Sys2Proof.Machine

/-! ### Outcomes -/

@[simp] theorem outcome_ok (a : Word) (t : State) : outcome a (.ok t) = .next t := rfl

theorem outcome_next_iff {a : Word} {e : Except Stop State} {t : State} :
    outcome a e = .next t ↔ e = .ok t := by
  cases e with
  | ok u => simp [outcome]
  | error x => cases x <;> simp [outcome, raiseException]

theorem bind_ok_iff {α β : Type} {x : Except Stop α} {f : α → Except Stop β} {b : β} :
    (x >>= f) = .ok b ↔ ∃ a, x = .ok a ∧ f a = .ok b := by
  cases x with
  | ok a => exact ⟨fun h => ⟨a, rfl, h⟩, fun ⟨_, e, h⟩ => by cases e; exact h⟩
  | error e => exact ⟨fun h => (nomatch h), fun ⟨_, e', _⟩ => (nomatch e')⟩

theorem ok_bind {α β : Type} (a : α) (f : α → Except Stop β) :
    ((Except.ok a : Except Stop α) >>= f) = f a := rfl

theorem error_bind {α β : Type} (e : Stop) (f : α → Except Stop β) :
    ((Except.error e : Except Stop α) >>= f) = .error e := rfl

/-! ### Checked writes -/

/-- After the checks of the fields, `d` among the destinations, a write cannot stop. -/
theorem writeReg_of_checkFields {s : State} {fs : List (Use × Reg)} {d : Reg} (v : Word)
    (h : s.checkFields fs = .ok ()) (hd : (Use.destination, d) ∈ fs) :
    s.writeReg d v = .ok (s.putReg d v) :=
  writeReg_of_checked v (checkFields_ok_iff.mp h _ hd).1 (checkFields_ok_iff.mp h _ hd).2

theorem writeResult_of_checkFields {s : State} {fs : List (Use × Reg)} {d : Reg} (v : Word)
    (h : s.checkFields fs = .ok ()) (hd : (Use.destination, d) ∈ fs) :
    s.writeResult d v = .ok ((s.putReg d v).setZ v) := by
  rw [State.writeResult, writeReg_of_checkFields v h hd]
  rfl

/-! ### Memory access -/

theorem checkAccess_ok_iff {s : State} {a : Word} {n : Size} {k : AccessKind} :
    s.checkAccess a n k = .ok () ↔ aligned a n = true ∧ s.accessible a n k = true := by
  unfold State.checkAccess
  by_cases h : aligned a n = true <;> by_cases h' : s.accessible a n k = true <;> simp [h, h']

theorem memRead_of_checked {s : State} {a : Word} {n : Size} {k : AccessKind}
    (h : s.checkAccess a n k = .ok ()) : s.memRead a n k = .ok (s.valueAt a n) := by
  rw [State.memRead, h]
  rfl

theorem memRead_ok_iff {s : State} {a : Word} {n : Size} {k : AccessKind} {v : Word} :
    s.memRead a n k = .ok v ↔
      aligned a n = true ∧ s.accessible a n k = true ∧ v = s.valueAt a n := by
  rw [State.memRead, bind_ok_iff]
  constructor
  · rintro ⟨_, h, e⟩
    have := checkAccess_ok_iff.mp h
    exact ⟨this.1, this.2, (Except.ok.inj e).symm⟩
  · rintro ⟨h1, h2, e⟩
    exact ⟨(), checkAccess_ok_iff.mpr ⟨h1, h2⟩, by rw [e]; rfl⟩

theorem memWrite_of_checked {s : State} {a : Word} {n : Size} (v : Word)
    (h : s.checkAccess a n .write = .ok ()) : s.memWrite a n v = .ok (s.putValue a v n) := by
  rw [State.memWrite, h]
  rfl

/-! ### One source: MOV, MOVS, NOT, INC, DEC, the literal shifts, IADD, ISUB -/

theorem unaryOp_of_checked {f : Word → Word} {a d : Reg} {s : State} {x : Word}
    (h : s.checkFields [(.source, a), (.destination, d)] = .ok ())
    (hx : s.readReg .other a = .ok x) :
    unaryOp f a d s = .next ((s.putReg d (f x)).setZ (f x)) := by
  simp only [unaryOp, h, hx, ok_bind]
  rw [writeResult_of_checkFields (f x) h (by simp)]
  rfl

theorem unaryOp_next {f : Word → Word} {a d : Reg} {s t : State} (h : unaryOp f a d s = .next t) :
    ∃ x, s.checkFields [(.source, a), (.destination, d)] = .ok () ∧ s.readReg .other a = .ok x ∧
      t = (s.putReg d (f x)).setZ (f x) := by
  have h' := h
  rw [unaryOp, outcome_next_iff, bind_ok_iff] at h
  obtain ⟨_, hc, h⟩ := h
  obtain ⟨x, hx, _⟩ := bind_ok_iff.mp h
  rw [unaryOp_of_checked hc hx] at h'
  exact ⟨x, hc, hx, (Host.Outcome.next.inj h').symm⟩

/-! ### Two sources: ADD, SUB and the two-source logical instructions -/

theorem binaryOp_of_checked {f : Word → Word → Word} {a b d : Reg} {s : State} {x y : Word}
    (h : s.checkFields [(.source, a), (.source, b), (.destination, d)] = .ok ())
    (hx : s.readReg .other a = .ok x) (hy : s.readReg .other b = .ok y) :
    binaryOp f a b d s = .next ((s.putReg d (f x y)).setZ (f x y)) := by
  simp only [binaryOp, h, hx, hy, ok_bind]
  rw [writeResult_of_checkFields (f x y) h (by simp)]
  rfl

theorem binaryOp_next {f : Word → Word → Word} {a b d : Reg} {s t : State}
    (h : binaryOp f a b d s = .next t) :
    ∃ x y, s.checkFields [(.source, a), (.source, b), (.destination, d)] = .ok () ∧
      s.readReg .other a = .ok x ∧ s.readReg .other b = .ok y ∧
      t = (s.putReg d (f x y)).setZ (f x y) := by
  have h' := h
  rw [binaryOp, outcome_next_iff, bind_ok_iff] at h
  obtain ⟨_, hc, h⟩ := h
  obtain ⟨x, hx, h⟩ := bind_ok_iff.mp h
  obtain ⟨y, hy, _⟩ := bind_ok_iff.mp h
  rw [binaryOp_of_checked hc hx hy] at h'
  exact ⟨x, y, hc, hx, hy, (Host.Outcome.next.inj h').symm⟩

/-! ### The register shifts -/

theorem shiftRegOp_of_checked {f : Word → BitVec 5 → Word} {r n : Reg} {s : State} {x y : Word}
    (h : s.checkFields [(.source, n), (.source, r), (.destination, r)] = .ok ())
    (hy : s.readReg .other n = .ok y) (hx : s.readReg .other r = .ok x) :
    shiftRegOp f r n s =
      .next ((s.putReg r (f x (shiftCount y))).setZ (f x (shiftCount y))) := by
  simp only [shiftRegOp, h, hx, hy, ok_bind]
  rw [writeResult_of_checkFields (f x (shiftCount y)) h (by simp)]
  rfl

theorem shiftRegOp_next {f : Word → BitVec 5 → Word} {r n : Reg} {s t : State}
    (h : shiftRegOp f r n s = .next t) :
    ∃ x y, s.checkFields [(.source, n), (.source, r), (.destination, r)] = .ok () ∧
      s.readReg .other n = .ok y ∧ s.readReg .other r = .ok x ∧
      t = (s.putReg r (f x (shiftCount y))).setZ (f x (shiftCount y)) := by
  have h' := h
  rw [shiftRegOp, outcome_next_iff, bind_ok_iff] at h
  obtain ⟨_, hc, h⟩ := h
  obtain ⟨y, hy, h⟩ := bind_ok_iff.mp h
  obtain ⟨x, hx, _⟩ := bind_ok_iff.mp h
  rw [shiftRegOp_of_checked hc hy hx] at h'
  exact ⟨x, y, hc, hy, hx, (Host.Outcome.next.inj h').symm⟩

/-! ### Loads -/

theorem loadOp_of_checked {n : Size} {ext : Word → Word} {base dst : Reg} {off : BitVec 16}
    {s : State} {b : Word} (h : s.checkFields [(.source, base), (.destination, dst)] = .ok ())
    (hb : s.readReg .other base = .ok b)
    (ha : s.checkAccess (baseOffset b off) n .read = .ok ()) :
    loadOp n ext base dst off s =
      .next (s.putReg dst (ext (s.valueAt (baseOffset b off) n))) := by
  simp only [loadOp, h, hb, ok_bind, memRead_of_checked ha]
  rw [writeReg_of_checkFields _ h (by simp)]
  rfl

theorem loadOp_next {n : Size} {ext : Word → Word} {base dst : Reg} {off : BitVec 16}
    {s t : State} (h : loadOp n ext base dst off s = .next t) :
    ∃ b, s.checkFields [(.source, base), (.destination, dst)] = .ok () ∧
      s.readReg .other base = .ok b ∧ s.checkAccess (baseOffset b off) n .read = .ok () ∧
      t = s.putReg dst (ext (s.valueAt (baseOffset b off) n)) := by
  have h' := h
  rw [loadOp, outcome_next_iff, bind_ok_iff] at h
  obtain ⟨_, hc, h⟩ := h
  obtain ⟨b, hb, h⟩ := bind_ok_iff.mp h
  obtain ⟨_, hm, _⟩ := bind_ok_iff.mp h
  have ha := checkAccess_ok_iff.mpr ⟨(memRead_ok_iff.mp hm).1, (memRead_ok_iff.mp hm).2.1⟩
  rw [loadOp_of_checked hc hb ha] at h'
  exact ⟨b, hc, hb, ha, (Host.Outcome.next.inj h').symm⟩

/-! ### Stores -/

theorem storeOp_of_checked {n : Size} {src base : Reg} {off : BitVec 16} {s : State}
    {b v : Word} (h : s.checkFields [(.source, src), (.source, base)] = .ok ())
    (hb : s.readReg .other base = .ok b)
    (ha : s.checkAccess (baseOffset b off) n .write = .ok ())
    (hv : s.readReg .other src = .ok v) :
    storeOp n src base off s = .next (s.putValue (baseOffset b off) v n) := by
  simp only [storeOp, h, hb, ok_bind, ha, hv, memWrite_of_checked v ha]
  rfl

theorem storeOp_next {n : Size} {src base : Reg} {off : BitVec 16} {s t : State}
    (h : storeOp n src base off s = .next t) :
    ∃ b v, s.checkFields [(.source, src), (.source, base)] = .ok () ∧
      s.readReg .other base = .ok b ∧ s.checkAccess (baseOffset b off) n .write = .ok () ∧
      s.readReg .other src = .ok v ∧ t = s.putValue (baseOffset b off) v n := by
  have h' := h
  rw [storeOp, outcome_next_iff, bind_ok_iff] at h
  obtain ⟨_, hc, h⟩ := h
  obtain ⟨b, hb, h⟩ := bind_ok_iff.mp h
  obtain ⟨_, ha, h⟩ := bind_ok_iff.mp h
  obtain ⟨v, hv, _⟩ := bind_ok_iff.mp h
  rw [storeOp_of_checked hc hb ha hv] at h'
  exact ⟨b, v, hc, hb, ha, hv, (Host.Outcome.next.inj h').symm⟩

/-! ### Jumps -/

theorem jumpOp_of_checked {cond : Bool} {base : Reg} {off : BitVec 16} {s : State} {b : Word}
    (h : s.checkFields [(.source, base)] = .ok ()) (hb : s.readReg .jumpBase base = .ok b) :
    jumpOp cond base off s =
      .next (if cond then { s with pcx := baseOffset b off } else s) := by
  simp only [jumpOp, h, hb, ok_bind]
  rfl

theorem jumpOp_next {cond : Bool} {base : Reg} {off : BitVec 16} {s t : State}
    (h : jumpOp cond base off s = .next t) :
    ∃ b, s.checkFields [(.source, base)] = .ok () ∧ s.readReg .jumpBase base = .ok b ∧
      t = if cond then { s with pcx := baseOffset b off } else s := by
  have h' := h
  rw [jumpOp, outcome_next_iff, bind_ok_iff] at h
  obtain ⟨_, hc, h⟩ := h
  obtain ⟨b, hb, _⟩ := bind_ok_iff.mp h
  rw [jumpOp_of_checked hc hb] at h'
  exact ⟨b, hc, hb, (Host.Outcome.next.inj h').symm⟩

/-- Spending the draw of a condition changes nothing a register field is checked or read by. -/
@[simp] theorem checkFields_spendCondition (s : State) (fs : List (Use × Reg)) :
    s.spendCondition.checkFields fs = s.checkFields fs := rfl

@[simp] theorem readReg_spendCondition (s : State) (k : ReadContext) (r : Reg) :
    s.spendCondition.readReg k r = s.readReg k r := rfl

/-- What JGE and JLE answer: the jump of their condition, in the state after it. -/
theorem jumpOp_spendCondition_of_checked {cond : Bool} {base : Reg} {off : BitVec 16} {s : State}
    {b : Word} (h : s.checkFields [(.source, base)] = .ok ()) (hb : s.readReg .jumpBase base = .ok b) :
    jumpOp cond base off s.spendCondition =
      .next (if cond then { s.spendCondition with pcx := baseOffset b off } else s.spendCondition) :=
  jumpOp_of_checked (by rw [checkFields_spendCondition, h]) (by rw [readReg_spendCondition, hb])

/-! ### CMP, LLI, LUI -/

theorem execCmp_of_checked {a b : Reg} {s : State} {x y : Word}
    (h : s.checkFields [(.source, a), (.source, b)] = .ok ())
    (hx : s.readReg .other a = .ok x) (hy : s.readReg .other b = .ok y) :
    execCmp a b s = .next (s.setCmp x y) := by
  simp only [execCmp, h, hx, hy, ok_bind]
  rfl

theorem execCmp_next {a b : Reg} {s t : State} (h : execCmp a b s = .next t) :
    ∃ x y, s.checkFields [(.source, a), (.source, b)] = .ok () ∧ s.readReg .other a = .ok x ∧
      s.readReg .other b = .ok y ∧ t = s.setCmp x y := by
  have h' := h
  rw [execCmp, outcome_next_iff, bind_ok_iff] at h
  obtain ⟨_, hc, h⟩ := h
  obtain ⟨x, hx, h⟩ := bind_ok_iff.mp h
  obtain ⟨y, hy, _⟩ := bind_ok_iff.mp h
  rw [execCmp_of_checked hc hx hy] at h'
  exact ⟨x, y, hc, hx, hy, (Host.Outcome.next.inj h').symm⟩

theorem execLli_of_checked {v : BitVec 16} {d : Reg} {s : State}
    (h : s.checkFields [(.destination, d)] = .ok ()) :
    execLli v d s = .next (s.putReg d (zext16 v)) := by
  simp only [execLli, h, ok_bind]
  rw [writeReg_of_checkFields _ h (by simp)]
  rfl

theorem execLli_next {v : BitVec 16} {d : Reg} {s t : State} (h : execLli v d s = .next t) :
    s.checkFields [(.destination, d)] = .ok () ∧ t = s.putReg d (zext16 v) := by
  have h' := h
  rw [execLli, outcome_next_iff, bind_ok_iff] at h
  obtain ⟨_, hc, _⟩ := h
  rw [execLli_of_checked hc] at h'
  exact ⟨hc, (Host.Outcome.next.inj h').symm⟩

theorem execLui_of_checked {v : BitVec 16} {d : Reg} {s : State} {old : Word}
    (h : s.checkFields [(.source, d), (.destination, d)] = .ok ())
    (ho : s.readReg .other d = .ok old) :
    execLui v d s = .next (s.putReg d (upperHalf v old)) := by
  simp only [execLui, h, ho, ok_bind]
  rw [writeReg_of_checkFields _ h (by simp)]
  rfl

theorem execLui_next {v : BitVec 16} {d : Reg} {s t : State} (h : execLui v d s = .next t) :
    ∃ old, s.checkFields [(.source, d), (.destination, d)] = .ok () ∧
      s.readReg .other d = .ok old ∧ t = s.putReg d (upperHalf v old) := by
  have h' := h
  rw [execLui, outcome_next_iff, bind_ok_iff] at h
  obtain ⟨_, hc, h⟩ := h
  obtain ⟨old, ho, _⟩ := bind_ok_iff.mp h
  rw [execLui_of_checked hc ho] at h'
  exact ⟨old, hc, ho, (Host.Outcome.next.inj h').symm⟩

/-! ### INT and IRT -/

/-- The lookup with every read accessible: the parameter's answer stands. -/
theorem idtLookup_of_accessible {s : State} {code : BitVec 8}
    (h : ∀ r ∈ (s.tableLookup code).reads, s.accessible r.address r.size .read = true) :
    s.idtLookup code = (s.tableLookup code).result := by
  have hn : (s.tableLookup code).reads.find? (fun r => !s.accessible r.address r.size .read) = none :=
    List.find?_eq_none.mpr fun r hr => by simp [h r hr]
  rw [State.idtLookup, hn]

/-- The lookup whose first inaccessible read is `r`: the violation at the address of `r` (R234). -/
theorem idtLookup_of_inaccessible {s : State} {code : BitVec 8} {before after : List TableRead}
    {r : TableRead} (hs : (s.tableLookup code).reads = before ++ r :: after)
    (hb : ∀ q ∈ before, s.accessible q.address q.size .read = true)
    (hr : s.accessible r.address r.size .read = false) :
    s.idtLookup code = .memoryAccessViolation r.address := by
  have hf : (s.tableLookup code).reads.find? (fun r => !s.accessible r.address r.size .read) = some r := by
    rw [hs, List.find?_append, List.find?_eq_none.mpr fun q hq => by simp [hb q hq]]
    simp [hr]
  rw [State.idtLookup, hf]

/-- Everything the lookup can come to: the violation of one of its reads, or the parameter's answer with
every read accessible. -/
theorem idtLookup_cases (s : State) (code : BitVec 8) :
    (∃ r ∈ (s.tableLookup code).reads, s.accessible r.address r.size .read = false ∧
      s.idtLookup code = .memoryAccessViolation r.address) ∨
    ((∀ r ∈ (s.tableLookup code).reads, s.accessible r.address r.size .read = true) ∧
      s.idtLookup code = (s.tableLookup code).result) := by
  cases hf : (s.tableLookup code).reads.find? (fun r => !s.accessible r.address r.size .read) with
  | some r =>
    refine .inl ⟨r, List.mem_of_find?_eq_some hf, by simpa using List.find?_some hf, ?_⟩
    rw [State.idtLookup, hf]
  | none =>
    have h : ∀ r ∈ (s.tableLookup code).reads, s.accessible r.address r.size .read = true :=
      fun r hr => by simpa using List.find?_eq_none.mp hf r hr
    exact .inr ⟨h, idtLookup_of_accessible h⟩

theorem execInt_next {code : BitVec 8} {s t : State} (h : execInt code s = .next t) :
    s.saved = none ∧ ∃ w, s.idtLookup code = .handler w ∧ t = s.interruptEntry w := by
  unfold execInt at h
  split at h
  · cases h
  · rename_i hs
    split at h
    · rename_i w hw
      exact ⟨hs, w, hw, (Host.Outcome.next.inj h).symm⟩
    · cases h
    · cases h

theorem execIrt_next {s t : State} (h : execIrt s = .next t) :
    ∃ c, s.saved = some c ∧ t = (s.interruptReturn c).freeFlags := by
  unfold execIrt at h
  split at h
  · cases h
  · rename_i c hc
    exact ⟨c, hc, (Host.Outcome.next.inj h).symm⟩

end Sys2Proof.Machine
end

