-- ==== Sys2Proof/Laws/Words.lean ====
section
/-! SUPPORT. Lemmas about instruction words: the fields of the words the encoder writes, and numbers of
registers and opcodes. -/

namespace Sys2Proof

theorem toNat_append_add {m n : Nat} (x : BitVec m) (y : BitVec n) :
    (x ++ y).toNat = x.toNat * 2 ^ n + y.toNat := by
  rw [BitVec.toNat_append, ← Nat.shiftLeft_add_eq_or_of_lt y.isLt, Nat.shiftLeft_eq]

theorem rWord_toNat (op : Opcode) (a b d sh : BitVec 5) :
    (rWord op a b d sh).toNat =
      op.num.toNat * 2 ^ 26 + a.toNat * 2 ^ 21 + b.toNat * 2 ^ 16 + d.toNat * 2 ^ 11 +
        sh.toNat * 2 ^ 6 := by
  unfold rWord
  rw [toNat_append_add, toNat_append_add, toNat_append_add, toNat_append_add, toNat_append_add]
  have h : (0#6).toNat = 0 := rfl
  omega

theorem iWord_toNat (op : Opcode) (s d : BitVec 5) (imm : BitVec 16) :
    (iWord op s d imm).toNat =
      op.num.toNat * 2 ^ 26 + s.toNat * 2 ^ 21 + d.toNat * 2 ^ 16 + imm.toNat := by
  unfold iWord
  rw [toNat_append_add, toNat_append_add, toNat_append_add]
  omega

theorem toNat_extract (w : Word) (lo n : Nat) :
    (w.extractLsb' lo n).toNat = w.toNat / 2 ^ lo % 2 ^ n := by
  rw [BitVec.extractLsb'_toNat, Nat.shiftRight_eq_div_pow]

section fields
variable (op : Opcode) (a b d sh : BitVec 5) (imm : BitVec 16)

@[simp] theorem fieldOp_rWord : fieldOp (rWord op a b d sh) = op.num := by
  apply BitVec.eq_of_toNat_eq
  have := op.num.isLt
  rw [fieldOp, toNat_extract, rWord_toNat]
  omega

@[simp] theorem fieldA_rWord : fieldA (rWord op a b d sh) = a := by
  apply BitVec.eq_of_toNat_eq
  have := op.num.isLt
  rw [fieldA, toNat_extract, rWord_toNat]
  omega

@[simp] theorem fieldB_rWord : fieldB (rWord op a b d sh) = b := by
  apply BitVec.eq_of_toNat_eq
  rw [fieldB, toNat_extract, rWord_toNat]
  omega

@[simp] theorem fieldD_rWord : fieldD (rWord op a b d sh) = d := by
  apply BitVec.eq_of_toNat_eq
  rw [fieldD, toNat_extract, rWord_toNat]
  omega

@[simp] theorem fieldSh_rWord : fieldSh (rWord op a b d sh) = sh := by
  apply BitVec.eq_of_toNat_eq
  rw [fieldSh, toNat_extract, rWord_toNat]
  omega

@[simp] theorem fieldUn_rWord : fieldUn (rWord op a b d sh) = 0 := by
  apply BitVec.eq_of_toNat_eq
  rw [fieldUn, toNat_extract, rWord_toNat, show (0 : BitVec 6).toNat = 0 from rfl]
  omega

@[simp] theorem fieldOp_iWord : fieldOp (iWord op a b imm) = op.num := by
  apply BitVec.eq_of_toNat_eq
  have := op.num.isLt
  rw [fieldOp, toNat_extract, iWord_toNat]
  omega

@[simp] theorem fieldA_iWord : fieldA (iWord op a b imm) = a := by
  apply BitVec.eq_of_toNat_eq
  rw [fieldA, toNat_extract, iWord_toNat]
  omega

@[simp] theorem fieldB_iWord : fieldB (iWord op a b imm) = b := by
  apply BitVec.eq_of_toNat_eq
  rw [fieldB, toNat_extract, iWord_toNat]
  omega

@[simp] theorem fieldImm_iWord : fieldImm (iWord op a b imm) = imm := by
  apply BitVec.eq_of_toNat_eq
  rw [fieldImm, toNat_extract, iWord_toNat]
  omega

end fields

@[simp] theorem Reg.ofNum_num (r : Reg) : Reg.ofNum r.num = r := by
  cases r with
  | cell c => cases c <;> rfl
  | zero => rfl
  | noreg => rfl
  | upper k => revert k; decide

@[simp] theorem Reg.num_ofNum (n : BitVec 5) : (Reg.ofNum n).num = n := by
  revert n; decide

theorem Reg.num_inj {r q : Reg} : r.num = q.num ↔ r = q :=
  ⟨fun h => by rw [← Reg.ofNum_num r, h, Reg.ofNum_num], fun h => by rw [h]⟩

@[simp] theorem Opcode.ofNum_num (op : Opcode) : Opcode.ofNum op.num = some op := by
  cases op <;> rfl

theorem Opcode.num_of_ofNum {n : BitVec 6} {op : Opcode} (h : Opcode.ofNum n = some op) :
    op.num = n := by
  revert op; revert n; decide

/-- The number of a legal register is not that of `noreg`. -/
theorem Reg.num_ne_noreg {p : Option (Fin 8)} {r : Reg} (h : r.legal p = true) : r.num ≠ 0x17 := by
  intro hn
  have hr : r = .noreg := Reg.num_inj.mp hn
  subst hr
  exact Bool.false_ne_true h

/-- A used field answers exactly the legal registers, under their numbers. -/
theorem usedReg_ok_iff {p : Option (Fin 8)} {n : BitVec 5} {r : Reg} :
    usedReg p n = .ok r ↔ r.legal p = true ∧ r.num = n := by
  constructor
  · intro h
    have hr : Reg.ofNum n = r ∧ r.legal p = true := by
      unfold usedReg at h
      cases hn : Reg.ofNum n <;> simp only [hn] at h
      · cases h; exact ⟨rfl, rfl⟩
      · cases h; exact ⟨rfl, rfl⟩
      · cases h
      · split at h
        · cases h; exact ⟨rfl, by simp_all [Reg.legal]⟩
        · cases h
    exact ⟨hr.2, by rw [← hr.1, Reg.num_ofNum]⟩
  · rintro ⟨hl, rfl⟩
    unfold usedReg
    rw [Reg.ofNum_num]
    cases r <;> simp_all [Reg.legal]

@[simp] theorem unusedReg_noregNum : unusedReg noregNum = .ok () := rfl

theorem unusedReg_ok_iff {n : BitVec 5} : unusedReg n = .ok () ↔ n = noregNum := by
  unfold unusedReg noregNum
  split <;> simp_all

end Sys2Proof
end

