-- ==== Sys2Proof/Laws/PerInstr.lean ====
section
/-! SUPPORT. The per-instruction family EncodeRow: the word the encoder writes has the fixed bits of the
instruction's row in spec/opcode_table.json (30_encoding.md R92, R96). -/

namespace Sys2Proof.Laws

/-- Fixed bits of a row: bits `hi` down to `lo` hold `value`. -/
structure Fixed where
  hi : Nat
  lo : Nat
  value : Nat

/-- The "fixed" entries of the instruction's row, copied from the table. -/
def rowFixed : Instr → List Fixed
  | .nop => [⟨31, 0, 49788928⟩]
  | .mov _ _ => [⟨10, 0, 0⟩, ⟨20, 16, 23⟩, ⟨31, 26, 1⟩]
  | .movs _ _ => [⟨10, 0, 0⟩, ⟨20, 16, 23⟩, ⟨31, 26, 2⟩]
  | .ldb _ _ _ => [⟨31, 26, 3⟩]
  | .ldbs _ _ _ => [⟨31, 26, 4⟩]
  | .ldh _ _ _ => [⟨31, 26, 5⟩]
  | .ldhs _ _ _ => [⟨31, 26, 6⟩]
  | .ldw _ _ _ => [⟨31, 26, 7⟩]
  | .stb _ _ _ => [⟨31, 26, 8⟩]
  | .sth _ _ _ => [⟨31, 26, 9⟩]
  | .stw _ _ _ => [⟨31, 26, 10⟩]
  | .lli _ _ => [⟨31, 21, 375⟩]
  | .lui _ _ => [⟨31, 21, 407⟩]
  | .jmp _ _ => [⟨31, 21, 439⟩]
  | .jeq _ _ => [⟨31, 21, 471⟩]
  | .jne _ _ => [⟨31, 21, 503⟩]
  | .jgt _ _ => [⟨31, 21, 535⟩]
  | .jge _ _ => [⟨31, 21, 567⟩]
  | .jlt _ _ => [⟨31, 21, 599⟩]
  | .jle _ _ => [⟨31, 21, 631⟩]
  | .cmp _ _ => [⟨15, 0, 47104⟩, ⟨31, 26, 20⟩]
  | .inc _ => [⟨10, 0, 0⟩, ⟨20, 16, 23⟩, ⟨31, 26, 21⟩]
  | .dec _ => [⟨10, 0, 0⟩, ⟨20, 16, 23⟩, ⟨31, 26, 22⟩]
  | .shlLit _ _ => [⟨5, 0, 0⟩, ⟨20, 16, 23⟩, ⟨31, 26, 23⟩]
  | .shlReg _ _ => [⟨10, 0, 0⟩, ⟨31, 26, 23⟩]
  | .shrLit _ _ => [⟨5, 0, 0⟩, ⟨20, 16, 23⟩, ⟨31, 26, 24⟩]
  | .shrReg _ _ => [⟨10, 0, 0⟩, ⟨31, 26, 24⟩]
  | .add _ _ _ => [⟨10, 0, 0⟩, ⟨31, 26, 25⟩]
  | .sub _ _ _ => [⟨10, 0, 0⟩, ⟨31, 26, 26⟩]
  | .and _ _ _ => [⟨10, 0, 0⟩, ⟨31, 26, 27⟩]
  | .or _ _ _ => [⟨10, 0, 0⟩, ⟨31, 26, 28⟩]
  | .not _ _ => [⟨10, 0, 0⟩, ⟨20, 16, 23⟩, ⟨31, 26, 29⟩]
  | .xor _ _ _ => [⟨10, 0, 0⟩, ⟨31, 26, 30⟩]
  | .nand _ _ _ => [⟨10, 0, 0⟩, ⟨31, 26, 31⟩]
  | .nor _ _ _ => [⟨10, 0, 0⟩, ⟨31, 26, 32⟩]
  | .xnor _ _ _ => [⟨10, 0, 0⟩, ⟨31, 26, 33⟩]
  | .int _ => [⟨31, 8, 9107200⟩]
  | .irt => [⟨31, 0, 2398599168⟩]
  | .hlt => [⟨31, 0, 2465708032⟩]
  | .iadd _ _ _ => [⟨31, 26, 37⟩]
  | .isub _ _ _ => [⟨31, 26, 38⟩]

/-- The word has these fixed bits. -/
def hasFixed (w : Nat) : List Fixed → Prop
  | [] => True
  | f :: fs => w / 2 ^ f.lo % 2 ^ (f.hi - f.lo + 1) = f.value ∧ hasFixed w fs

/-- The encoded word has every fixed bit of its row. -/
def EncodeRow.Statement (i : Instr) : Prop := hasFixed (encode i).toNat (rowFixed i)

theorem noregNum_toNat : noregNum.toNat = 0x17 := rfl

theorem zero5_toNat : (0 : BitVec 5).toNat = 0 := rfl

theorem code_toNat (code : BitVec 8) : (0#8 ++ code).toNat = code.toNat := by
  rw [toNat_append_add]
  simp

/-- The fixed bits of INC and DEC, for any two register fields. -/
theorem hasFixed_oneReg {k : Nat} (op : Opcode) (h : op.num.toNat = k) (a d : BitVec 5) :
    hasFixed (rWord op a noregNum d 0).toNat [⟨10, 0, 0⟩, ⟨20, 16, 23⟩, ⟨31, 26, k⟩] := by
  have hk := op.num.isLt
  simp only [hasFixed, rWord_toNat, noregNum_toNat, zero5_toNat, and_true]
  omega

/-- The fixed bits of the literal shifts, for any two register fields. -/
theorem hasFixed_shiftLit {k : Nat} (op : Opcode) (h : op.num.toNat = k) (a d n : BitVec 5) :
    hasFixed (rWord op a noregNum d n).toNat [⟨5, 0, 0⟩, ⟨20, 16, 23⟩, ⟨31, 26, k⟩] := by
  have hk := op.num.isLt
  simp only [hasFixed, rWord_toNat, noregNum_toNat, and_true]
  omega

/-- The fixed bits of the register shifts, for any three register fields. -/
theorem hasFixed_shiftReg {k : Nat} (op : Opcode) (h : op.num.toNat = k) (a b d : BitVec 5) :
    hasFixed (rWord op a b d 0).toNat [⟨10, 0, 0⟩, ⟨31, 26, k⟩] := by
  have hk := op.num.isLt
  simp only [hasFixed, rWord_toNat, zero5_toNat, and_true]
  omega

theorem EncodeRow.nop : EncodeRow.Statement (.nop) := by
  have h : Opcode.nop.num.toNat = 0 := rfl
  simp only [EncodeRow.Statement, rowFixed, hasFixed, encode, rWord_toNat, zero5_toNat, noregNum_toNat,
    h, and_true]
  omega

theorem EncodeRow.mov (src dst : Reg) : EncodeRow.Statement (.mov src dst) := by
  have h : Opcode.mov.num.toNat = 1 := rfl
  simp only [EncodeRow.Statement, rowFixed, hasFixed, encode, rWord_toNat, zero5_toNat, noregNum_toNat,
    h, and_true]
  omega

theorem EncodeRow.movs (src dst : Reg) : EncodeRow.Statement (.movs src dst) := by
  have h : Opcode.movs.num.toNat = 2 := rfl
  simp only [EncodeRow.Statement, rowFixed, hasFixed, encode, rWord_toNat, zero5_toNat, noregNum_toNat,
    h, and_true]
  omega

theorem EncodeRow.ldb (base dst : Reg) (offset : BitVec 16) :
    EncodeRow.Statement (.ldb base dst offset) := by
  have h : Opcode.ldb.num.toNat = 3 := rfl
  simp only [EncodeRow.Statement, rowFixed, hasFixed, encode, iWord_toNat, h, and_true]
  omega

theorem EncodeRow.ldbs (base dst : Reg) (offset : BitVec 16) :
    EncodeRow.Statement (.ldbs base dst offset) := by
  have h : Opcode.ldbs.num.toNat = 4 := rfl
  simp only [EncodeRow.Statement, rowFixed, hasFixed, encode, iWord_toNat, h, and_true]
  omega

theorem EncodeRow.ldh (base dst : Reg) (offset : BitVec 16) :
    EncodeRow.Statement (.ldh base dst offset) := by
  have h : Opcode.ldh.num.toNat = 5 := rfl
  simp only [EncodeRow.Statement, rowFixed, hasFixed, encode, iWord_toNat, h, and_true]
  omega

theorem EncodeRow.ldhs (base dst : Reg) (offset : BitVec 16) :
    EncodeRow.Statement (.ldhs base dst offset) := by
  have h : Opcode.ldhs.num.toNat = 6 := rfl
  simp only [EncodeRow.Statement, rowFixed, hasFixed, encode, iWord_toNat, h, and_true]
  omega

theorem EncodeRow.ldw (base dst : Reg) (offset : BitVec 16) :
    EncodeRow.Statement (.ldw base dst offset) := by
  have h : Opcode.ldw.num.toNat = 7 := rfl
  simp only [EncodeRow.Statement, rowFixed, hasFixed, encode, iWord_toNat, h, and_true]
  omega

theorem EncodeRow.stb (src base : Reg) (offset : BitVec 16) :
    EncodeRow.Statement (.stb src base offset) := by
  have h : Opcode.stb.num.toNat = 8 := rfl
  simp only [EncodeRow.Statement, rowFixed, hasFixed, encode, iWord_toNat, h, and_true]
  omega

theorem EncodeRow.sth (src base : Reg) (offset : BitVec 16) :
    EncodeRow.Statement (.sth src base offset) := by
  have h : Opcode.sth.num.toNat = 9 := rfl
  simp only [EncodeRow.Statement, rowFixed, hasFixed, encode, iWord_toNat, h, and_true]
  omega

theorem EncodeRow.stw (src base : Reg) (offset : BitVec 16) :
    EncodeRow.Statement (.stw src base offset) := by
  have h : Opcode.stw.num.toNat = 10 := rfl
  simp only [EncodeRow.Statement, rowFixed, hasFixed, encode, iWord_toNat, h, and_true]
  omega

theorem EncodeRow.lli (value : BitVec 16) (dst : Reg) : EncodeRow.Statement (.lli value dst) := by
  have h : Opcode.lli.num.toNat = 11 := rfl
  simp only [EncodeRow.Statement, rowFixed, hasFixed, encode, iWord_toNat, noregNum_toNat, h,
    and_true]
  omega

theorem EncodeRow.lui (value : BitVec 16) (dst : Reg) : EncodeRow.Statement (.lui value dst) := by
  have h : Opcode.lui.num.toNat = 12 := rfl
  simp only [EncodeRow.Statement, rowFixed, hasFixed, encode, iWord_toNat, noregNum_toNat, h,
    and_true]
  omega

theorem EncodeRow.jmp (base : Reg) (offset : BitVec 16) :
    EncodeRow.Statement (.jmp base offset) := by
  have h : Opcode.jmp.num.toNat = 13 := rfl
  simp only [EncodeRow.Statement, rowFixed, hasFixed, encode, iWord_toNat, noregNum_toNat, h,
    and_true]
  omega

theorem EncodeRow.jeq (base : Reg) (offset : BitVec 16) :
    EncodeRow.Statement (.jeq base offset) := by
  have h : Opcode.jeq.num.toNat = 14 := rfl
  simp only [EncodeRow.Statement, rowFixed, hasFixed, encode, iWord_toNat, noregNum_toNat, h,
    and_true]
  omega

theorem EncodeRow.jne (base : Reg) (offset : BitVec 16) :
    EncodeRow.Statement (.jne base offset) := by
  have h : Opcode.jne.num.toNat = 15 := rfl
  simp only [EncodeRow.Statement, rowFixed, hasFixed, encode, iWord_toNat, noregNum_toNat, h,
    and_true]
  omega

theorem EncodeRow.jgt (base : Reg) (offset : BitVec 16) :
    EncodeRow.Statement (.jgt base offset) := by
  have h : Opcode.jgt.num.toNat = 16 := rfl
  simp only [EncodeRow.Statement, rowFixed, hasFixed, encode, iWord_toNat, noregNum_toNat, h,
    and_true]
  omega

theorem EncodeRow.jge (base : Reg) (offset : BitVec 16) :
    EncodeRow.Statement (.jge base offset) := by
  have h : Opcode.jge.num.toNat = 17 := rfl
  simp only [EncodeRow.Statement, rowFixed, hasFixed, encode, iWord_toNat, noregNum_toNat, h,
    and_true]
  omega

theorem EncodeRow.jlt (base : Reg) (offset : BitVec 16) :
    EncodeRow.Statement (.jlt base offset) := by
  have h : Opcode.jlt.num.toNat = 18 := rfl
  simp only [EncodeRow.Statement, rowFixed, hasFixed, encode, iWord_toNat, noregNum_toNat, h,
    and_true]
  omega

theorem EncodeRow.jle (base : Reg) (offset : BitVec 16) :
    EncodeRow.Statement (.jle base offset) := by
  have h : Opcode.jle.num.toNat = 19 := rfl
  simp only [EncodeRow.Statement, rowFixed, hasFixed, encode, iWord_toNat, noregNum_toNat, h,
    and_true]
  omega

theorem EncodeRow.cmp (reg1 reg2 : Reg) : EncodeRow.Statement (.cmp reg1 reg2) := by
  have h : Opcode.cmp.num.toNat = 20 := rfl
  simp only [EncodeRow.Statement, rowFixed, hasFixed, encode, rWord_toNat, zero5_toNat, noregNum_toNat,
    h, and_true]
  omega

theorem EncodeRow.inc (reg : Reg) : EncodeRow.Statement (.inc reg) :=
  hasFixed_oneReg .inc rfl reg.num reg.num

theorem EncodeRow.dec (reg : Reg) : EncodeRow.Statement (.dec reg) :=
  hasFixed_oneReg .dec rfl reg.num reg.num

theorem EncodeRow.shlLit (reg : Reg) (amount : BitVec 5) :
    EncodeRow.Statement (.shlLit reg amount) :=
  hasFixed_shiftLit .shl rfl reg.num reg.num amount

theorem EncodeRow.shlReg (reg count : Reg) : EncodeRow.Statement (.shlReg reg count) :=
  hasFixed_shiftReg .shl rfl reg.num count.num reg.num

theorem EncodeRow.shrLit (reg : Reg) (amount : BitVec 5) :
    EncodeRow.Statement (.shrLit reg amount) :=
  hasFixed_shiftLit .shr rfl reg.num reg.num amount

theorem EncodeRow.shrReg (reg count : Reg) : EncodeRow.Statement (.shrReg reg count) :=
  hasFixed_shiftReg .shr rfl reg.num count.num reg.num

theorem EncodeRow.add (src1 src2 dst : Reg) : EncodeRow.Statement (.add src1 src2 dst) := by
  have h : Opcode.add.num.toNat = 25 := rfl
  simp only [EncodeRow.Statement, rowFixed, hasFixed, encode, rWord_toNat, zero5_toNat, h,
    and_true]
  omega

theorem EncodeRow.sub (src1 src2 dst : Reg) : EncodeRow.Statement (.sub src1 src2 dst) := by
  have h : Opcode.sub.num.toNat = 26 := rfl
  simp only [EncodeRow.Statement, rowFixed, hasFixed, encode, rWord_toNat, zero5_toNat, h,
    and_true]
  omega

theorem EncodeRow.and (src1 src2 dst : Reg) : EncodeRow.Statement (.and src1 src2 dst) := by
  have h : Opcode.and.num.toNat = 27 := rfl
  simp only [EncodeRow.Statement, rowFixed, hasFixed, encode, rWord_toNat, zero5_toNat, h,
    and_true]
  omega

theorem EncodeRow.or (src1 src2 dst : Reg) : EncodeRow.Statement (.or src1 src2 dst) := by
  have h : Opcode.or.num.toNat = 28 := rfl
  simp only [EncodeRow.Statement, rowFixed, hasFixed, encode, rWord_toNat, zero5_toNat, h,
    and_true]
  omega

theorem EncodeRow.not (src dst : Reg) : EncodeRow.Statement (.not src dst) := by
  have h : Opcode.not.num.toNat = 29 := rfl
  simp only [EncodeRow.Statement, rowFixed, hasFixed, encode, rWord_toNat, zero5_toNat, noregNum_toNat,
    h, and_true]
  omega

theorem EncodeRow.xor (src1 src2 dst : Reg) : EncodeRow.Statement (.xor src1 src2 dst) := by
  have h : Opcode.xor.num.toNat = 30 := rfl
  simp only [EncodeRow.Statement, rowFixed, hasFixed, encode, rWord_toNat, zero5_toNat, h,
    and_true]
  omega

theorem EncodeRow.nand (src1 src2 dst : Reg) : EncodeRow.Statement (.nand src1 src2 dst) := by
  have h : Opcode.nand.num.toNat = 31 := rfl
  simp only [EncodeRow.Statement, rowFixed, hasFixed, encode, rWord_toNat, zero5_toNat, h,
    and_true]
  omega

theorem EncodeRow.nor (src1 src2 dst : Reg) : EncodeRow.Statement (.nor src1 src2 dst) := by
  have h : Opcode.nor.num.toNat = 32 := rfl
  simp only [EncodeRow.Statement, rowFixed, hasFixed, encode, rWord_toNat, zero5_toNat, h,
    and_true]
  omega

theorem EncodeRow.xnor (src1 src2 dst : Reg) : EncodeRow.Statement (.xnor src1 src2 dst) := by
  have h : Opcode.xnor.num.toNat = 33 := rfl
  simp only [EncodeRow.Statement, rowFixed, hasFixed, encode, rWord_toNat, zero5_toNat, h,
    and_true]
  omega

theorem EncodeRow.int (code : BitVec 8) : EncodeRow.Statement (.int code) := by
  have h : Opcode.int.num.toNat = 34 := rfl
  simp only [EncodeRow.Statement, rowFixed, hasFixed, encode, iWord_toNat, noregNum_toNat, code_toNat, h,
    and_true]
  omega

theorem EncodeRow.irt : EncodeRow.Statement (.irt) := by
  have h : Opcode.irt.num.toNat = 35 := rfl
  simp only [EncodeRow.Statement, rowFixed, hasFixed, encode, rWord_toNat, zero5_toNat, noregNum_toNat,
    h, and_true]
  omega

theorem EncodeRow.hlt : EncodeRow.Statement (.hlt) := by
  have h : Opcode.hlt.num.toNat = 36 := rfl
  simp only [EncodeRow.Statement, rowFixed, hasFixed, encode, rWord_toNat, zero5_toNat, noregNum_toNat,
    h, and_true]
  omega

theorem EncodeRow.iadd (src : Reg) (literal : BitVec 16) (dst : Reg) :
    EncodeRow.Statement (.iadd src literal dst) := by
  have h : Opcode.iadd.num.toNat = 37 := rfl
  simp only [EncodeRow.Statement, rowFixed, hasFixed, encode, iWord_toNat, h, and_true]
  omega

theorem EncodeRow.isub (src : Reg) (literal : BitVec 16) (dst : Reg) :
    EncodeRow.Statement (.isub src literal dst) := by
  have h : Opcode.isub.num.toNat = 38 := rfl
  simp only [EncodeRow.Statement, rowFixed, hasFixed, encode, iWord_toNat, h, and_true]
  omega

end Sys2Proof.Laws
end

