-- ==== Sys2Proof/Tests/Slice0.lean ====
section
/-! SUPPORT. The model's own tests. Expected words and values are those of spec/95_test_vectors.md, by
the id named beside each; where no vector is named they are worked out by hand from the rule named.
The witnesses at the end show, for each obligation with hypotheses, a concrete case of every clause. -/

namespace Sys2Proof.Tests

open Sys2Proof Sys2Proof.Machine

/-! ### Well-formedness: one ill-formed term for each check -/

/-- R89: noreg in a used field. -/
theorem test_wf_refuses_noreg : (Instr.mov .noreg (.cell .rg0)).wf none = false := by decide

/-- R89: the last field is checked like the first. -/
theorem test_wf_refuses_noreg_destination :
    (Instr.add (.cell .rg0) (.cell .rg1) .noreg).wf none = false := by decide

/-- R41: a reserved number in a used field. -/
theorem test_wf_refuses_reserved : (Instr.jmp (.upper 0) 0).wf none = false := by decide

/-- R41: a number that is not `PCX_REGNUM`. -/
theorem test_wf_refuses_other_upper : (Instr.inc (.upper 7)).wf (some 0) = false := by decide

/-- R41: `PCX_REGNUM` itself is a register number. -/
theorem test_wf_admits_pcx : (Instr.jmp (.upper 0) 0).wf (some 0) = true := by decide

/-- `zero` is a register (R25), and an instruction without fields has nothing to check. -/
theorem test_wf_admits_zero :
    (Instr.mov .zero .zero).wf none = true ∧ Instr.nop.wf none = true := by decide

/-! ### Decoding: a word of the spec for every constructor, both ways -/

/-- The word decodes to the instruction, with no `PCX_REGNUM`, and is the instruction's word. -/
def isWordOf (w : Word) (i : Instr) : Bool :=
  decide (decodeWord none w = .ok i) && decide (encode i = w)

/-- V-M0, V-M1, V-M6. -/
theorem test_decode_data_movement :
    isWordOf 0x02F7B800 .nop ∧ isWordOf 0x04371000 (.mov (.cell .rg1) (.cell .rg2)) ∧
    isWordOf 0x08371000 (.movs (.cell .rg1) (.cell .rg2)) := by decide

/-- V-L2, V-L3, V-L5, V-L7, V-L11, V-L12. -/
theorem test_decode_loads :
    isWordOf 0x0C220003 (.ldb (.cell .rg1) (.cell .rg2) 3) ∧
    isWordOf 0x10220003 (.ldbs (.cell .rg1) (.cell .rg2) 3) ∧
    isWordOf 0x14220000 (.ldh (.cell .rg1) (.cell .rg2) 0) ∧
    isWordOf 0x18220002 (.ldhs (.cell .rg1) (.cell .rg2) 2) ∧
    isWordOf 0x1C22FFFC (.ldw (.cell .rg1) (.cell .rg2) 0xFFFC) ∧
    isWordOf 0x1EC22004 (.ldw .zero (.cell .rg2) 0x2004) := by decide

/-- V-S2, V-S3, V-S4 and the other encodings of 2.3. -/
theorem test_decode_stores :
    isWordOf 0x20410003 (.stb (.cell .rg2) (.cell .rg1) 3) ∧
    isWordOf 0x24410002 (.sth (.cell .rg2) (.cell .rg1) 2) ∧
    isWordOf 0x28410004 (.stw (.cell .rg2) (.cell .rg1) 4) ∧
    isWordOf 0x2A710000 (.stw (.cell .ret) (.cell .spr) 0) ∧
    isWordOf 0x20720001 (.stb (.cell .rg3) (.cell .bpr) 1) := by decide

/-- S1, V-I3, V-P3. -/
theorem test_decode_immediate_loads :
    isWordOf 0x2EE01234 (.lli 0x1234 (.cell .rg0)) ∧
    isWordOf 0x32E0ABCD (.lui 0xABCD (.cell .rg0)) ∧
    isWordOf 0x2EF50100 (.lli 0x100 (.cell .mmr)) := by decide

/-- V-J10 to V-J16. -/
theorem test_decode_jumps :
    isWordOf 0x36EF0020 (.jmp (.cell .rgf) 0x20) ∧ isWordOf 0x3AEF0020 (.jeq (.cell .rgf) 0x20) ∧
    isWordOf 0x3EEF0020 (.jne (.cell .rgf) 0x20) ∧ isWordOf 0x42EF0020 (.jgt (.cell .rgf) 0x20) ∧
    isWordOf 0x46EF0020 (.jge (.cell .rgf) 0x20) ∧ isWordOf 0x4AEF0020 (.jlt (.cell .rgf) 0x20) ∧
    isWordOf 0x4EEF0020 (.jle (.cell .rgf) 0x20) := by decide

/-- V-C1, V-A1, V-A3, V-A6, V-A10, V-A14, V-A19. -/
theorem test_decode_compare_and_arithmetic :
    isWordOf 0x5001B800 (.cmp (.cell .rg0) (.cell .rg1)) ∧
    isWordOf 0x54B72800 (.inc (.cell .rg5)) ∧ isWordOf 0x58B72800 (.dec (.cell .rg5)) ∧
    isWordOf 0x64011000 (.add (.cell .rg0) (.cell .rg1) (.cell .rg2)) ∧
    isWordOf 0x68011000 (.sub (.cell .rg0) (.cell .rg1) (.cell .rg2)) ∧
    isWordOf 0x9401FFFF (.iadd (.cell .rg0) 0xFFFF (.cell .rg1)) ∧
    isWordOf 0x9A310008 (.isub (.cell .spr) 8 (.cell .spr)) := by decide

/-- V-G1 to V-G7. -/
theorem test_decode_logical :
    isWordOf 0x6C011000 (.and (.cell .rg0) (.cell .rg1) (.cell .rg2)) ∧
    isWordOf 0x70011000 (.or (.cell .rg0) (.cell .rg1) (.cell .rg2)) ∧
    isWordOf 0x78011000 (.xor (.cell .rg0) (.cell .rg1) (.cell .rg2)) ∧
    isWordOf 0x7C011000 (.nand (.cell .rg0) (.cell .rg1) (.cell .rg2)) ∧
    isWordOf 0x80011000 (.nor (.cell .rg0) (.cell .rg1) (.cell .rg2)) ∧
    isWordOf 0x84011000 (.xnor (.cell .rg0) (.cell .rg1) (.cell .rg2)) ∧
    isWordOf 0x74170800 (.not (.cell .rg0) (.cell .rg1)) := by decide

/-- V-SH1, V-SH2, V-SH5, V-SH9, V-SH12, V-SH15: SrcReg2 = noreg is the literal form, also with the
count 0, and `zero` as the count register is the register form (R93). -/
theorem test_decode_shifts :
    isWordOf 0x5C370900 (.shlLit (.cell .rg1) 4) ∧ isWordOf 0x60370900 (.shrLit (.cell .rg1) 4) ∧
    isWordOf 0x5C370800 (.shlLit (.cell .rg1) 0) ∧
    isWordOf 0x5C220800 (.shlReg (.cell .rg1) (.cell .rg2)) ∧
    isWordOf 0x60220800 (.shrReg (.cell .rg1) (.cell .rg2)) ∧
    isWordOf 0x5C360800 (.shlReg (.cell .rg1) .zero) := by decide

/-- V-Y1 to V-Y3, V-Y6. -/
theorem test_decode_system :
    isWordOf 0x92F7B800 .hlt ∧ isWordOf 0x8AF70021 (.int 0x21) ∧ isWordOf 0x8EF7B800 .irt ∧
    isWordOf 0x8AF700FF (.int 0xFF) := by decide

/-- V-PCX: 0x36F8FFF8 is `JMP pcx, -8` where `PCX_REGNUM` is 0x18, and no instruction where it is none. -/
theorem test_decode_pcx :
    decodeWord (some 0) 0x36F8FFF8 = .ok (.jmp (.upper 0) 0xFFF8) ∧
    decodeWord none 0x36F8FFF8 = .error .reservedRegister := by decide

/-- V-X1 to V-X10: each refused for the rule that the vector names. -/
theorem test_decode_refuses_fields :
    decodeWord none 0x9C000000 = .error .reservedOpcode ∧
    decodeWord none 0xFFFFFFFF = .error .reservedOpcode ∧
    decodeWord none 0x00000000 = .error .unusedRegister ∧
    decodeWord none 0x02F7B801 = .error .unusedBits ∧
    decodeWord none 0x04201000 = .error .unusedRegister ∧
    decodeWord none 0x64011040 = .error .shiftAmount ∧
    decodeWord none 0x54B73000 = .error .registersDiffer ∧
    decodeWord none 0x5C220900 = .error .shiftAmount ∧
    decodeWord none 0x2C001234 = .error .unusedRegister ∧
    decodeWord none 0x92F7B840 = .error .shiftAmount := by decide

/-- V-X11 to V-X17. -/
theorem test_decode_refuses_operands :
    decodeWord none 0x6401B800 = .error .noregOperand ∧
    decodeWord none 0x5017B800 = .error .noregOperand ∧
    decodeWord none 0x36F70000 = .error .noregOperand ∧
    decodeWord none 0x6401C000 = .error .reservedRegister ∧
    decodeWord none 0x2AE10000 = .error .noregOperand ∧
    decodeWord none 0x1EE20000 = .error .noregOperand ∧
    decodeWord none 0x8AF70121 = .error .interruptCode := by decide

/-- R53: the word 0x2EE00000 of `LLI 0, rg0` is the bytes 00 00 E0 2E (95_test_vectors.md, part 3), and
fewer than four bytes are no instruction. -/
theorem test_decode_bytes :
    decodeBytes none [0x00, 0x00, 0xE0, 0x2E, 0x5A] = .ok (.lli 0 (.cell .rg0), [0x5A]) ∧
    decodeBytes none [0x00, 0x00, 0xE0] = .error .truncated := by decide

/-- The host's numbering: NOP's row, its 32 bits as the table's mask gives them. -/
theorem test_decode_table_word : decodeTableWord 32 0x02F7B800 = some .nop := by decide

/-- The source's example (S1): `LLI 0x1234, rg0`. -/
theorem test_asm_lli :
    (Instr.lli 0x1234 (.cell .rg0)).opcode.mnemonic = "LLI" ∧
    (Instr.lli 0x1234 (.cell .rg0)).asmOperands = [.literal 0x1234, .reg (.cell .rg0)] := by decide

/-- V-L11: `LDW rg1, rg2, -4`. -/
theorem test_asm_offset :
    (Instr.ldw (.cell .rg1) (.cell .rg2) 0xFFFC).asmOperands =
      [.reg (.cell .rg1), .reg (.cell .rg2), .literal (-4)] := by decide

/-- S7: the J-type address calculation. -/
theorem test_jTypeTarget :
    jTypeTarget 0x30001004 0x0000400 = 0x30001000 ∧
    jTypeTarget 0x00001004 0x3FFFFFF = 0x0FFFFFFC := by decide

/-! ### One step -/

/-- The parameters of the tests: MOVS extends from `width`; 0x2008 to 0x2FFF and 0x1FFF are not
accessible (2.2 of 95_test_vectors.md), everything else is, but for reads of 0x5090 to 0x509F in User mode.
The lookup of 0x21 reads the word at 0x5084 and finds the handler 0x4000, those of 0x22 and 0x23 raise, and
that of 0x24 reads words at 0x5084 and 0x5090. -/
def testCfg (width : MovsWidth) : Config where
  pcxRegnum := none
  movsWidth := width
  resetPc := 0x00001000
  access := [⟨0x2008, 0x2FFF, none, none, none, false⟩, ⟨0x1FFF, 0x1FFF, none, none, none, false⟩,
    ⟨0x5090, 0x509F, none, some .read, some .user, false⟩, ⟨0x00000000, 0xFFFFFFFF, none, none, none, true⟩]
  kernelStack := some 0x00009000
  idt := [⟨none, some 0x21, ⟨[⟨0x5084, .word⟩], .handler 0x00004000⟩⟩,
    ⟨none, some 0x22, ⟨[], .alignmentFault 0x00005089⟩⟩,
    ⟨none, some 0x23, ⟨[⟨0x508C, .byte⟩], .memoryAccessViolation 0x0000508C⟩⟩,
    ⟨none, some 0x24, ⟨[⟨0x5084, .word⟩, ⟨0x5090, .word⟩], .handler 0x00004000⟩⟩,
    ⟨none, none, ⟨[], .handler 0x00006000⟩⟩]

/-- The bytes of 2.2 of 95_test_vectors.md. -/
def testData : Memory :=
  [(0x2000, 0x01), (0x2001, 0x7F), (0x2002, 0xFF), (0x2003, 0x80), (0x2004, 0x78), (0x2005, 0x56),
    (0x2006, 0x34), (0x2007, 0x12)]

/-- The machine of the tests before the word at 0x1000 runs, with these registers. -/
def ready (w : Word) (regs : List (Cell × Word)) : State :=
  ((regs.foldl (fun s r => s.set r.1 r.2) (State.boot (testCfg .byte) (RegFile.fill 0) testData)).putValue
    0x00001000 w .word)

/-- The same in User mode. -/
def inUser (s : State) : State := { s with mode := .user }

/-- The same with STS[5:0] as given. -/
def withFlags (s : State) (f : BitVec 6) : State :=
  { s with sts := ⟨f.getLsbD 0, f.getLsbD 1, f.getLsbD 2, f.getLsbD 3, f.getLsbD 4, f.getLsbD 5, 0⟩ }

/-- The same with other parameters. -/
def withPcx (s : State) (k : Fin 8) : State := { s with cfg := { s.cfg with pcxRegnum := some k } }

/-- The next state, where there is one. -/
def nextOf : Out → Option State
  | .next t => some t
  | _ => none

/-- The fault, where there is one. -/
def faultOf : Out → Option Fault
  | .fault f => some f
  | _ => none

/-- The refusal, where there is one. -/
def refusalOf : Out → Option Refusal
  | .refused r => some r
  | _ => none

/-- A register and Zero after the step. -/
def result (s : State) (c : Cell) : Option (Word × Bool) :=
  (nextOf (step s)).map (fun t => (t.get c, t.sts.z))

/-- A register after the step, with STS. -/
def loaded (s : State) (c : Cell) : Option (Word × Word) :=
  (nextOf (step s)).map (fun t => (t.get c, t.sts.toWord))

/-- The eight bytes from 0x2000 on after the step. -/
def stored (s : State) : Option (List Byte) :=
  (nextOf (step s)).map (fun t => [t.byteAt 0x2000, t.byteAt 0x2001, t.byteAt 0x2002, t.byteAt 0x2003,
    t.byteAt 0x2004, t.byteAt 0x2005, t.byteAt 0x2006, t.byteAt 0x2007])

/-- PCX after the step. -/
def pcxAfter (s : State) : Option Word := (nextOf (step s)).map State.pcx

/-- V-M0. -/
theorem test_nop :
    nextOf (step (ready 0x02F7B800 [(.rg1, 7)])) =
      some { ready 0x02F7B800 [(.rg1, 7)] with pcx := 0x00001004 } := by decide

/-- V-M1, V-M3. -/
theorem test_mov :
    result (ready 0x04371000 [(.rg1, 0x12345678)]) .rg2 = some (0x12345678, false) ∧
    result (ready 0x06D70000 [(.rg0, 9)]) .rg0 = some (0, true) := by decide

/-- V-M4: the destination is `zero`; the flags are written. -/
theorem test_mov_to_zero :
    result (ready 0x0417B000 [(.rg0, 5)]) .rg0 = some (5, false) := by decide

/-- V-M7, V-M9 with `MOVS_WIDTH` 8. -/
theorem test_movs_byte :
    result (ready 0x08371000 [(.rg1, 0x80)]) .rg2 = some (0xFFFFFF80, false) ∧
    result (ready 0x08371000 [(.rg1, 0x8000)]) .rg2 = some (0, true) := by decide

/-- V-M7, V-M9 with `MOVS_WIDTH` 16. -/
theorem test_movs_half :
    result { ready 0x08371000 [(.rg1, 0x80)] with cfg := testCfg .half } .rg2 =
      some (0x00000080, false) ∧
    result { ready 0x08371000 [(.rg1, 0x8000)] with cfg := testCfg .half } .rg2 =
      some (0xFFFF8000, false) := by decide

/-- V-L2, V-L21. -/
theorem test_ldb :
    loaded (withFlags (ready 0x0C220003 [(.rg1, 0x2000)]) 0x35) .rg2 = some (0x80, 0x35) ∧
    faultOf (step (ready 0x0C220008 [(.rg1, 0x2000)])) =
      some (.memoryAccessViolation 0x1000 0x2008) := by decide

/-- V-L3, V-L4. -/
theorem test_ldbs :
    loaded (ready 0x10220003 [(.rg1, 0x2000)]) .rg2 = some (0xFFFFFF80, 0) ∧
    loaded (ready 0x10220001 [(.rg1, 0x2000)]) .rg2 = some (0x0000007F, 0) := by decide

/-- V-L6, V-L15. -/
theorem test_ldh :
    loaded (ready 0x14220002 [(.rg1, 0x2000)]) .rg2 = some (0x000080FF, 0) ∧
    faultOf (step (ready 0x14220001 [(.rg1, 0x2000)])) = some (.alignmentFault 0x1000 0x2001) := by
  decide

/-- V-L7, V-L8. -/
theorem test_ldhs :
    loaded (ready 0x18220002 [(.rg1, 0x2000)]) .rg2 = some (0xFFFF80FF, 0) ∧
    loaded (ready 0x18220000 [(.rg1, 0x2000)]) .rg2 = some (0x00007F01, 0) := by decide

/-- V-L11, V-L13: a negative offset, and the base as destination. -/
theorem test_ldw :
    loaded (ready 0x1C22FFFC [(.rg1, 0x2004)]) .rg2 = some (0x80FF7F01, 0) ∧
    loaded (ready 0x1C210004 [(.rg1, 0x2000)]) .rg1 = some (0x12345678, 0) := by decide

/-- V-L19, V-L20: the alignment check comes before the access check, and a load to `zero` makes the
access. -/
theorem test_ldw_misaligned :
    faultOf (step (ready 0x1C220006 [(.rg1, 0x2000)])) = some (.alignmentFault 0x1000 0x2006) ∧
    faultOf (step (ready 0x1C360002 [(.rg1, 0x2000)])) = some (.alignmentFault 0x1000 0x2002) := by
  decide

/-- V-S2, on the bytes of 2.2. -/
theorem test_stb :
    stored (ready 0x20410003 [(.rg1, 0x2000), (.rg2, 0x12345678)]) =
      some [0x01, 0x7F, 0xFF, 0x78, 0x78, 0x56, 0x34, 0x12] := by decide

/-- V-S3, V-S5. -/
theorem test_sth :
    stored (ready 0x24410002 [(.rg1, 0x2000), (.rg2, 0x12345678)]) =
      some [0x01, 0x7F, 0x78, 0x56, 0x78, 0x56, 0x34, 0x12] ∧
    faultOf (step (ready 0x24410001 [(.rg1, 0x2000), (.rg2, 0x12345678)])) =
      some (.alignmentFault 0x1000 0x2001) := by decide

/-- V-S4, V-S9: four bytes, the least significant first; `zero` stores 0. -/
theorem test_stw :
    stored (ready 0x28410000 [(.rg1, 0x2000), (.rg2, 0x12345678)]) =
      some [0x78, 0x56, 0x34, 0x12, 0x78, 0x56, 0x34, 0x12] ∧
    stored (ready 0x2AC10000 [(.rg1, 0x2000)]) =
      some [0x00, 0x00, 0x00, 0x00, 0x78, 0x56, 0x34, 0x12] := by decide

/-- V-S7, V-S8. -/
theorem test_stw_faults :
    faultOf (step (ready 0x28410006 [(.rg1, 0x2000)])) = some (.alignmentFault 0x1000 0x2006) ∧
    faultOf (step (ready 0x28410008 [(.rg1, 0x2000)])) =
      some (.memoryAccessViolation 0x1000 0x2008) := by decide

/-- V-I1. -/
theorem test_lli :
    loaded (ready 0x2EE1FFFF [(.rg1, 0xDEADBEEF)]) .rg1 = some (0x0000FFFF, 0) := by decide

/-- V-I4, V-I2. -/
theorem test_lui :
    loaded (ready 0x32E00001 [(.rg0, 0xFFFF0000)]) .rg0 = some (0x00010000, 0) ∧
    loaded (ready 0x32E18000 [(.rg1, 0x0000FFFF)]) .rg1 = some (0x8000FFFF, 0) := by decide

/-- V-J2, V-J4: the offset is signed and the sum wraps. -/
theorem test_jmp :
    pcxAfter (ready 0x36F6FFFC []) = some 0xFFFFFFFC ∧
    pcxAfter (ready 0x36EFFFF8 [(.rgf, 4)]) = some 0xFFFFFFFC := by decide

/-- V-PCX, and the same word where pcx has no number. -/
theorem test_jmp_pcx :
    pcxAfter (withPcx (ready 0x36F8FFF8 []) 0) = some 0x00000FFC ∧
    faultOf (step (ready 0x36F8FFF8 [])) = some (.illegalInstruction 0x1000) := by decide

/-- PCX after the word, with the four values of STS in the table of V-J10 to V-J16. -/
def jumped (w : Word) : List (Option Word) :=
  [0x35, 0x06, 0x18, 0x00].map (fun f => pcxAfter (withFlags (ready w [(.rgf, 0x4000)]) f))

/-- V-J11. -/
theorem test_jeq : jumped 0x3AEF0020 = [some 0x4020, some 0x1004, some 0x1004, some 0x1004] := by decide

/-- V-J12. -/
theorem test_jne : jumped 0x3EEF0020 = [some 0x1004, some 0x4020, some 0x4020, some 0x4020] := by decide

/-- V-J13. -/
theorem test_jgt : jumped 0x42EF0020 = [some 0x1004, some 0x4020, some 0x1004, some 0x1004] := by decide

/-- V-J14. -/
theorem test_jge : jumped 0x46EF0020 = [some 0x4020, some 0x4020, some 0x1004, some 0x1004] := by decide

/-- V-J15. -/
theorem test_jlt : jumped 0x4AEF0020 = [some 0x1004, some 0x1004, some 0x4020, some 0x1004] := by decide

/-- V-J16. -/
theorem test_jle : jumped 0x4EEF0020 = [some 0x4020, some 0x1004, some 0x4020, some 0x1004] := by decide

/-- V-J9 for JGE, with GT set: on unspecified flags a free value decides, and is spent (R159). -/
theorem test_jge_unspecified :
    (nextOf (exec (.jge .zero 0x20) { withFlags (ready 0 []) 0x02 with flagsUnspecified := true })).map
        (fun t => (t.pcx, t.draws)) =
      some (if Config.freeCondition 0 then 0x20 else 0x1000, 1) := by
  cases h : Config.freeCondition 0 <;>
    simp [exec, execJge, State.eitherFlag, State.spendCondition, withFlags, ready, State.boot, testCfg,
      RegFile.fill, jumpOp, h, State.checkFields, State.readReg, Reg.legal, State.protects, outcome, nextOf,
      bind, Except.bind, pure, Except.pure, baseOffset, sext16, State.putValue, State.putByte]

/-- ADD leaves the flags unspecified, CMP specifies them (R159). -/
theorem test_flags_unspecified :
    (nextOf (step (ready 0x64011000 []))).map State.flagsUnspecified = some true ∧
    (nextOf (step { ready 0x5001B800 [] with flagsUnspecified := true })).map State.flagsUnspecified =
      some false := by decide

/-- V-J7: the base is checked where the jump is not taken. -/
theorem test_jeq_noreg :
    faultOf (step (ready 0x3AF70000 [])) = some (.illegalInstruction 0x1000) := by decide

/-- STS after `CMP rg0, rg1`. -/
def compared (x y : Word) : Option Word :=
  (nextOf (step (ready 0x5001B800 [(.rg0, x), (.rg1, y)]))).map (fun t => t.sts.toWord)

/-- V-C1, V-C2, V-C3. -/
theorem test_cmp :
    compared 5 5 = some 0x35 ∧ compared 7 3 = some 0x06 ∧ compared 3 7 = some 0x18 := by decide

/-- V-C4, V-C6, V-C7: signed. -/
theorem test_cmp_signed :
    compared 0xFFFFFFFF 1 = some 0x18 ∧ compared 0x80000000 0x7FFFFFFF = some 0x18 ∧
    compared 0x7FFFFFFF 0x80000000 = some 0x06 := by decide

/-- V-A1, V-A2. -/
theorem test_inc :
    result (ready 0x54B72800 [(.rg5, 0xFFFFFFFF)]) .rg5 = some (0, true) ∧
    result (ready 0x54B72800 [(.rg5, 0x7FFFFFFF)]) .rg5 = some (0x80000000, false) := by decide

/-- V-A3, V-A5. -/
theorem test_dec :
    result (ready 0x58B72800 []) .rg5 = some (0xFFFFFFFF, false) ∧
    result (ready 0x5A178000 [(.acc, 0x80000000)]) .acc = some (0x7FFFFFFF, false) := by decide

/-- V-A6, V-A8. -/
theorem test_add :
    result (ready 0x64011000 [(.rg0, 0xFFFFFFFF), (.rg1, 1)]) .rg2 = some (0, true) ∧
    result (ready 0x64000000 [(.rg0, 0x80000000)]) .rg0 = some (0, true) := by decide

/-- V-A10, V-A13: Src1 - Src2. -/
theorem test_sub :
    result (ready 0x68011000 [(.rg0, 0), (.rg1, 1)]) .rg2 = some (0xFFFFFFFF, false) ∧
    result (ready 0x68011000 [(.rg0, 10), (.rg1, 3)]) .rg2 = some (7, false) := by decide

/-- V-A14, V-A17. -/
theorem test_iadd :
    result (ready 0x9401FFFF [(.rg0, 0)]) .rg1 = some (0xFFFFFFFF, false) ∧
    result (ready 0x94018000 [(.rg0, 0x8000)]) .rg1 = some (0, true) := by decide

/-- V-A19, V-A21. -/
theorem test_isub :
    result (ready 0x9A310008 [(.spr, 0x3008)]) .spr = some (0x3000, false) ∧
    result (ready 0x98018000 [(.rg0, 0)]) .rg1 = some (0x8000, false) := by decide

/-- The result in rg2 with the operands of 2.8. -/
def combined (w : Word) : Option (Word × Bool) :=
  result (ready w [(.rg0, 0xFF00FF00), (.rg1, 0x0FF00FF0)]) .rg2

/-- V-G1. -/
theorem test_and : combined 0x6C011000 = some (0x0F000F00, false) := by decide

/-- V-G2. -/
theorem test_or : combined 0x70011000 = some (0xFFF0FFF0, false) := by decide

/-- V-G3. -/
theorem test_xor : combined 0x78011000 = some (0xF0F0F0F0, false) := by decide

/-- V-G4. -/
theorem test_nand : combined 0x7C011000 = some (0xF0FFF0FF, false) := by decide

/-- V-G5. -/
theorem test_nor : combined 0x80011000 = some (0x000F000F, false) := by decide

/-- V-G6. -/
theorem test_xnor : combined 0x84011000 = some (0x0F0F0F0F, false) := by decide

/-- V-G7, V-G8. -/
theorem test_not :
    result (ready 0x74170800 [(.rg0, 0xFF00FF00)]) .rg1 = some (0x00FF00FF, false) ∧
    result (ready 0x74170800 [(.rg0, 0xFFFFFFFF)]) .rg1 = some (0, true) := by decide

/-- V-SH1, V-SH3. -/
theorem test_shl_literal :
    result (ready 0x5C370900 [(.rg1, 0x80000001)]) .rg1 = some (0x10, false) ∧
    result (ready 0x5C370FC0 [(.rg1, 0x80000001)]) .rg1 = some (0x80000000, false) := by decide

/-- V-SH2, V-SH8. -/
theorem test_shr_literal :
    result (ready 0x60370900 [(.rg1, 0x80000001)]) .rg1 = some (0x08000000, false) ∧
    result (ready 0x60370840 [(.rg1, 1)]) .rg1 = some (0, true) := by decide

/-- V-SH10, V-SH14: the low five bits of the count, and the count from the old value. -/
theorem test_shl_register :
    result (ready 0x5C220800 [(.rg1, 1), (.rg2, 32)]) .rg1 = some (1, false) ∧
    result (ready 0x5C210800 [(.rg1, 3)]) .rg1 = some (0x18, false) := by decide

/-- V-SH12, V-SH13. -/
theorem test_shr_register :
    result (ready 0x60220800 [(.rg1, 0x80000000), (.rg2, 0xFFFFFFFF)]) .rg1 = some (1, false) ∧
    result (ready 0x60220800 [(.rg1, 0xF0), (.rg2, 0x24)]) .rg1 = some (0x0F, false) := by decide

/-- V-Y2: everything INT writes, from User mode. -/
theorem test_int :
    nextOf (step (inUser (ready 0x8AF70021 [(.bpr, 0x3000)]))) =
      some { ready 0x8AF70021 [(.bpr, 0x9000), (.ret, 0x1004)] with
        saved := some ⟨.user, 0x3000⟩, pcx := 0x4000 } := by decide

/-- V-Y4, and a lookup that raises (R215). -/
theorem test_int_stops :
    refusalOf (step { ready 0x8AF70080 [] with saved := some ⟨.user, 0x3000⟩ }) =
      some .nestedInterrupt ∧
    faultOf (step (ready 0x8AF70022 [])) = some (.alignmentFault 0x1000 0x5089) := by decide

/-- V-Y3: the return goes to the current ret. -/
theorem test_irt :
    (nextOf (step { ready 0x8EF7B800 [(.ret, 0x1100), (.bpr, 0x9000)] with
      saved := some ⟨.user, 0x3000⟩ })).map
        (fun t => (t.pcx, t.get .bpr, t.get .ret, t.mode, t.saved)) =
      some (0x1100, 0x3000, 0x1100, .user, none) := by decide

/-- V-Y5. -/
theorem test_irt_unsaved :
    refusalOf (step (ready 0x8EF7B800 [])) = some .noSavedContext := by decide

/-- V-Y1, and the step after it (R28). -/
theorem test_hlt :
    nextOf (step (ready 0x92F7B800 [])) =
      some { ready 0x92F7B800 [] with pcx := 0x1004, halted := true } ∧
    faultOf (step { ready 0x92F7B800 [] with halted := true }) = some .halted := by decide

/-! ### Reset -/

/-- R31, R40: STS is 0 after reset; notes/assumptions/9.md: nothing is loaded, and the word 0 is no
instruction (V-X3). -/
theorem test_reset :
    State.reset.sts.toWord = 0 ∧ State.reset.mode = .kernel ∧ State.reset.saved = none ∧
    faultOf (step State.reset) = some (.illegalInstruction 0x1000) := by decide

/-- A loaded instruction runs as the first one after reset, MOVS with its open width too. -/
theorem test_first_instruction_runs :
    (nextOf (step (State.reset.withFetchWord 32 0x64011000))).isSome ∧
    (nextOf (step (State.reset.withFetchWord 32 0x08371000))).isSome := by decide

/-! ### Privilege, priority, fetching -/

/-- V-P1, V-P2 in Kernel mode. -/
theorem test_kernel_names_idr :
    result (ready 0x06970000 [(.idr, 0x5000)]) .rg0 = some (0x5000, false) ∧
    result (ready 0x0417A000 [(.rg0, 0x2000)]) .idr = some (0x2000, false) := by decide

/-- V-P1, V-P3, V-P8 in User mode. -/
theorem test_user_names_idr_mmr :
    faultOf (step (inUser (ready 0x06970000 []))) = some (.protectionFault 0x1000 (.cell .idr)) ∧
    faultOf (step (inUser (ready 0x2EF50100 []))) = some (.protectionFault 0x1000 (.cell .mmr)) ∧
    faultOf (step (inUser (ready 0x36F40000 []))) = some (.protectionFault 0x1000 (.cell .idr)) := by
  decide

/-- V-O3, V-O4. -/
theorem test_priority :
    faultOf (step (inUser (ready 0x0697B800 []))) = some (.illegalInstruction 0x1000) ∧
    faultOf (step (inUser (ready 0x1E800001 []))) = some (.protectionFault 0x1000 (.cell .idr)) := by
  decide

/-- V-O1, V-O2: a fetch at a PCX that is no multiple of 4, and one that is not accessible. -/
theorem test_fetch :
    faultOf (step { ready 0 [] with pcx := 0x200A }) = some (.alignmentFault 0x200A 0x200A) ∧
    faultOf (step { ready 0 [] with pcx := 0x2008 }) =
      some (.memoryAccessViolation 0x2008 0x2008) := by decide

/-- R30: `INC` on pcx raises, `MOV` from pcx is refused (the spec's own example). -/
theorem test_pcx_operand :
    faultOf (exec (.inc (.upper 0)) (withPcx (ready 0 []) 0)) =
      some (.protectionFault 0xFFC (.upper 0)) ∧
    refusalOf (exec (.mov (.upper 0) (.cell .rg0)) (withPcx (ready 0 []) 0)) =
      some (.pcxRead (.upper 0)) := by decide

/-- R29: after a fetch at 0xFFFFFFFC, PCX wraps to 0. -/
theorem test_pcx_wraps :
    pcxAfter ({ ready 0 [] with pcx := 0xFFFFFFFC }.putValue 0xFFFFFFFC 0x02F7B800 .word) = some 0 := by
  decide

/-- V-L23: an effective address wraps to 0. -/
theorem test_address_wraps :
    loaded ((ready 0x0C220001 [(.rg1, 0xFFFFFFFF)]).putByte 0 0x5A) .rg2 = some (0x5A, 0) := by decide

/-- A write of what an unlisted address reads as removes the entry. -/
theorem test_memory_canonical :
    Memory.write [(4, 1), (6, 2)] 4 0 = [(6, 2)] ∧ Memory.write [(4, 1), (6, 2)] 5 0 = [(4, 1), (6, 2)] ∧
    Memory.write [(4, 1), (6, 2)] 5 3 = [(4, 1), (5, 3), (6, 2)] := by decide

/-! ### Witnesses: a concrete case of every clause of each obligation with hypotheses -/

/-- The parameters of the witnesses that need every access allowed. -/
def openState (w : Word) (regs : List (Cell × Word)) : State :=
  { ready w regs with cfg := { testCfg .byte with access := [⟨0, 0xFFFFFFFF, none, none, none, true⟩] } }

theorem openState_accessible (w : Word) (regs : List (Cell × Word)) (m : Memory) (x : Word) (n : Size)
    (k : AccessKind) : { openState w regs with mem := m }.accessible x n k = true := by
  have h0 : 0#32 ≤ x := by bv_omega
  have h1 : x ≤ 4294967295#32 := by bv_omega
  simp [State.accessible, openState, ruleApplies, h0, h1]

theorem decode_encoded_opcode (i : Instr) : fieldOp (encode i) = i.opcode.num := by
  cases i <;> simp only [encode, Instr.opcode, fieldOp_rWord, fieldOp_iWord]

theorem witness_DecodeOfEncodeGivesInstruction :
    (Instr.jmp (.upper 7) 0x8000).wf (some 7) = true ∧
    (Instr.shlLit (.cell .mmr) 31).wf none = true ∧ (Instr.int 0xFF).wf none = true := by decide

theorem witness_DecodedInstructionEncodesToItsWord :
    decodeWord (some 7) 0x36FF8000 = .ok (.jmp (.upper 7) 0x8000) ∧
    decodeWord none 0x5C360800 = .ok (.shlReg (.cell .rg1) .zero) := by decide

theorem witness_OtherWordsRaiseIllegalInstruction :
    (ready 0xFFFFFFFF []).fetches = true ∧
    0xFFFFFFFF = wordOfBytes ((ready 0xFFFFFFFF []).byteAt 0x1000) ((ready 0xFFFFFFFF []).byteAt 0x1001)
      ((ready 0xFFFFFFFF []).byteAt 0x1002) ((ready 0xFFFFFFFF []).byteAt 0x1003) ∧
    ∀ i : Instr, i.wf none = true → encode i ≠ 0xFFFFFFFF := by
  refine ⟨by decide, by decide, fun i _ h => ?_⟩
  have ho := decode_encoded_opcode i
  rw [h] at ho
  cases hi : i.opcode <;> rw [hi] at ho <;> exact absurd ho (by decide)

theorem witness_ReservedOpcodesRaiseIllegalInstruction :
    ((ready 0x9C000000 []).fetches = true ∧
      0x27 ≤ ((ready 0x9C000000 []).byteAt ((ready 0x9C000000 []).pcx + 3)).toNat / 4) ∧
    ((ready 0xFFFFFFFF []).fetches = true ∧
      0x27 ≤ ((ready 0xFFFFFFFF []).byteAt ((ready 0xFFFFFFFF []).pcx + 3)).toNat / 4) := by decide

theorem witness_IllFormedOperandsRaiseIllegalInstruction :
    (Instr.mov (.cell .idr) .noreg).wf (inUser (ready 0 [])).cfg.pcxRegnum = false ∧
    (Instr.stw (.upper 1) .zero 0).wf (withPcx (ready 0 []) 0).cfg.pcxRegnum = false := by decide

theorem witness_NoregOperandRaisesIllegalInstruction :
    Reg.noreg ∈ (Instr.mov .noreg (.cell .idr)).regs ∧ Reg.noreg ∈ (Instr.shlReg .noreg .zero).regs ∧
    Reg.noreg ∈ (Instr.stb .noreg (.cell .rg0) 0xFFFF).regs ∧
    (ready 0x22E0FFFF []).fetches = true ∧
    encode (.stb .noreg (.cell .rg0) 0xFFFF) =
      wordOfBytes ((ready 0x22E0FFFF []).byteAt 0x1000) ((ready 0x22E0FFFF []).byteAt 0x1001)
        ((ready 0x22E0FFFF []).byteAt 0x1002) ((ready 0x22E0FFFF []).byteAt 0x1003) ∧
    decodeWord none 0x5C370800 = .ok (.shlLit (.cell .rg1) 0) := by decide

theorem witness_StepRunsDecodedInstruction :
    (ready 0x02F7B800 []).fetches = true ∧
    decodeBytes none [(ready 0x02F7B800 []).byteAt 0x1000, (ready 0x02F7B800 []).byteAt 0x1001,
      (ready 0x02F7B800 []).byteAt 0x1002, (ready 0x02F7B800 []).byteAt 0x1003] = .ok (.nop, []) := by
  decide

theorem witness_StoredInstructionRunsNext :
    Memory.wf (ready 0 []).mem = true ∧ (Instr.add .zero .zero .zero).wf none = true ∧
    ((ready 0 []).withFetchWord 32 (encode (.add .zero .zero .zero)).toNat).fetches = true := by decide

theorem witness_FetchRaisesAlignmentThenAccess :
    ((ready 0 []).halted = false ∧ { ready 0 [] with pcx := 0xFFFFFFFF }.pcx.toNat % 4 ≠ 0) ∧
    ({ ready 0 [] with pcx := 0x2008 }.pcx.toNat % 4 = 0 ∧
      { ready 0 [] with pcx := 0x2008 }.accessible 0x2008 .word .fetch = false) := by decide

theorem witness_NoStepAfterTheEnd :
    EndsAt 1 (ready 0x92F7B800 []) { ready 0x92F7B800 [] with pcx := 0x1004, halted := true } ∧
    EndsAt 0 { ready 0 [] with halted := true } { ready 0 [] with halted := true } :=
  ⟨⟨rfl, rfl⟩, rfl, rfl⟩

theorem witness_MovAndMovsCopy :
    ((ready 0 [(.rg1, 0x80)]).sourceValue (.cell .rg1) = some 0x80 ∧
      (ready 0 [(.rg1, 0x80)]).writable .zero = true ∧
      (ready 0 [(.rg1, 0x80)]).cfg.movsWidth = .byte) ∧
    ((inUser (ready 0 [])).sourceValue .zero = some 0 ∧
      (inUser (ready 0 [])).writable (.cell .ret) = true) ∧
    ({ ready 0 [] with cfg := testCfg .half }.sourceValue (.cell .mmr) = some 0 ∧
      { ready 0 [] with cfg := testCfg .half }.cfg.movsWidth = .half) := by decide

theorem witness_LoadsReadMemory :
    (ready 0 [(.rg1, 0x2000)]).sourceValue (.cell .rg1) = some 0x2000 ∧
    (ready 0 [(.rg1, 0x2000)]).writable (.cell .rg1) = true ∧
    (ready 0 [(.rg1, 0x2000)]).accessible (baseOffset 0x2000 7) .byte .read = true ∧
    ((baseOffset 0x2000 6).toNat % 2 = 0 ∧
      (ready 0 [(.rg1, 0x2000)]).accessible (baseOffset 0x2000 6) .half .read = true) ∧
    ((baseOffset 0x2000 4).toNat % 4 = 0 ∧
      (ready 0 [(.rg1, 0x2000)]).accessible (baseOffset 0x2000 4) .word .read = true) := by decide

theorem witness_StoresWriteMemory :
    Memory.wf (ready 0 [(.rg1, 0x2004)]).mem = true ∧
    (ready 0 [(.rg1, 0x2004)]).sourceValue .zero = some 0 ∧
    (ready 0 [(.rg1, 0x2004)]).sourceValue (.cell .rg1) = some 0x2004 ∧
    (ready 0 [(.rg1, 0x2004)]).accessible (baseOffset 0x2004 3) .byte .write = true ∧
    ((baseOffset 0x2004 2).toNat % 2 = 0 ∧
      (ready 0 [(.rg1, 0x2004)]).accessible (baseOffset 0x2004 2) .half .write = true) ∧
    ((baseOffset 0x2004 0xFFFC).toNat % 4 = 0 ∧
      (ready 0 [(.rg1, 0x2004)]).accessible (baseOffset 0x2004 0xFFFC) .word .write = true) := by decide

theorem witness_LliAndLuiLoadHalves :
    ((ready 0 [(.rg0, 0xFFFF0000)]).writable (.cell .rg0) = true ∧
      (ready 0 [(.rg0, 0xFFFF0000)]).sourceValue (.cell .rg0) = some 0xFFFF0000) ∧
    ((inUser (ready 0 [])).writable .zero = true ∧ (inUser (ready 0 [])).sourceValue .zero = some 0) := by
  decide

theorem witness_JumpsGoToBasePlusOffset :
    (withFlags (ready 0 [(.rgf, 4)]) 0x35).baseValue (.cell .rgf) = some 4 ∧
    (withFlags (ready 0 []) 0x06).baseValue .zero = some 0 ∧
    (withPcx (ready 0 []) 7).baseValue (.upper 7) = some 0x1000 ∧
    { ready 0 [] with flagsUnspecified := true }.baseValue .zero = some 0 := by decide

theorem witness_CmpSetsTheSixFlags :
    (ready 0 [(.rg0, 0x80000000)]).sourceValue (.cell .rg0) = some 0x80000000 ∧
    (ready 0 [(.rg0, 0x80000000)]).sourceValue .zero = some 0 := by decide

theorem witness_IncAndDecStepByOne :
    ((ready 0 [(.idr, 0xFFFFFFFF)]).sourceValue (.cell .idr) = some 0xFFFFFFFF ∧
      (ready 0 [(.idr, 0xFFFFFFFF)]).writable (.cell .idr) = true) ∧
    ((inUser (ready 0 [])).sourceValue .zero = some 0 ∧ (inUser (ready 0 [])).writable .zero = true) := by
  decide

theorem witness_AddAndSubCompute :
    (ready 0 [(.rg0, 0x80000000)]).sourceValue (.cell .rg0) = some 0x80000000 ∧
    (ready 0 [(.rg0, 0x80000000)]).sourceValue .zero = some 0 ∧
    (ready 0 [(.rg0, 0x80000000)]).writable (.cell .rg0) = true := by decide

theorem witness_IaddAndIsubCompute :
    (ready 0 [(.spr, 0x3008)]).sourceValue (.cell .spr) = some 0x3008 ∧
    (ready 0 [(.spr, 0x3008)]).writable (.cell .spr) = true := by decide

theorem witness_LogicalInstructionsCompute :
    (inUser (ready 0 [(.acc, 0xFF00FF00)])).sourceValue (.cell .acc) = some 0xFF00FF00 ∧
    (inUser (ready 0 [(.acc, 0xFF00FF00)])).sourceValue .zero = some 0 ∧
    (inUser (ready 0 [(.acc, 0xFF00FF00)])).writable .zero = true := by decide

theorem witness_ShiftsMoveBits :
    ((ready 0 [(.rg1, 3), (.rg2, 33)]).sourceValue (.cell .rg1) = some 3 ∧
      (ready 0 [(.rg1, 3), (.rg2, 33)]).writable (.cell .rg1) = true ∧
      (ready 0 [(.rg1, 3), (.rg2, 33)]).sourceValue (.cell .rg2) = some 33) ∧
    (ready 0 []).sourceValue .zero = some 0 ∧ (ready 0 []).writable .zero = true := by decide

theorem witness_IntEntersTheHandler :
    ((inUser (ready 0 [])).saved = none ∧ (inUser (ready 0 [])).TableReadable 0x21 ∧
      ((inUser (ready 0 [])).tableLookup 0x21).result = .handler 0x4000) ∧
    ((ready 0 []).saved = none ∧ (ready 0 []).TableReadable 0x24 ∧
      ((ready 0 []).tableLookup 0x24).result = .handler 0x4000) ∧
    ((ready 0 []).saved = none ∧ (ready 0 []).TableReadable 0xFF ∧
      ((ready 0 []).tableLookup 0xFF).result = .handler 0x6000) := by decide

theorem witness_IrtReturnsToTheSavedContext :
    { ready 0 [] with saved := some ⟨.user, 0x3000⟩ }.saved = some ⟨.user, 0x3000⟩ := by decide

theorem witness_LliThenLuiLoadsConstant :
    (inUser (ready 0 [])).reachable .ret = true ∧ (ready 0 []).reachable .idr = true := by decide

theorem witness_StatusWordAfterCmp :
    (∀ x : Word, (ready 0 [(.rg0, x)]).sourceValue (.cell .rg0) = some x ∧
      (ready 0 [(.rg0, x)]).sourceValue .zero = some 0 ∧
      exec (.cmp (.cell .rg0) .zero) (ready 0 [(.rg0, x)]) = .next ((ready 0 [(.rg0, x)]).setCmp x 0)) ∧
    (0x00000001 : Word).toInt > (0 : Word).toInt ∧ (0x80000000 : Word).toInt < (0 : Word).toInt :=
  ⟨fun _ => ⟨rfl, rfl, rfl⟩, by decide, by decide⟩

theorem witness_JumpsAfterCmpFollowSignedOrder :
    (∀ x : Word, (ready 0 [(.rg0, x)]).sourceValue (.cell .rg0) = some x ∧
      (ready 0 [(.rg0, x)]).sourceValue .zero = some 0 ∧
      exec (.cmp (.cell .rg0) .zero) (ready 0 [(.rg0, x)]) = .next ((ready 0 [(.rg0, x)]).setCmp x 0) ∧
      ((ready 0 [(.rg0, x)]).setCmp x 0).baseValue .zero = some 0) ∧
    (0xFFFFFFFF : Word).toInt < (0 : Word).toInt :=
  ⟨fun _ => ⟨rfl, rfl, rfl, rfl⟩, by decide⟩

theorem witness_StoredWordLoadsBack :
    Memory.wf (ready 0 [(.rg1, 0x2004)]).mem = true ∧
    (ready 0 [(.rg1, 0x2004)]).sourceValue (.cell .rg1) = some 0x2004 ∧
    (ready 0 [(.rg1, 0x2004)]).writable (.cell .rg1) = true ∧
    exec (.stw (.cell .rg1) (.cell .rg1) 0) (ready 0 [(.rg1, 0x2004)]) =
      .next ((ready 0 [(.rg1, 0x2004)]).putValue 0x2004 0x2004 .word) ∧
    ((ready 0 [(.rg1, 0x2004)]).putValue 0x2004 0x2004 .word).accessible (baseOffset 0x2004 0) .word
      .read = true :=
  ⟨by decide, by decide, by decide, rfl, by decide⟩

theorem witness_NarrowReadsSeeTheBytesOfAWordWrite :
    Memory.wf (openState 0 []).mem = true ∧
    (openState 0 []).memWrite 0xFFFFFFFC .word 0xAABBCCDD =
      .ok ((openState 0 []).putValue 0xFFFFFFFC 0xAABBCCDD .word) ∧
    ∀ x n, ((openState 0 []).putValue 0xFFFFFFFC 0xAABBCCDD .word).accessible x n .read = true :=
  ⟨by decide, rfl, fun x n => openState_accessible 0 [] _ x n .read⟩

theorem witness_IntThenIrtRestores :
    exec (.int 0x21) (inUser (ready 0 [])) = .next ((inUser (ready 0 [])).interruptEntry 0x4000) := rfl

theorem witness_RegisterReadByNumber :
    (Cell.ret.num = 0x13 ∧ (0x13 : BitVec 5).toNat ≤ 0x13) ∧
    (Cell.idr.num = 0x14 ∧ 0x14 ≤ (0x14 : BitVec 5).toNat ∧ Cell.mmr.num = 0x15 ∧
      (0x15 : BitVec 5).toNat ≤ 0x15) ∧
    (0x18 : BitVec 5).toNat = 0x18 + (0 : Fin 8).val ∧ (0x1F : BitVec 5).toNat = 0x18 + (7 : Fin 8).val := by
  decide

theorem witness_RegisterWriteByNumber :
    (Cell.ret.num = 0x13 ∧ (0x13 : BitVec 5).toNat ≤ 0x13) ∧
    (Cell.mmr.num = 0x15 ∧ (ready 0 []).mode = .kernel) ∧
    (Cell.idr.num = 0x14 ∧ 0x14 ≤ (0x14 : BitVec 5).toNat ∧ (inUser (ready 0 [])).mode = .user) ∧
    (0x1F : BitVec 5).toNat = 0x18 + (7 : Fin 8).val := by decide

theorem witness_MemWriteChecksThenStores :
    ((0x2003 : Word).toNat % Size.word.bytes ≠ 0 ∧ (0x2001 : Word).toNat % Size.half.bytes ≠ 0) ∧
    ((0x2008 : Word).toNat % Size.word.bytes = 0 ∧
      (ready 0 []).accessible 0x2008 .word .write = false) ∧
    ((0x2007 : Word).toNat % Size.byte.bytes = 0 ∧
      (ready 0 []).accessible 0x2007 .byte .write = true ∧ Memory.wf (ready 0 []).mem = true) := by decide

theorem witness_UserModeNamingIdrOrMmrFaults :
    (Instr.stw (.cell .idr) (.cell .mmr) 0).wf none = true ∧ (inUser (ready 0 [])).mode = .user ∧
    (Reg.cell .idr ∈ (Instr.stw (.cell .idr) (.cell .mmr) 0).regs) ∧
    (Reg.cell .mmr ∈ (Instr.lui 0 (.cell .mmr)).regs) := by decide

theorem witness_ProtectionFaultExactlyOnItsTriggers :
    ((Instr.mov .zero (.cell .idr)).wf (inUser (ready 0 [])).cfg.pcxRegnum = true ∧
      (inUser (ready 0 [])).mode = .user ∧ Reg.cell .idr ∈ (Instr.mov .zero (.cell .idr)).regs) ∧
    ((Instr.mov .zero (.upper 7)).wf (withPcx (ready 0 []) 7).cfg.pcxRegnum = true ∧
      destination (.mov .zero (.upper 7)) = some (.upper 7)) ∧
    (Instr.mov .zero .zero).wf none = true ∧ Reg.noreg ∈ (Instr.mov .noreg .zero).regs := by decide

theorem witness_WritingPcxFaults :
    (Instr.inc (.upper 7)).wf (withPcx (ready 0 []) 7).cfg.pcxRegnum = true ∧
    (withPcx (ready 0 []) 7).cfg.pcxRegnum = some 7 ∧
    destination (.inc (.upper 7)) = some (.upper 7) ∧
    ∀ c : Cell, .cell c ∈ (Instr.inc (.upper 7)).regs → (withPcx (ready 0 []) 7).reachable c = true := by
  refine ⟨by decide, by decide, by decide, fun c => ?_⟩
  cases c <;> decide

theorem witness_ReadingPcxElsewhereIsRefused :
    (Instr.stw (.upper 7) (.cell .rg1) 0).wf (withPcx (ready 0 [(.rg1, 0x2004)]) 7).cfg.pcxRegnum = true ∧
    (withPcx (ready 0 [(.rg1, 0x2004)]) 7).cfg.pcxRegnum = some 7 ∧
    Reg.upper 7 ∈ (Instr.stw (.upper 7) (.cell .rg1) 0).regs ∧
    isJump (.stw (.upper 7) (.cell .rg1) 0) = false ∧
    destination (.stw (.upper 7) (.cell .rg1) 0) ≠ some (.upper 7) ∧
    (∀ c : Cell, .cell c ∈ (Instr.stw (.upper 7) (.cell .rg1) 0).regs →
      (withPcx (ready 0 [(.rg1, 0x2004)]) 7).reachable c = true) ∧
    (∀ n base off b, dataAccess (.stw (.upper 7) (.cell .rg1) 0) = some (n, .write, base, off) →
      (withPcx (ready 0 [(.rg1, 0x2004)]) 7).sourceValue base = some b →
      (baseOffset b off).toNat % n.bytes = 0 ∧
        (withPcx (ready 0 [(.rg1, 0x2004)]) 7).accessible (baseOffset b off) n .write = true) := by
  refine ⟨by decide, by decide, by decide, by decide, by decide, fun c => ?_, fun n base off b h hb => ?_⟩
  · cases c <;> decide
  · cases h
    cases hb
    decide

theorem witness_MisalignedAccessesFault :
    (dataAccess (.ldh (.cell .rg1) .zero 1) = some (.half, .read, .cell .rg1, 1) ∧
      (∀ r ∈ (Instr.ldh (.cell .rg1) .zero 1).regs, (ready 0 [(.rg1, 0x2000)]).writable r = true) ∧
      (ready 0 [(.rg1, 0x2000)]).sourceValue (.cell .rg1) = some 0x2000 ∧
      (baseOffset 0x2000 1).toNat % Size.half.bytes ≠ 0) ∧
    (dataAccess (.stw .zero .zero 0xFFFD) = some (.word, .write, .zero, 0xFFFD) ∧
      (baseOffset 0 0xFFFD).toNat % Size.word.bytes ≠ 0) ∧
    dataAccess (.stb .zero .zero 1) = some (.byte, .write, .zero, 1) := by decide

theorem witness_InaccessibleAccessesFault :
    dataAccess (.stw .zero (.cell .rg1) 8) = some (.word, .write, .cell .rg1, 8) ∧
    (∀ r ∈ (Instr.stw .zero (.cell .rg1) 8).regs, (ready 0 [(.rg1, 0x2000)]).writable r = true) ∧
    (ready 0 [(.rg1, 0x2000)]).sourceValue (.cell .rg1) = some 0x2000 ∧
    (baseOffset 0x2000 8).toNat % Size.word.bytes = 0 ∧
    (ready 0 [(.rg1, 0x2000)]).accessible (baseOffset 0x2000 8) .word .write = false := by decide

theorem witness_StoreOfPcxRaisesItsAccessFirst :
    (withPcx (ready 0 []) 0).cfg.pcxRegnum = some 0 ∧
    (withPcx (ready 0 []) 0).sourceValue .zero = some 0 ∧
    (baseOffset 0 1).toNat % Size.half.bytes ≠ 0 ∧
    ((baseOffset 0 0x2008).toNat % Size.word.bytes = 0 ∧
      (withPcx (ready 0 []) 0).accessible (baseOffset 0 0x2008) .word .write = false) ∧
    (withPcx (ready 0 []) 0).accessible (baseOffset 0 0x2007) .byte .write = true := by decide

theorem witness_InstructionsRaiseOnlyTheirExceptions :
    exec (.mov .noreg .zero) (ready 0 []) = .fault (.illegalInstruction 0xFFC) ∧
    exec (.mov (.cell .idr) .zero) (inUser (ready 0 [])) = .fault (.protectionFault 0xFFC (.cell .idr)) ∧
    exec (.mov .zero (.upper 0)) (withPcx (ready 0 []) 0) = .fault (.protectionFault 0xFFC (.upper 0)) ∧
    exec (.int 0x22) (ready 0 []) = .fault (.alignmentFault 0xFFC 0x5089) ∧
    exec (.int 0x24) (inUser (ready 0 [])) = .fault (.memoryAccessViolation 0xFFC 0x5090) ∧
    exec (.ldh .zero .zero 1) (ready 0 []) = .fault (.alignmentFault 0xFFC 1) ∧
    exec (.stb .zero .zero 0x2008) (ready 0 []) = .fault (.memoryAccessViolation 0xFFC 0x2008) :=
  ⟨rfl, rfl, rfl, rfl, rfl, rfl, rfl⟩

theorem witness_FaultsReportTheInstructionAddress :
    step (ready 0 []) = .fault (.illegalInstruction 0x1000) ∧
    step { ready 0 [] with halted := true } = .fault .halted :=
  ⟨rfl, rfl⟩

theorem witness_IntRaisesWhatItsLookupRaises :
    ((inUser (ready 0 [])).saved = none ∧
      ((inUser (ready 0 [])).tableLookup 0x24).reads = [⟨0x5084, .word⟩] ++ ⟨0x5090, .word⟩ :: [] ∧
      (inUser (ready 0 [])).accessible 0x5084 .word .read = true ∧
      (inUser (ready 0 [])).accessible 0x5090 .word .read = false) ∧
    ((ready 0 []).saved = none ∧ (ready 0 []).TableReadable 0x22 ∧
      ((ready 0 []).tableLookup 0x22).result = .alignmentFault 0x5089) ∧
    ((ready 0 []).TableReadable 0x23 ∧
      ((ready 0 []).tableLookup 0x23).result = .memoryAccessViolation 0x508C) := by decide

theorem witness_NestedIntAndBareIrtAreRefused :
    { ready 0 [] with saved := some ⟨.kernel, 0⟩ }.saved.isSome = true ∧ (ready 0 []).saved = none := by
  decide

theorem witness_OnlyDestinationsChange :
    exec (.lli 5 (.cell .rg0)) (ready 0 []) = .next ((ready 0 []).set .rg0 5) ∧
    ((ready 0 []).set .rg0 5).get .rg0 ≠ (ready 0 []).get .rg0 ∧
    exec (.int 0x21) (ready 0 []) = .next ((ready 0 []).interruptEntry 0x4000) ∧
    ((ready 0 []).interruptEntry 0x4000).get .bpr ≠ (ready 0 []).get .bpr :=
  ⟨rfl, by decide, rfl, by decide⟩

theorem witness_MemoryChangesOnlyWhereStored :
    exec (.sth .zero .zero 0x2000) (ready 0 []) = .next ((ready 0 []).putValue 0x2000 0 .half) ∧
    ∀ n base off b, dataAccess (.sth .zero .zero 0x2000) = some (n, .write, base, off) →
      (ready 0 []).sourceValue base = some b →
      ∀ k < n.bytes, (0x2002 : Word) ≠ baseOffset b off + BitVec.ofNat 32 k := by
  refine ⟨rfl, fun n base off b h hb => ?_⟩
  cases h
  cases hb
  decide

theorem witness_OnlyFlagWritersChangeSts :
    exec (.lli 5 (.cell .rg0)) (ready 0 []) = .next ((ready 0 []).set .rg0 5) ∧
    writesFlags (.lli 5 (.cell .rg0)) = false ∧
    exec (.cmp .zero .zero) (ready 0 []) = .next ((ready 0 []).setCmp 0 0) ∧
    writesFlags (.cmp .zero .zero) = true :=
  ⟨rfl, rfl, rfl, rfl⟩

theorem witness_ControlStateChangesOnlyByItsInstructions :
    exec (.lli 5 (.cell .rg0)) (ready 0 []) = .next ((ready 0 []).set .rg0 5) ∧
    isJump (.lli 5 (.cell .rg0)) = false ∧ isInt (.lli 5 (.cell .rg0)) = false ∧
    Instr.lli 5 (.cell .rg0) ≠ .irt ∧ Instr.lli 5 (.cell .rg0) ≠ .hlt :=
  ⟨rfl, by decide, by decide, by decide, by decide⟩

theorem witness_StepKeepsTheInvariant :
    (inUser (ready 0x8AF70021 [])).Inv ∧
    step (inUser (ready 0x8AF70021 [])) =
      .next ({ inUser (ready 0x8AF70021 []) with pcx := 0x1004 }.interruptEntry 0x4000) :=
  ⟨⟨by decide, by decide, by decide⟩, rfl⟩

theorem witness_ResetHasTheInvariant : Memory.wf testData = true := by decide

theorem witness_UserModeCannotChangeIdrOrMmr :
    (inUser (ready 0x02F7B800 [])).mode = .user ∧
    step (inUser (ready 0x02F7B800 [])) = .next { inUser (ready 0x02F7B800 []) with pcx := 0x1004 } :=
  ⟨rfl, rfl⟩

theorem witness_UserModeIsLeftOnlyByInt :
    (inUser (ready 0x8AF70021 [])).Inv ∧ (inUser (ready 0x8AF70021 [])).mode = .user ∧
    step (inUser (ready 0x8AF70021 [])) =
      .next ({ inUser (ready 0x8AF70021 []) with pcx := 0x1004 }.interruptEntry 0x4000) ∧
    ({ inUser (ready 0x8AF70021 []) with pcx := 0x1004 }.interruptEntry 0x4000).mode = .kernel :=
  ⟨⟨by decide, by decide, by decide⟩, rfl, rfl, rfl⟩

theorem witness_UserModeCannotReadIdr :
    (inUser (ready 0x02F7B800 [])).mode = .user ∧
    ∀ code, (inUser (ready 0x02F7B800 [])).current ≠ some (.int code) := by
  refine ⟨rfl, fun code h => ?_⟩
  have hc : (inUser (ready 0x02F7B800 [])).current = some .nop := by decide
  rw [hc] at h
  cases h

theorem witness_UnreadFlagsAreUnobservable :
    AgreeButUnreadFlags (withFlags (ready 0x02F7B800 []) 0x00) (withFlags (ready 0x02F7B800 []) 0x34) ∧
    (withFlags (ready 0x02F7B800 []) 0x00).cfg.kernelStack.isSome = true :=
  ⟨rfl, rfl⟩

theorem witness_OnlyConditionalJumpsReadSts :
    (isJump (.jmp .zero 0) = true → ∃ base off, Instr.jmp .zero 0 = .jmp base off) ∧
    (isJump .irt = true → ∃ base off, Instr.irt = .jmp base off) ∧
    (ready 0 []).cfg.kernelStack.isSome = true :=
  ⟨fun _ => ⟨.zero, 0, rfl⟩, fun h => absurd h (by decide), rfl⟩

end Sys2Proof.Tests
end

section
/-! The checks of a memory access, `MemWrite`, and the loads and stores whose access stops
(20_memory.md R55, R57). -/

namespace Sys2Proof.Machine

/-! ### The three answers of `checkAccess` -/

theorem aligned_iff {a : Word} {n : Size} : aligned a n = true ↔ a.toNat % n.bytes = 0 :=
  decide_eq_true_iff

theorem checkAccess_of_misaligned {s : State} {a : Word} {n : Size} (k : AccessKind)
    (h : a.toNat % n.bytes ≠ 0) : s.checkAccess a n k = .error (.raise (.alignmentFault a)) := by
  rw [State.checkAccess, if_neg (mt aligned_iff.mp h)]

theorem checkAccess_of_inaccessible {s : State} {a : Word} {n : Size} {k : AccessKind}
    (ha : a.toNat % n.bytes = 0) (h : s.accessible a n k = false) :
    s.checkAccess a n k = .error (.raise (.memoryAccessViolation a)) := by
  rw [State.checkAccess, if_pos (aligned_iff.mpr ha), if_neg (by simp [h])]

theorem checkAccess_of_accessible {s : State} {a : Word} {n : Size} {k : AccessKind}
    (ha : a.toNat % n.bytes = 0) (h : s.accessible a n k = true) : s.checkAccess a n k = .ok () :=
  checkAccess_ok_iff.mpr ⟨aligned_iff.mpr ha, h⟩

/-! ### `MemWrite` -/

theorem memWrite_of_checkAccess_error {s : State} {a : Word} {n : Size} {e : Stop} (v : Word)
    (h : s.checkAccess a n .write = .error e) : s.memWrite a n v = .error e := by
  rw [State.memWrite, h, error_bind]

theorem storedOnly_putValue {s : State} (a v : Word) (n : Size) (h : Memory.wf s.mem = true) :
    StoredOnly s (s.putValue a v n) a n v := by
  have hcells : SameCells s (s.putValue a v n) := fun c => by
    rw [State.get_def, State.putValue_regs, State.get_def]
  exact ⟨State.byteAt_putValue a v n h, fun _ => State.byteAt_putValue_ne s v n, hcells,
    ⟨by simp, by simp⟩, by simp, by simp, by simp, by simp, by simp⟩

/-- Settles O35: the three answers of `checkAccess`, the last followed by `putValue`. -/
theorem memWriteChecksThenStores : Obligations.MemWriteChecksThenStores := by
  intro s a v n
  refine ⟨fun hmis => ?_, fun hal hacc => ?_, fun hal hacc hwf => ?_⟩
  · exact memWrite_of_checkAccess_error v (checkAccess_of_misaligned .write hmis)
  · exact memWrite_of_checkAccess_error v (checkAccess_of_inaccessible hal hacc)
  · exact ⟨s.putValue a v n, memWrite_of_checked v (checkAccess_of_accessible hal hacc),
      storedOnly_putValue a v n hwf⟩

/-! ### Usable register fields pass the checks of the model -/

theorem mayName_eq_reachable (s : State) (c : Cell) : s.mayName c = s.reachable c := by
  unfold State.mayName State.reachable
  cases s.mode <;> cases c <;> rfl

theorem legal_of_writable {s : State} {r : Reg} (h : s.writable r = true) :
    r.legal s.cfg.pcxRegnum = true := by
  cases r with
  | cell c => rfl
  | zero => rfl
  | noreg => cases h
  | upper k => cases h

theorem protects_of_writable {s : State} {r : Reg} (u : Use) (h : s.writable r = true) :
    s.protects u r = false := by
  cases r with
  | cell c =>
    have hc : s.mayName c = true := (mayName_eq_reachable s c).trans h
    simp [State.protects, hc]
  | zero => rfl
  | noreg => cases h
  | upper k => cases h

theorem checkFields_of_writable {s : State} {fs : List (Use × Reg)}
    (h : ∀ r ∈ fs.map Prod.snd, s.writable r = true) : s.checkFields fs = .ok () :=
  checkFields_ok_iff.mpr fun f hf =>
    have hw := h f.2 (List.mem_map_of_mem hf)
    ⟨legal_of_writable hw, protects_of_writable f.1 hw⟩

theorem readReg_of_sourceValue {s : State} {r : Reg} {v : Word} (h : s.sourceValue r = some v) :
    s.readReg .other r = .ok v := by
  rw [readReg_ok_iff]
  cases r with
  | cell c =>
    obtain ⟨hc, hv⟩ : s.reachable c = true ∧ s.get c = v := by simpa [State.sourceValue] using h
    exact .inl ⟨c, rfl, (mayName_eq_reachable s c).trans hc, hv.symm⟩
  | zero => exact .inr (.inl ⟨rfl, (Option.some.inj h).symm⟩)
  | noreg => cases h
  | upper k => cases h

theorem readReg_of_writable {s : State} {r : Reg} (h : s.writable r = true) :
    ∃ v, s.readReg .other r = .ok v := by
  cases r with
  | cell c =>
    have hc : s.reachable c = true := h
    exact ⟨s.get c, readReg_of_sourceValue (by rw [State.sourceValue, if_pos hc])⟩
  | zero => exact ⟨0, rfl⟩
  | noreg => cases h
  | upper k => cases h

/-! ### Loads and stores whose access stops -/

theorem loadOp_of_checkAccess_error {n : Size} {ext : Word → Word} {base dst : Reg}
    {off : BitVec 16} {s : State} {b : Word} {e : Stop}
    (h : s.checkFields [(.source, base), (.destination, dst)] = .ok ())
    (hb : s.readReg .other base = .ok b)
    (he : s.checkAccess (baseOffset b off) n .read = .error e) :
    loadOp n ext base dst off s = outcome s.instrAddr (.error e) := by
  simp only [loadOp, h, hb, ok_bind, State.memRead, he, error_bind]

theorem storeOp_of_checkAccess_error {n : Size} {src base : Reg} {off : BitVec 16} {s : State}
    {b : Word} {e : Stop} (h : s.checkFields [(.source, src), (.source, base)] = .ok ())
    (hb : s.readReg .other base = .ok b)
    (he : s.checkAccess (baseOffset b off) n .write = .error e) :
    storeOp n src base off s = outcome s.instrAddr (.error e) := by
  simp only [storeOp, h, hb, ok_bind, he, error_bind]

/-- An instruction with a data access is a load from `base` or a store to `base` (R120, R126). -/
theorem exec_of_dataAccess {i : Instr} {n : Size} {kind : AccessKind} {base : Reg}
    {off : BitVec 16} (s : State) (h : dataAccess i = some (n, kind, base, off)) :
    (∃ ext dst, kind = .read ∧ i.regs = [base, dst] ∧ exec i s = loadOp n ext base dst off s) ∨
    (∃ src, kind = .write ∧ i.regs = [src, base] ∧ exec i s = storeOp n src base off s) := by
  cases i with
  | ldb b d o => cases h; exact .inl ⟨zextLow8, d, rfl, rfl, rfl⟩
  | ldbs b d o => cases h; exact .inl ⟨sextLow8, d, rfl, rfl, rfl⟩
  | ldh b d o => cases h; exact .inl ⟨zextLow16, d, rfl, rfl, rfl⟩
  | ldhs b d o => cases h; exact .inl ⟨sextLow16, d, rfl, rfl, rfl⟩
  | ldw b d o => cases h; exact .inl ⟨fun v => v, d, rfl, rfl, rfl⟩
  | stb a b o => cases h; exact .inr ⟨a, rfl, rfl, rfl⟩
  | sth a b o => cases h; exact .inr ⟨a, rfl, rfl, rfl⟩
  | stw a b o => cases h; exact .inr ⟨a, rfl, rfl, rfl⟩
  | _ => cases h

section
variable {i : Instr} {s : State} {n : Size} {kind : AccessKind} {base : Reg} {off : BitVec 16}
  {b : Word}

/-- With usable registers a load or store whose access stops, stops as its access does. -/
theorem exec_of_checkAccess_error {e : Stop} (hd : dataAccess i = some (n, kind, base, off))
    (hw : ∀ r ∈ i.regs, s.writable r = true) (hb : s.sourceValue base = some b)
    (he : s.checkAccess (baseOffset b off) n kind = .error e) :
    exec i s = outcome s.instrAddr (.error e) := by
  have hread := readReg_of_sourceValue hb
  rcases exec_of_dataAccess s hd with ⟨ext, dst, rfl, hregs, hexec⟩ | ⟨src, rfl, hregs, hexec⟩
  · rw [hregs] at hw
    exact hexec.trans (loadOp_of_checkAccess_error (checkFields_of_writable hw) hread he)
  · rw [hregs] at hw
    exact hexec.trans (storeOp_of_checkAccess_error (checkFields_of_writable hw) hread he)

/-- With usable registers a load or store whose access passes its checks completes. -/
theorem exec_next_of_checkAccess_ok (hd : dataAccess i = some (n, kind, base, off))
    (hw : ∀ r ∈ i.regs, s.writable r = true) (hb : s.sourceValue base = some b)
    (ha : s.checkAccess (baseOffset b off) n kind = .ok ()) : ∃ t, exec i s = .next t := by
  have hread := readReg_of_sourceValue hb
  rcases exec_of_dataAccess s hd with ⟨ext, dst, rfl, hregs, hexec⟩ | ⟨src, rfl, hregs, hexec⟩
  · rw [hregs] at hw
    exact ⟨_, hexec.trans (loadOp_of_checked (checkFields_of_writable hw) hread ha)⟩
  · rw [hregs] at hw
    obtain ⟨v, hv⟩ := readReg_of_writable (hw src List.mem_cons_self)
    exact ⟨_, hexec.trans (storeOp_of_checked (checkFields_of_writable hw) hread ha hv)⟩

end

/-- Settles O41: a misaligned address fails the first check of the access; every address is aligned
for a byte, so a byte access can only complete or raise `MemoryAccessViolation`. -/
theorem misalignedAccessesFault : Obligations.MisalignedAccessesFault := by
  intro i s n kind base off b hd hw hb
  refine ⟨fun hmis => ?_, ?_⟩
  · exact exec_of_checkAccess_error hd hw hb (checkAccess_of_misaligned kind hmis)
  · rintro rfl x y hfault
    have hal : (baseOffset b off).toNat % Size.byte.bytes = 0 := Nat.mod_one _
    cases hacc : s.accessible (baseOffset b off) .byte kind with
    | true =>
      obtain ⟨t, ht⟩ := exec_next_of_checkAccess_ok hd hw hb (checkAccess_of_accessible hal hacc)
      cases ht.symm.trans hfault
    | false =>
      have hviol := exec_of_checkAccess_error hd hw hb (checkAccess_of_inaccessible hal hacc)
      cases hviol.symm.trans hfault

end Sys2Proof.Machine
end

section
/-! A register field that is used and names no register: the decoder refuses its word and `exec` raises
`IllegalInstruction` before any other check (30_encoding.md R89; 60_exceptions.md R236). -/

namespace Sys2Proof

/-! ### Legal registers -/

theorem wf_iff_legal {p : Option (Fin 8)} {i : Instr} :
    i.wf p = true ↔ ∀ r ∈ i.regs, r.legal p = true :=
  List.all_eq_true

theorem noreg_notMem_regs_of_wf {p : Option (Fin 8)} {i : Instr} (h : i.wf p = true) :
    .noreg ∉ i.regs :=
  fun hm => Bool.false_ne_true (wf_iff_legal.mp h .noreg hm)

theorem legal_of_usedReg {p : Option (Fin 8)} {n : BitVec 5} {r : Reg} (h : usedReg p n = .ok r) :
    r.legal p = true :=
  (usedReg_ok_iff.mp h).1

theorem legal_of_usedReg_num {p : Option (Fin 8)} {q r : Reg} (h : usedReg p r.num = .ok q) :
    r.legal p = true := by
  obtain ⟨hl, hn⟩ := usedReg_ok_iff.mp h
  rwa [← Reg.num_inj.mp hn]

/-! ### The used fields of a word that decodes, format by format -/

section formats
variable {p : Option (Fin 8)} {w : Word} {i : Instr}

theorem decode_bind_ok_iff {α β : Type} {x : Except DecodeError α} {f : α → Except DecodeError β}
    {b : β} : (x >>= f) = .ok b ↔ ∃ a, x = .ok a ∧ f a = .ok b := by
  cases x with
  | ok a => exact ⟨fun h => ⟨a, rfl, h⟩, fun ⟨_, e, h⟩ => by cases e; exact h⟩
  | error e => exact ⟨fun h => (nomatch h), fun ⟨_, e', _⟩ => (nomatch e')⟩

theorem decodeR0_ok {j : Instr} (h : decodeR0 j w = .ok i) : i = j := by
  simp only [decodeR0, decode_bind_ok_iff] at h
  obtain ⟨_, -, _, -, _, -, _, -, _, -, h⟩ := h
  exact (Except.ok.inj h).symm

theorem decodeR2_ok {mk : Reg → Reg → Instr} (h : decodeR2 p mk w = .ok i) :
    ∃ a d, usedReg p (fieldA w) = .ok a ∧ usedReg p (fieldD w) = .ok d ∧ i = mk a d := by
  simp only [decodeR2, decode_bind_ok_iff] at h
  obtain ⟨_, -, _, -, _, -, a, ha, d, hd, h⟩ := h
  exact ⟨a, d, ha, hd, (Except.ok.inj h).symm⟩

theorem decodeR3_ok {mk : Reg → Reg → Reg → Instr} (h : decodeR3 p mk w = .ok i) :
    ∃ a b d, usedReg p (fieldA w) = .ok a ∧ usedReg p (fieldB w) = .ok b ∧
      usedReg p (fieldD w) = .ok d ∧ i = mk a b d := by
  simp only [decodeR3, decode_bind_ok_iff] at h
  obtain ⟨_, -, _, -, a, ha, b, hb, d, hd, h⟩ := h
  exact ⟨a, b, d, ha, hb, hd, (Except.ok.inj h).symm⟩

theorem decodeCmp_ok (h : decodeCmp p w = .ok i) :
    ∃ a b, usedReg p (fieldA w) = .ok a ∧ usedReg p (fieldB w) = .ok b ∧ i = .cmp a b := by
  simp only [decodeCmp, decode_bind_ok_iff] at h
  obtain ⟨_, -, _, -, _, -, a, ha, b, hb, h⟩ := h
  exact ⟨a, b, ha, hb, (Except.ok.inj h).symm⟩

theorem sameReg_ok {r : Reg} (h : sameReg p w = .ok r) : usedReg p (fieldA w) = .ok r := by
  unfold sameReg at h
  split at h
  · exact h
  · cases h

theorem decodeR1_ok {mk : Reg → Instr} (h : decodeR1 p mk w = .ok i) :
    ∃ r, usedReg p (fieldA w) = .ok r ∧ i = mk r := by
  simp only [decodeR1, decode_bind_ok_iff] at h
  obtain ⟨_, -, _, -, _, -, r, hr, h⟩ := h
  exact ⟨r, sameReg_ok hr, (Except.ok.inj h).symm⟩

/-- A shift whose count field holds the number of noreg is the literal form, any other the register
form (R93). -/
theorem decodeShift_ok {mkLit : Reg → BitVec 5 → Instr} {mkReg : Reg → Reg → Instr}
    (h : decodeShift p mkLit mkReg w = .ok i) :
    ∃ r, usedReg p (fieldA w) = .ok r ∧
      (fieldB w = 0x17 ∧ i = mkLit r (fieldSh w) ∨
        fieldB w ≠ 0x17 ∧ ∃ n, usedReg p (fieldB w) = .ok n ∧ i = mkReg r n) := by
  simp only [decodeShift, decode_bind_ok_iff] at h
  obtain ⟨_, -, r, hr, h⟩ := h
  refine ⟨r, sameReg_ok hr, ?_⟩
  split at h
  next hlit => exact .inl ⟨hlit, (Except.ok.inj h).symm⟩
  next hreg =>
    simp only [decode_bind_ok_iff] at h
    obtain ⟨_, -, n, hn, h⟩ := h
    exact .inr ⟨hreg, n, hn, (Except.ok.inj h).symm⟩

theorem decodeI2_ok {mk : Reg → Reg → BitVec 16 → Instr} (h : decodeI2 p mk w = .ok i) :
    ∃ a d, usedReg p (fieldA w) = .ok a ∧ usedReg p (fieldB w) = .ok d ∧
      i = mk a d (fieldImm w) := by
  simp only [decodeI2, decode_bind_ok_iff] at h
  obtain ⟨a, ha, d, hd, h⟩ := h
  exact ⟨a, d, ha, hd, (Except.ok.inj h).symm⟩

theorem decodeI1_ok {mk : Reg → BitVec 16 → Instr} (h : decodeI1 p mk w = .ok i) :
    ∃ d, usedReg p (fieldB w) = .ok d ∧ i = mk d (fieldImm w) := by
  simp only [decodeI1, decode_bind_ok_iff] at h
  obtain ⟨_, -, d, hd, h⟩ := h
  exact ⟨d, hd, (Except.ok.inj h).symm⟩

theorem decodeInt_ok (h : decodeInt w = .ok i) : i = .int (w.extractLsb' 0 8) := by
  simp only [decodeInt, decode_bind_ok_iff] at h
  obtain ⟨_, -, _, -, h⟩ := h
  split at h
  · exact (Except.ok.inj h).symm
  · cases h

end formats

/-! ### What decodes is well formed -/

/-- Every instruction the decoder answers names legal registers only. -/
theorem wf_of_decodeWord {p : Option (Fin 8)} {w : Word} {i : Instr} (h : decodeWord p w = .ok i) :
    i.wf p = true := by
  rw [wf_iff_legal]
  cases hop : Opcode.ofNum (fieldOp w) with
  | none => rw [decodeWord, hop] at h; cases h
  | some op =>
    rw [decodeWord, hop] at h
    cases op with
    | nop | irt | hlt => rw [decodeR0_ok h]; simp [Instr.regs]
    | int => rw [decodeInt_ok h]; simp [Instr.regs]
    | mov | movs | not =>
      obtain ⟨a, d, ha, hd, rfl⟩ := decodeR2_ok h
      simp [Instr.regs, legal_of_usedReg ha, legal_of_usedReg hd]
    | add | sub | and | or | xor | nand | nor | xnor =>
      obtain ⟨a, b, d, ha, hb, hd, rfl⟩ := decodeR3_ok h
      simp [Instr.regs, legal_of_usedReg ha, legal_of_usedReg hb, legal_of_usedReg hd]
    | cmp =>
      obtain ⟨a, b, ha, hb, rfl⟩ := decodeCmp_ok h
      simp [Instr.regs, legal_of_usedReg ha, legal_of_usedReg hb]
    | inc | dec =>
      obtain ⟨r, hr, rfl⟩ := decodeR1_ok h
      simp [Instr.regs, legal_of_usedReg hr]
    | shl | shr =>
      obtain ⟨r, hr, ⟨-, rfl⟩ | ⟨-, n, hn, rfl⟩⟩ := decodeShift_ok h
      · simp [Instr.regs, legal_of_usedReg hr]
      · simp [Instr.regs, legal_of_usedReg hr, legal_of_usedReg hn]
    | ldb | ldbs | ldh | ldhs | ldw | stb | sth | stw | iadd | isub =>
      obtain ⟨a, d, ha, hd, rfl⟩ := decodeI2_ok h
      simp [Instr.regs, legal_of_usedReg ha, legal_of_usedReg hd]
    | lli | lui | jmp | jeq | jne | jgt | jge | jlt | jle =>
      obtain ⟨d, hd, rfl⟩ := decodeI1_ok h
      simp [Instr.regs, legal_of_usedReg hd]

theorem ofNum_fieldOp_encode (i : Instr) : Opcode.ofNum (fieldOp (encode i)) = some i.opcode := by
  cases i <;> simp only [encode, Instr.opcode, fieldOp_rWord, fieldOp_iWord, Opcode.ofNum_num]

/-- The word of an instruction decodes only where the instruction is well formed; a shift that counts
by noreg has the word of a literal shift (R93). -/
theorem wf_of_decodeWord_encode {p : Option (Fin 8)} {i j : Instr}
    (hshl : ∀ r, i ≠ .shlReg r .noreg) (hshr : ∀ r, i ≠ .shrReg r .noreg)
    (h : decodeWord p (encode i) = .ok j) : i.wf p = true := by
  rw [wf_iff_legal]
  rw [decodeWord, ofNum_fieldOp_encode] at h
  cases i with
  | nop | int | irt | hlt => simp [Instr.regs]
  | mov a d | movs a d | not a d =>
    obtain ⟨_, _, ha, hd, -⟩ := decodeR2_ok h
    simp only [encode, fieldA_rWord, fieldD_rWord] at ha hd
    simp [Instr.regs, legal_of_usedReg_num ha, legal_of_usedReg_num hd]
  | add a b d | sub a b d | and a b d | or a b d | xor a b d | nand a b d | nor a b d | xnor a b d =>
    obtain ⟨_, _, _, ha, hb, hd, -⟩ := decodeR3_ok h
    simp only [encode, fieldA_rWord, fieldB_rWord, fieldD_rWord] at ha hb hd
    simp [Instr.regs, legal_of_usedReg_num ha, legal_of_usedReg_num hb, legal_of_usedReg_num hd]
  | cmp a b =>
    obtain ⟨_, _, ha, hb, -⟩ := decodeCmp_ok h
    simp only [encode, fieldA_rWord, fieldB_rWord] at ha hb
    simp [Instr.regs, legal_of_usedReg_num ha, legal_of_usedReg_num hb]
  | inc r | dec r =>
    obtain ⟨_, hr, -⟩ := decodeR1_ok h
    simp only [encode, fieldA_rWord] at hr
    simp [Instr.regs, legal_of_usedReg_num hr]
  | shlLit r _ | shrLit r _ =>
    obtain ⟨_, hr, -⟩ := decodeShift_ok h
    simp only [encode, fieldA_rWord] at hr
    simp [Instr.regs, legal_of_usedReg_num hr]
  | shlReg r n | shrReg r n =>
    have hn : n ≠ .noreg := by rintro rfl; simp at hshl hshr
    obtain ⟨_, hr, ⟨hlit, -⟩ | ⟨-, _, hc, -⟩⟩ := decodeShift_ok h
    · simp only [encode, fieldB_rWord] at hlit
      have hnum : n.num = Reg.noreg.num := hlit
      exact absurd (Reg.num_inj.mp hnum) hn
    · simp only [encode, fieldA_rWord, fieldB_rWord] at hr hc
      simp [Instr.regs, legal_of_usedReg_num hr, legal_of_usedReg_num hc]
  | ldb a d _ | ldbs a d _ | ldh a d _ | ldhs a d _ | ldw a d _ | stb a d _ | sth a d _ | stw a d _
  | iadd a _ d | isub a _ d =>
    obtain ⟨_, _, ha, hd, -⟩ := decodeI2_ok h
    simp only [encode, fieldA_iWord, fieldB_iWord] at ha hd
    simp [Instr.regs, legal_of_usedReg_num ha, legal_of_usedReg_num hd]
  | lli _ d | lui _ d | jmp d _ | jeq d _ | jne d _ | jgt d _ | jge d _ | jlt d _ | jle d _ =>
    obtain ⟨_, hd, -⟩ := decodeI1_ok h
    simp only [encode, fieldB_iWord] at hd
    simp [Instr.regs, legal_of_usedReg_num hd]

end Sys2Proof

namespace Sys2Proof.Machine

/-! ### An illegal field at `exec` -/

theorem checkFields_of_illegal {s : State} {fs : List (Use × Reg)} {r : Reg}
    (hr : r ∈ fs.map Prod.snd) (hl : r.legal s.cfg.pcxRegnum = false) :
    s.checkFields fs = .error (.raise .illegalInstruction) := by
  obtain ⟨f, hf, rfl⟩ := List.mem_map.mp hr
  have hall : ¬ fs.all (fun f => f.2.legal s.cfg.pcxRegnum) = true := fun h =>
    Bool.false_ne_true (hl.symm.trans (List.all_eq_true.mp h f hf))
  rw [State.checkFields, if_neg hall]

/-- An instruction that uses a register field is of one of the shapes of operation, and each of them
first checks all the fields it uses (R236). -/
theorem exec_checks_fields_first {i : Instr} (s : State) (h : i.regs ≠ []) :
    ∃ fs k, i.regs ⊆ fs.map Prod.snd ∧ exec i s = outcome s.instrAddr (s.checkFields fs >>= k) := by
  cases i with
  | nop | int | irt | hlt => exact absurd rfl h
  | _ => exact ⟨_, _, by simp [Instr.regs], rfl⟩

theorem exec_of_illegal {i : Instr} {s : State} {r : Reg} (hr : r ∈ i.regs)
    (hl : r.legal s.cfg.pcxRegnum = false) :
    exec i s = .fault (.illegalInstruction (s.pcx - 4)) := by
  obtain ⟨fs, k, hsub, hexec⟩ := exec_checks_fields_first s (List.ne_nil_of_mem hr)
  rw [hexec, checkFields_of_illegal (hsub hr) hl]
  rfl

/-! ### A word that does not decode at the step -/

theorem fetches_iff {s : State} : s.fetches = true ↔
    s.halted = false ∧ s.pcx.toNat % 4 = 0 ∧ s.accessible s.pcx .word .fetch = true := by
  simp only [State.fetches, Bool.and_eq_true, Bool.not_eq_true', decide_eq_true_eq, and_assoc]

theorem fetch_of_fetches {s : State} (h : s.fetches = true) :
    s.fetch = .ok (wordOfBytes (s.byteAt s.pcx) (s.byteAt (s.pcx + 1)) (s.byteAt (s.pcx + 2))
      (s.byteAt (s.pcx + 3))) := by
  obtain ⟨-, hal, hacc⟩ := fetches_iff.mp h
  exact memRead_of_checked (checkAccess_of_accessible hal hacc)

theorem step_of_decode_error {s : State} {e : DecodeError} (hf : s.fetches = true)
    (hd : decodeWord s.cfg.pcxRegnum (wordOfBytes (s.byteAt s.pcx) (s.byteAt (s.pcx + 1))
      (s.byteAt (s.pcx + 2)) (s.byteAt (s.pcx + 3))) = .error e) :
    step s = .fault (.illegalInstruction s.pcx) := by
  obtain ⟨hh, -, -⟩ := fetches_iff.mp hf
  rw [step, if_neg (by simp [hh]), fetch_of_fetches hf]
  simp only [hd, raiseException, Exc.toFault]

/-- Settles O8: noreg is legal under no `PCX_REGNUM`, so the check of the fields refuses the
instruction, and neither its own word nor any other decodes to an instruction that names it. -/
theorem noregOperandRaisesIllegalInstruction : Obligations.NoregOperandRaisesIllegalInstruction := by
  refine ⟨fun i s hm => exec_of_illegal hm rfl, fun i s hm hshl hshr hf hw => ?_,
    fun p w i h => noreg_notMem_regs_of_wf (wf_of_decodeWord h)⟩
  cases hd : decodeWord s.cfg.pcxRegnum (encode i) with
  | error e => exact step_of_decode_error hf (hw ▸ hd)
  | ok j => exact absurd hm (noreg_notMem_regs_of_wf (wf_of_decodeWord_encode hshl hshr hd))

end Sys2Proof.Machine
end

section
/-! What a `ProtectionFault` comes from: the checks of the used register fields, and nothing after them
(60_exceptions.md R232, R236). -/

namespace Sys2Proof.Machine

/-! ### The used fields with their use -/

/-- The register fields an instruction uses, each as a source or destination, in the order its rule
checks them (R92, R236). -/
def fieldUses : Instr → List (Use × Reg)
  | .nop | .int _ | .irt | .hlt => []
  | .mov a d | .movs a d | .not a d | .iadd a _ d | .isub a _ d => [(.source, a), (.destination, d)]
  | .ldb b d _ | .ldbs b d _ | .ldh b d _ | .ldhs b d _ | .ldw b d _ =>
    [(.source, b), (.destination, d)]
  | .stb a b _ | .sth a b _ | .stw a b _ | .cmp a b => [(.source, a), (.source, b)]
  | .lli _ d => [(.destination, d)]
  | .lui _ r | .inc r | .dec r | .shlLit r _ | .shrLit r _ => [(.source, r), (.destination, r)]
  | .jmp b _ | .jeq b _ | .jne b _ | .jgt b _ | .jge b _ | .jlt b _ | .jle b _ => [(.source, b)]
  | .shlReg r n | .shrReg r n => [(.source, n), (.source, r), (.destination, r)]
  | .add a b d | .sub a b d | .and a b d | .or a b d | .xor a b d | .nand a b d | .nor a b d
  | .xnor a b d => [(.source, a), (.source, b), (.destination, d)]

theorem mem_regs_iff_fieldUses {i : Instr} {r : Reg} : r ∈ i.regs ↔ ∃ u, (u, r) ∈ fieldUses i := by
  cases i with
  | shlReg | shrReg => simp [Instr.regs, fieldUses, exists_or, or_comm]
  | _ => simp [Instr.regs, fieldUses, exists_or]

theorem destination_mem_fieldUses_iff {i : Instr} {r : Reg} :
    (.destination, r) ∈ fieldUses i ↔ destination i = some r := by
  cases i <;> simp [fieldUses, destination, eq_comm]

theorem legal_of_mem_fieldUses {p : Option (Fin 8)} {i : Instr} (h : i.wf p = true) :
    ∀ f ∈ fieldUses i, f.2.legal p = true :=
  fun f hf => wf_iff_legal.mp h f.2 (mem_regs_iff_fieldUses.mpr ⟨f.1, hf⟩)

theorem exec_of_checkFields_error {i : Instr} {s : State} {e : Stop}
    (h : s.checkFields (fieldUses i) = .error e) : exec i s = outcome s.instrAddr (.error e) := by
  have hrun (k : Unit → Except Stop State) :
      outcome s.instrAddr (s.checkFields (fieldUses i) >>= k) = outcome s.instrAddr (.error e) := by
    rw [h, error_bind]
  cases i with
  | nop | int | irt | hlt => cases h
  | _ => exact hrun _

/-! ### When the check of a field protects -/

theorem not_mayName_iff {s : State} {c : Cell} :
    s.mayName c = false ↔ s.mode = .user ∧ (c = .idr ∨ c = .mmr) := by
  cases c <;> simp [State.mayName, privileged]

theorem protects_iff {s : State} {u : Use} {r : Reg} :
    s.protects u r = true ↔ (s.mode = .user ∧ (r = .cell .idr ∨ r = .cell .mmr)) ∨
      (u = .destination ∧ ∃ k, r = .upper k) := by
  cases r with
  | cell c => simp [State.protects, not_mayName_iff]
  | zero => simp [State.protects]
  | noreg => simp [State.protects]
  | upper k => simp [State.protects]

/-- With every field legal the checks raise `ProtectionFault` exactly where one is protected. -/
theorem checkFields_protectionFault_iff {s : State} {fs : List (Use × Reg)}
    (hl : ∀ f ∈ fs, f.2.legal s.cfg.pcxRegnum = true) :
    (∃ r, s.checkFields fs = .error (.raise (.protectionFault r))) ↔
      ∃ f ∈ fs, s.protects f.1 f.2 = true := by
  constructor
  · rintro ⟨r, hr⟩
    rcases checkFields_error hr with ⟨-, he⟩ | ⟨-, f, hf, hp, -⟩
    · cases he
    · exact ⟨f, hf, hp⟩
  · rintro ⟨f, hf, hp⟩
    cases hc : s.checkFields fs with
    | ok u => exact absurd hp (by simp [(checkFields_ok_iff.mp hc f hf).2])
    | error e =>
      rcases checkFields_error hc with ⟨⟨g, hg, hill⟩, -⟩ | ⟨-, g, -, -, he⟩
      · exact absurd (hl g hg) (by simp [hill])
      · exact ⟨g.2, by rw [he]⟩

/-! ### Computations that raise no `ProtectionFault` -/

/-- The computation does not stop with a `ProtectionFault`. -/
def RaisesNoProtection {α : Type} (x : Except Stop α) : Prop :=
  ∀ r, x ≠ .error (.raise (.protectionFault r))

theorem raisesNoProtection_ok {α : Type} {x : Except Stop α} {a : α} (h : x = .ok a) :
    RaisesNoProtection x := by
  rintro r rfl
  cases h

theorem RaisesNoProtection.bind {α β : Type} {x : Except Stop α} {f : α → Except Stop β}
    (hx : RaisesNoProtection x) (hf : ∀ a, RaisesNoProtection (f a)) :
    RaisesNoProtection (x >>= f) := by
  cases x with
  | ok a => exact hf a
  | error e => exact fun r h => hx r (congrArg _ (Except.error.inj h))

theorem RaisesNoProtection.outcome_ne {e : Except Stop State} {a x : Word} {r : Reg}
    (h : RaisesNoProtection e) : outcome a e ≠ .fault (.protectionFault x r) := by
  cases e with
  | ok t => exact nofun
  | error p =>
    cases p with
    | refuse q => exact nofun
    | raise q =>
      cases q with
      | protectionFault r' => exact absurd rfl (h r')
      | illegalInstruction | alignmentFault | memoryAccessViolation => exact nofun

theorem checkAccess_raisesNoProtection (s : State) (a : Word) (n : Size) (k : AccessKind) :
    RaisesNoProtection (s.checkAccess a n k) := by
  intro r
  unfold State.checkAccess
  split
  · split <;> exact nofun
  · exact nofun

theorem memRead_raisesNoProtection (s : State) (a : Word) (n : Size) (k : AccessKind) :
    RaisesNoProtection (s.memRead a n k) :=
  (checkAccess_raisesNoProtection s a n k).bind fun _ => raisesNoProtection_ok rfl

theorem memWrite_raisesNoProtection (s : State) (a : Word) (n : Size) (v : Word) :
    RaisesNoProtection (s.memWrite a n v) :=
  (checkAccess_raisesNoProtection s a n .write).bind fun _ => raisesNoProtection_ok rfl

theorem readReg_raisesNoProtection {s : State} {r : Reg} (k : ReadContext)
    (h : s.protects .source r = false) : RaisesNoProtection (s.readReg k r) := by
  cases r with
  | cell c =>
    have hm : s.mayName c = true := by simpa [State.protects] using h
    exact raisesNoProtection_ok (if_pos hm)
  | zero => exact raisesNoProtection_ok rfl
  | noreg => exact nofun
  | upper n =>
    intro q
    by_cases hn : s.cfg.pcxRegnum = some n
    · cases k <;> simp [State.readReg, hn]
    · simp [State.readReg, hn]

/-! ### After the checks of the fields no operation raises it -/

section
variable {s : State} {fs : List (Use × Reg)} {x : Word} {q : Reg}

theorem readReg_raisesNoProtection_of_checkFields {r : Reg} (k : ReadContext)
    (h : s.checkFields fs = .ok ()) (hr : (Use.source, r) ∈ fs) :
    RaisesNoProtection (s.readReg k r) :=
  readReg_raisesNoProtection k (checkFields_ok_iff.mp h _ hr).2

theorem unaryOp_ne_protectionFault {f : Word → Word} {a d : Reg}
    (h : s.checkFields [(.source, a), (.destination, d)] = .ok ()) :
    unaryOp f a d s ≠ .fault (.protectionFault x q) :=
  ((raisesNoProtection_ok h).bind fun _ =>
    (readReg_raisesNoProtection_of_checkFields .other h (by simp)).bind fun v =>
    raisesNoProtection_ok (writeResult_of_checkFields (f v) h (by simp))).outcome_ne

theorem binaryOp_ne_protectionFault {f : Word → Word → Word} {a b d : Reg}
    (h : s.checkFields [(.source, a), (.source, b), (.destination, d)] = .ok ()) :
    binaryOp f a b d s ≠ .fault (.protectionFault x q) :=
  ((raisesNoProtection_ok h).bind fun _ =>
    (readReg_raisesNoProtection_of_checkFields .other h (by simp)).bind fun v =>
    (readReg_raisesNoProtection_of_checkFields .other h (by simp)).bind fun w =>
    raisesNoProtection_ok (writeResult_of_checkFields (f v w) h (by simp))).outcome_ne

theorem shiftRegOp_ne_protectionFault {f : Word → BitVec 5 → Word} {r n : Reg}
    (h : s.checkFields [(.source, n), (.source, r), (.destination, r)] = .ok ()) :
    shiftRegOp f r n s ≠ .fault (.protectionFault x q) :=
  ((raisesNoProtection_ok h).bind fun _ =>
    (readReg_raisesNoProtection_of_checkFields .other h (by simp)).bind fun w =>
    (readReg_raisesNoProtection_of_checkFields .other h (by simp)).bind fun v =>
    raisesNoProtection_ok (writeResult_of_checkFields (f v (shiftCount w)) h (by simp))).outcome_ne

theorem loadOp_ne_protectionFault {n : Size} {ext : Word → Word} {base dst : Reg} {off : BitVec 16}
    (h : s.checkFields [(.source, base), (.destination, dst)] = .ok ()) :
    loadOp n ext base dst off s ≠ .fault (.protectionFault x q) :=
  ((raisesNoProtection_ok h).bind fun _ =>
    (readReg_raisesNoProtection_of_checkFields .other h (by simp)).bind fun b =>
    (memRead_raisesNoProtection s (baseOffset b off) n .read).bind fun v =>
    raisesNoProtection_ok (writeReg_of_checkFields (ext v) h (by simp))).outcome_ne

theorem storeOp_ne_protectionFault {n : Size} {src base : Reg} {off : BitVec 16}
    (h : s.checkFields [(.source, src), (.source, base)] = .ok ()) :
    storeOp n src base off s ≠ .fault (.protectionFault x q) :=
  ((raisesNoProtection_ok h).bind fun _ =>
    (readReg_raisesNoProtection_of_checkFields .other h (by simp)).bind fun b =>
    (checkAccess_raisesNoProtection s (baseOffset b off) n .write).bind fun _ =>
    (readReg_raisesNoProtection_of_checkFields .other h (by simp)).bind fun v =>
    memWrite_raisesNoProtection s (baseOffset b off) n v).outcome_ne

theorem jumpOp_ne_protectionFault {cond : Bool} {base : Reg} {off : BitVec 16}
    (h : s.checkFields [(.source, base)] = .ok ()) :
    jumpOp cond base off s ≠ .fault (.protectionFault x q) :=
  ((raisesNoProtection_ok h).bind fun _ =>
    (readReg_raisesNoProtection_of_checkFields .jumpBase h (by simp)).bind fun _ =>
    raisesNoProtection_ok rfl).outcome_ne

theorem execCmp_ne_protectionFault {a b : Reg}
    (h : s.checkFields [(.source, a), (.source, b)] = .ok ()) :
    execCmp a b s ≠ .fault (.protectionFault x q) :=
  ((raisesNoProtection_ok h).bind fun _ =>
    (readReg_raisesNoProtection_of_checkFields .other h (by simp)).bind fun _ =>
    (readReg_raisesNoProtection_of_checkFields .other h (by simp)).bind fun _ =>
    raisesNoProtection_ok rfl).outcome_ne

theorem execLli_ne_protectionFault {v : BitVec 16} {d : Reg}
    (h : s.checkFields [(.destination, d)] = .ok ()) :
    execLli v d s ≠ .fault (.protectionFault x q) := by
  rw [execLli_of_checked h]
  exact nofun

theorem execLui_ne_protectionFault {v : BitVec 16} {d : Reg}
    (h : s.checkFields [(.source, d), (.destination, d)] = .ok ()) :
    execLui v d s ≠ .fault (.protectionFault x q) :=
  ((raisesNoProtection_ok h).bind fun _ =>
    (readReg_raisesNoProtection_of_checkFields .other h (by simp)).bind fun old =>
    raisesNoProtection_ok (writeReg_of_checkFields (upperHalf v old) h (by simp))).outcome_ne

theorem execInt_ne_protectionFault (code : BitVec 8) :
    execInt code s ≠ .fault (.protectionFault x q) := by
  unfold execInt
  split
  · exact nofun
  · split <;> exact nofun

theorem execIrt_ne_protectionFault : execIrt s ≠ .fault (.protectionFault x q) := by
  unfold execIrt
  split <;> exact nofun

/-- R236: past the checks of its fields no instruction raises `ProtectionFault`. -/
theorem exec_ne_protectionFault_of_checkFields {i : Instr} (h : s.checkFields (fieldUses i) = .ok ()) :
    exec i s ≠ .fault (.protectionFault x q) := by
  cases i with
  | nop | hlt => exact nofun
  | mov | movs | not | inc | dec | shlLit | shrLit | iadd | isub => exact unaryOp_ne_protectionFault h
  | add | sub | and | or | xor | nand | nor | xnor => exact binaryOp_ne_protectionFault h
  | shlReg | shrReg => exact shiftRegOp_ne_protectionFault h
  | ldb | ldbs | ldh | ldhs | ldw => exact loadOp_ne_protectionFault h
  | stb | sth | stw => exact storeOp_ne_protectionFault h
  | lli => exact execLli_ne_protectionFault h
  | lui => exact execLui_ne_protectionFault h
  | jmp | jeq | jne | jgt | jlt => exact jumpOp_ne_protectionFault h
  | jge | jle => exact jumpOp_ne_protectionFault (s := s.spendCondition) h
  | cmp => exact execCmp_ne_protectionFault h
  | int code => exact execInt_ne_protectionFault code
  | irt => exact execIrt_ne_protectionFault

end

/-! ### The triggers -/

/-- An instruction raises `ProtectionFault` exactly where the checks of its fields do. -/
theorem exec_protectionFault_iff_checkFields {i : Instr} {s : State} :
    (∃ a r, exec i s = .fault (.protectionFault a r)) ↔
      ∃ r, s.checkFields (fieldUses i) = .error (.raise (.protectionFault r)) := by
  constructor
  · rintro ⟨a, r, hexec⟩
    cases hc : s.checkFields (fieldUses i) with
    | ok u => exact absurd hexec (exec_ne_protectionFault_of_checkFields hc)
    | error e =>
      rcases checkFields_error hc with ⟨-, rfl⟩ | ⟨-, f, -, -, rfl⟩
      · cases (exec_of_checkFields_error hc).symm.trans hexec
      · exact ⟨f.2, rfl⟩
  · rintro ⟨r, hr⟩
    exact ⟨s.instrAddr, r, exec_of_checkFields_error hr⟩

/-- In a well-formed instruction a protected field is idr or mmr in User mode, or pcx as the
destination (R232). -/
theorem exists_protects_iff {i : Instr} {s : State} (hwf : i.wf s.cfg.pcxRegnum = true) :
    (∃ f ∈ fieldUses i, s.protects f.1 f.2 = true) ↔
      (s.mode = .user ∧ (.cell .idr ∈ i.regs ∨ .cell .mmr ∈ i.regs)) ∨
      (∃ k, s.cfg.pcxRegnum = some k ∧ destination i = some (.upper k)) := by
  simp only [mem_regs_iff_fieldUses, ← destination_mem_fieldUses_iff, protects_iff]
  constructor
  · rintro ⟨⟨u, r⟩, hf, ⟨hu, rfl | rfl⟩ | ⟨rfl, k, rfl⟩⟩
    · exact .inl ⟨hu, .inl ⟨u, hf⟩⟩
    · exact .inl ⟨hu, .inr ⟨u, hf⟩⟩
    · exact .inr ⟨k, of_decide_eq_true (legal_of_mem_fieldUses hwf _ hf), hf⟩
  · rintro (⟨hu, ⟨u, hf⟩ | ⟨u, hf⟩⟩ | ⟨k, -, hf⟩)
    · exact ⟨_, hf, .inl ⟨hu, .inl rfl⟩⟩
    · exact ⟨_, hf, .inl ⟨hu, .inr rfl⟩⟩
    · exact ⟨_, hf, .inr ⟨rfl, k, rfl⟩⟩

/-- Settles O37: only the checks of the fields raise `ProtectionFault`, and with every field legal they
do so exactly where a field is protected; INT, IRT and HLT have no field to check. -/
theorem protectionFaultExactlyOnItsTriggers : Obligations.ProtectionFaultExactlyOnItsTriggers := by
  refine ⟨fun i s hwf => ?_, fun i s hm => exec_of_illegal hm rfl, fun s code a r => ?_⟩
  · calc (∃ a r, exec i s = .fault (.protectionFault a r))
        ↔ ∃ r, s.checkFields (fieldUses i) = .error (.raise (.protectionFault r)) :=
          exec_protectionFault_iff_checkFields
      _ ↔ ∃ f ∈ fieldUses i, s.protects f.1 f.2 = true :=
          checkFields_protectionFault_iff (legal_of_mem_fieldUses hwf)
      _ ↔ _ := exists_protects_iff hwf
  · exact ⟨execInt_ne_protectionFault code, execIrt_ne_protectionFault, nofun⟩

end Sys2Proof.Machine
end

section
/-! Instruction words: what the decoder of each format answers, as an equivalence with the word the
encoder writes in that format (30_encoding.md R81, R82, R88, R95), and with it that decoder and encoder
are inverse to each other. -/

namespace Sys2Proof

/-! ### A word is its fields -/

theorem rType_toNat (w : Word) :
    w.toNat = (fieldOp w).toNat * 2 ^ 26 + (fieldA w).toNat * 2 ^ 21 + (fieldB w).toNat * 2 ^ 16 +
      (fieldD w).toNat * 2 ^ 11 + (fieldSh w).toNat * 2 ^ 6 + (fieldUn w).toNat := by
  have hw := w.isLt
  simp only [fieldOp, fieldA, fieldB, fieldD, fieldSh, fieldUn, toNat_extract]
  omega

theorem iType_toNat (w : Word) :
    w.toNat = (fieldOp w).toNat * 2 ^ 26 + (fieldA w).toNat * 2 ^ 21 + (fieldB w).toNat * 2 ^ 16 +
      (fieldImm w).toNat := by
  have hw := w.isLt
  simp only [fieldOp, fieldA, fieldB, fieldImm, toNat_extract]
  omega

/-- Settles O1: dividing a number below 2^32 at the places of the fields. -/
theorem wordIsSumOfFormatFields : Obligations.WordIsSumOfFormatFields :=
  fun w => ⟨rType_toNat w, iType_toNat w⟩

section
variable {w : Word} {op : Opcode}

theorem eq_rWord_of_fields (hop : fieldOp w = op.num) (hun : fieldUn w = 0) :
    w = rWord op (fieldA w) (fieldB w) (fieldD w) (fieldSh w) := by
  apply BitVec.eq_of_toNat_eq
  have hz : (0 : BitVec 6).toNat = 0 := rfl
  rw [rWord_toNat, rType_toNat w, hop, hun, hz, Nat.add_zero]

theorem eq_iWord_of_fields (hop : fieldOp w = op.num) :
    w = iWord op (fieldA w) (fieldB w) (fieldImm w) := by
  apply BitVec.eq_of_toNat_eq
  rw [iWord_toNat, iType_toNat w, hop]

/-- R-type words are told apart by their fields. -/
theorem eq_rWord_iff {a b d sh : BitVec 5} (hop : fieldOp w = op.num) :
    w = rWord op a b d sh ↔
      fieldUn w = 0 ∧ fieldSh w = sh ∧ fieldA w = a ∧ fieldB w = b ∧ fieldD w = d := by
  constructor
  · rintro rfl
    simp
  · rintro ⟨hun, rfl, rfl, rfl, rfl⟩
    exact eq_rWord_of_fields hop hun

/-- I-type words are told apart by their fields. -/
theorem eq_iWord_iff {a d : BitVec 5} {imm : BitVec 16} (hop : fieldOp w = op.num) :
    w = iWord op a d imm ↔ fieldA w = a ∧ fieldB w = d ∧ fieldImm w = imm := by
  constructor
  · rintro rfl
    simp
  · rintro ⟨rfl, rfl, rfl⟩
    exact eq_iWord_of_fields hop

end

/-! ### The checks of a word -/

theorem check_bind_ok_iff {β : Type} {x : Except DecodeError Unit} {f : Unit → Except DecodeError β}
    {b : β} : (x >>= f) = .ok b ↔ x = .ok () ∧ f () = .ok b := by
  cases x with
  | ok u => exact ⟨fun h => ⟨rfl, h⟩, fun h => h.2⟩
  | error e => exact ⟨fun h => (nomatch h), fun h => (nomatch h.1)⟩

theorem checkUn_ok_iff {w : Word} : checkUn w = .ok () ↔ fieldUn w = 0 := by
  unfold checkUn
  split <;> simp_all

theorem checkSh_ok_iff {w : Word} : checkSh w = .ok () ↔ fieldSh w = 0 := by
  unfold checkSh
  split <;> simp_all

theorem field_ok_iff {p : Option (Fin 8)} {n : BitVec 5} {r : Reg} :
    usedReg p n = .ok r ↔ r.legal p = true ∧ n = r.num := by
  rw [usedReg_ok_iff, @eq_comm _ r.num]

theorem sameReg_ok_iff {p : Option (Fin 8)} {w : Word} {r : Reg} :
    sameReg p w = .ok r ↔ r.legal p = true ∧ fieldA w = r.num ∧ fieldD w = r.num := by
  unfold sameReg
  split
  next h => rw [field_ok_iff, ← h, and_self]
  next h =>
    simp only [reduceCtorEq, false_iff]
    rintro ⟨-, ha, hd⟩
    exact h (ha.trans hd.symm)

/-! ### The decoder of each format -/

section formats
variable {p : Option (Fin 8)} {w : Word} {op : Opcode} {i : Instr}

theorem pure_eq_ok_iff {x y : Instr} : (pure x : Except DecodeError Instr) = .ok y ↔ y = x :=
  ⟨fun h => (Except.ok.inj h).symm, fun h => by rw [h]; rfl⟩

theorem decodeR0_ok_iff (hop : fieldOp w = op.num) {j : Instr} :
    decodeR0 j w = .ok i ↔ w = rWord op noregNum noregNum noregNum 0 ∧ i = j := by
  simp only [decodeR0, check_bind_ok_iff, checkUn_ok_iff, checkSh_ok_iff, unusedReg_ok_iff,
    pure_eq_ok_iff, eq_rWord_iff hop, and_assoc]

theorem decodeR2_ok_iff (hop : fieldOp w = op.num) {mk : Reg → Reg → Instr} :
    decodeR2 p mk w = .ok i ↔ ∃ a d, a.legal p = true ∧ d.legal p = true ∧
      w = rWord op a.num noregNum d.num 0 ∧ i = mk a d := by
  simp only [decodeR2, check_bind_ok_iff, checkUn_ok_iff, checkSh_ok_iff, unusedReg_ok_iff]
  simp only [decode_bind_ok_iff, field_ok_iff, pure_eq_ok_iff, eq_rWord_iff hop]
  constructor
  · rintro ⟨hun, hsh, hb, a, ⟨hla, ha⟩, d, ⟨hld, hd⟩, hi⟩
    exact ⟨a, d, hla, hld, ⟨hun, hsh, ha, hb, hd⟩, hi⟩
  · rintro ⟨a, d, hla, hld, ⟨hun, hsh, ha, hb, hd⟩, hi⟩
    exact ⟨hun, hsh, hb, a, ⟨hla, ha⟩, d, ⟨hld, hd⟩, hi⟩

theorem decodeR3_ok_iff (hop : fieldOp w = op.num) {mk : Reg → Reg → Reg → Instr} :
    decodeR3 p mk w = .ok i ↔ ∃ a b d, a.legal p = true ∧ b.legal p = true ∧ d.legal p = true ∧
      w = rWord op a.num b.num d.num 0 ∧ i = mk a b d := by
  simp only [decodeR3, check_bind_ok_iff, checkUn_ok_iff, checkSh_ok_iff]
  simp only [decode_bind_ok_iff, field_ok_iff, pure_eq_ok_iff, eq_rWord_iff hop]
  constructor
  · rintro ⟨hun, hsh, a, ⟨hla, ha⟩, b, ⟨hlb, hb⟩, d, ⟨hld, hd⟩, hi⟩
    exact ⟨a, b, d, hla, hlb, hld, ⟨hun, hsh, ha, hb, hd⟩, hi⟩
  · rintro ⟨a, b, d, hla, hlb, hld, ⟨hun, hsh, ha, hb, hd⟩, hi⟩
    exact ⟨hun, hsh, a, ⟨hla, ha⟩, b, ⟨hlb, hb⟩, d, ⟨hld, hd⟩, hi⟩

theorem decodeCmp_ok_iff (hop : fieldOp w = op.num) :
    decodeCmp p w = .ok i ↔ ∃ a b, a.legal p = true ∧ b.legal p = true ∧
      w = rWord op a.num b.num noregNum 0 ∧ i = .cmp a b := by
  simp only [decodeCmp, check_bind_ok_iff, checkUn_ok_iff, checkSh_ok_iff, unusedReg_ok_iff]
  simp only [decode_bind_ok_iff, field_ok_iff, pure_eq_ok_iff, eq_rWord_iff hop]
  constructor
  · rintro ⟨hun, hsh, hd, a, ⟨hla, ha⟩, b, ⟨hlb, hb⟩, hi⟩
    exact ⟨a, b, hla, hlb, ⟨hun, hsh, ha, hb, hd⟩, hi⟩
  · rintro ⟨a, b, hla, hlb, ⟨hun, hsh, ha, hb, hd⟩, hi⟩
    exact ⟨hun, hsh, hd, a, ⟨hla, ha⟩, b, ⟨hlb, hb⟩, hi⟩

theorem decodeR1_ok_iff (hop : fieldOp w = op.num) {mk : Reg → Instr} :
    decodeR1 p mk w = .ok i ↔ ∃ r, r.legal p = true ∧
      w = rWord op r.num noregNum r.num 0 ∧ i = mk r := by
  simp only [decodeR1, check_bind_ok_iff, checkUn_ok_iff, checkSh_ok_iff, unusedReg_ok_iff]
  simp only [decode_bind_ok_iff, sameReg_ok_iff, pure_eq_ok_iff, eq_rWord_iff hop]
  constructor
  · rintro ⟨hun, hsh, hb, r, ⟨hl, ha, hd⟩, hi⟩
    exact ⟨r, hl, ⟨hun, hsh, ha, hb, hd⟩, hi⟩
  · rintro ⟨r, hl, ⟨hun, hsh, ha, hb, hd⟩, hi⟩
    exact ⟨hun, hsh, hb, r, ⟨hl, ha, hd⟩, hi⟩

/-- R93: the literal form has the number of noreg in the field of the count register, the register form
the number of a legal register, which is another. -/
theorem decodeShift_ok_iff (hop : fieldOp w = op.num) {mkLit : Reg → BitVec 5 → Instr}
    {mkReg : Reg → Reg → Instr} :
    decodeShift p mkLit mkReg w = .ok i ↔ ∃ r, r.legal p = true ∧
      ((∃ n, w = rWord op r.num noregNum r.num n ∧ i = mkLit r n) ∨
        ∃ c, c.legal p = true ∧ w = rWord op r.num c.num r.num 0 ∧ i = mkReg r c) := by
  simp only [decodeShift, check_bind_ok_iff, checkUn_ok_iff]
  simp only [decode_bind_ok_iff, sameReg_ok_iff, eq_rWord_iff hop]
  by_cases hlit : fieldB w = noregNum
  · have hif : fieldB w = 0x17 := hlit
    simp only [if_pos hif, pure_eq_ok_iff]
    constructor
    · rintro ⟨hun, r, ⟨hl, ha, hd⟩, hi⟩
      exact ⟨r, hl, .inl ⟨fieldSh w, ⟨hun, rfl, ha, hlit, hd⟩, hi⟩⟩
    · rintro ⟨r, hl, ⟨n, ⟨hun, rfl, ha, -, hd⟩, hi⟩ | ⟨c, hlc, ⟨-, -, -, hc, -⟩, -⟩⟩
      · exact ⟨hun, r, ⟨hl, ha, hd⟩, hi⟩
      · exact absurd (hc.symm.trans hlit) (Reg.num_ne_noreg hlc)
  · have hif : ¬ fieldB w = 0x17 := hlit
    simp only [if_neg hif, check_bind_ok_iff, checkSh_ok_iff]
    simp only [decode_bind_ok_iff, field_ok_iff, pure_eq_ok_iff]
    constructor
    · rintro ⟨hun, r, ⟨hl, ha, hd⟩, hsh, c, ⟨hlc, hc⟩, hi⟩
      exact ⟨r, hl, .inr ⟨c, hlc, ⟨hun, hsh, ha, hc, hd⟩, hi⟩⟩
    · rintro ⟨r, hl, ⟨n, ⟨-, -, -, hb, -⟩, -⟩ | ⟨c, hlc, ⟨hun, hsh, ha, hc, hd⟩, hi⟩⟩
      · exact absurd hb hlit
      · exact ⟨hun, r, ⟨hl, ha, hd⟩, hsh, c, ⟨hlc, hc⟩, hi⟩

theorem decodeI2_ok_iff (hop : fieldOp w = op.num) {mk : Reg → Reg → BitVec 16 → Instr} :
    decodeI2 p mk w = .ok i ↔ ∃ a d imm, a.legal p = true ∧ d.legal p = true ∧
      w = iWord op a.num d.num imm ∧ i = mk a d imm := by
  simp only [decodeI2, decode_bind_ok_iff, field_ok_iff, pure_eq_ok_iff, eq_iWord_iff hop]
  constructor
  · rintro ⟨a, ⟨hla, ha⟩, d, ⟨hld, hd⟩, hi⟩
    exact ⟨a, d, fieldImm w, hla, hld, ⟨ha, hd, rfl⟩, hi⟩
  · rintro ⟨a, d, imm, hla, hld, ⟨ha, hd, rfl⟩, hi⟩
    exact ⟨a, ⟨hla, ha⟩, d, ⟨hld, hd⟩, hi⟩

theorem decodeI1_ok_iff (hop : fieldOp w = op.num) {mk : Reg → BitVec 16 → Instr} :
    decodeI1 p mk w = .ok i ↔ ∃ d imm, d.legal p = true ∧
      w = iWord op noregNum d.num imm ∧ i = mk d imm := by
  simp only [decodeI1, check_bind_ok_iff, unusedReg_ok_iff]
  simp only [decode_bind_ok_iff, field_ok_iff, pure_eq_ok_iff, eq_iWord_iff hop]
  constructor
  · rintro ⟨ha, d, ⟨hld, hd⟩, hi⟩
    exact ⟨d, fieldImm w, hld, ⟨ha, hd, rfl⟩, hi⟩
  · rintro ⟨d, imm, hld, ⟨ha, hd, rfl⟩, hi⟩
    exact ⟨ha, d, ⟨hld, hd⟩, hi⟩

/-- The immediate of an INT is its code exactly where bits 15:8 are 0 (R91 (c)). -/
theorem fieldImm_eq_code_iff {code : BitVec 8} :
    fieldImm w = 0#8 ++ code ↔ w.extractLsb' 8 8 = 0 ∧ code = w.extractLsb' 0 8 := by
  have hcode := code.isLt
  have hz : (0 : BitVec 8).toNat = 0 := rfl
  rw [BitVec.toNat_eq, BitVec.toNat_eq, BitVec.toNat_eq, fieldImm, toNat_append_add, toNat_extract,
    toNat_extract, toNat_extract, BitVec.toNat_zero, hz]
  omega

theorem decodeInt_ok_iff (hop : fieldOp w = op.num) :
    decodeInt w = .ok i ↔ ∃ code, w = iWord op noregNum noregNum (0#8 ++ code) ∧ i = .int code := by
  simp only [decodeInt, check_bind_ok_iff, unusedReg_ok_iff, eq_iWord_iff hop, fieldImm_eq_code_iff]
  constructor
  · rintro ⟨ha, hb, hi⟩
    split at hi
    next hz => exact ⟨_, ⟨ha, hb, hz, rfl⟩, pure_eq_ok_iff.mp hi⟩
    next => cases hi
  · rintro ⟨code, ⟨ha, hb, hz, rfl⟩, hi⟩
    exact ⟨ha, hb, by rw [if_pos hz]; exact pure_eq_ok_iff.mpr hi⟩

end formats

/-! ### Decoder and encoder -/

/-- Settles O2: the word has the opcode of its instruction, and the decoder of that opcode's format
answers the word of its legal operands. -/
theorem decodeOfEncodeGivesInstruction : Obligations.DecodeOfEncodeGivesInstruction := by
  intro p i h
  have hr : ∀ op a b d sh, fieldOp (rWord op a b d sh) = op.num := fieldOp_rWord
  have hi : ∀ op a d imm, fieldOp (iWord op a d imm) = op.num := fieldOp_iWord
  rw [wf_iff_legal] at h
  rw [decodeWord, ofNum_fieldOp_encode]
  cases i with
  | nop | irt | hlt => exact (decodeR0_ok_iff (hr ..)).mpr ⟨rfl, rfl⟩
  | int code => exact (decodeInt_ok_iff (hi ..)).mpr ⟨code, rfl, rfl⟩
  | mov a d | movs a d | not a d =>
    simp only [Instr.regs, List.forall_mem_cons] at h
    obtain ⟨ha, hd, -⟩ := h
    exact (decodeR2_ok_iff (hr ..)).mpr ⟨a, d, ha, hd, rfl, rfl⟩
  | add a b d | sub a b d | and a b d | or a b d | xor a b d | nand a b d | nor a b d | xnor a b d =>
    simp only [Instr.regs, List.forall_mem_cons] at h
    obtain ⟨ha, hb, hd, -⟩ := h
    exact (decodeR3_ok_iff (hr ..)).mpr ⟨a, b, d, ha, hb, hd, rfl, rfl⟩
  | cmp a b =>
    simp only [Instr.regs, List.forall_mem_cons] at h
    obtain ⟨ha, hb, -⟩ := h
    exact (decodeCmp_ok_iff (hr ..)).mpr ⟨a, b, ha, hb, rfl, rfl⟩
  | inc r | dec r =>
    simp only [Instr.regs, List.forall_mem_cons] at h
    exact (decodeR1_ok_iff (hr ..)).mpr ⟨r, h.1, rfl, rfl⟩
  | shlLit r n | shrLit r n =>
    simp only [Instr.regs, List.forall_mem_cons] at h
    exact (decodeShift_ok_iff (hr ..)).mpr ⟨r, h.1, .inl ⟨n, rfl, rfl⟩⟩
  | shlReg r c | shrReg r c =>
    simp only [Instr.regs, List.forall_mem_cons] at h
    obtain ⟨hl, hlc, -⟩ := h
    exact (decodeShift_ok_iff (hr ..)).mpr ⟨r, hl, .inr ⟨c, hlc, rfl, rfl⟩⟩
  | ldb a d o | ldbs a d o | ldh a d o | ldhs a d o | ldw a d o | stb a d o | sth a d o | stw a d o
  | iadd a o d | isub a o d =>
    simp only [Instr.regs, List.forall_mem_cons] at h
    obtain ⟨ha, hd, -⟩ := h
    exact (decodeI2_ok_iff (hi ..)).mpr ⟨a, d, o, ha, hd, rfl, rfl⟩
  | lli o d | lui o d | jmp d o | jeq d o | jne d o | jgt d o | jge d o | jlt d o | jle d o =>
    simp only [Instr.regs, List.forall_mem_cons] at h
    exact (decodeI1_ok_iff (hi ..)).mpr ⟨d, o, h.1, rfl, rfl⟩

/-- The word that decodes is the word of its instruction: every field is read or checked. -/
theorem encode_of_decodeWord {p : Option (Fin 8)} {w : Word} {i : Instr} (h : decodeWord p w = .ok i) :
    encode i = w := by
  cases hop : Opcode.ofNum (fieldOp w) with
  | none => rw [decodeWord, hop] at h; cases h
  | some op =>
    have hnum : fieldOp w = op.num := (Opcode.num_of_ofNum hop).symm
    rw [decodeWord, hop] at h
    cases op with
    | nop | irt | hlt =>
      obtain ⟨rfl, rfl⟩ := (decodeR0_ok_iff hnum).mp h
      rfl
    | int =>
      obtain ⟨code, rfl, rfl⟩ := (decodeInt_ok_iff hnum).mp h
      rfl
    | mov | movs | not =>
      obtain ⟨a, d, -, -, rfl, rfl⟩ := (decodeR2_ok_iff hnum).mp h
      rfl
    | add | sub | and | or | xor | nand | nor | xnor =>
      obtain ⟨a, b, d, -, -, -, rfl, rfl⟩ := (decodeR3_ok_iff hnum).mp h
      rfl
    | cmp =>
      obtain ⟨a, b, -, -, rfl, rfl⟩ := (decodeCmp_ok_iff hnum).mp h
      rfl
    | inc | dec =>
      obtain ⟨r, -, rfl, rfl⟩ := (decodeR1_ok_iff hnum).mp h
      rfl
    | shl | shr =>
      obtain ⟨r, -, ⟨n, rfl, rfl⟩ | ⟨c, -, rfl, rfl⟩⟩ := (decodeShift_ok_iff hnum).mp h
      · rfl
      · rfl
    | ldb | ldbs | ldh | ldhs | ldw | stb | sth | stw | iadd | isub =>
      obtain ⟨a, d, imm, -, -, rfl, rfl⟩ := (decodeI2_ok_iff hnum).mp h
      rfl
    | lli | lui | jmp | jeq | jne | jgt | jge | jlt | jle =>
      obtain ⟨d, imm, -, rfl, rfl⟩ := (decodeI1_ok_iff hnum).mp h
      rfl

/-- Settles O3: every used field is checked to be legal, and every field is read or checked. -/
theorem decodedInstructionEncodesToItsWord : Obligations.DecodedInstructionEncodesToItsWord :=
  fun _ _ _ h => ⟨wf_of_decodeWord h, encode_of_decodeWord h⟩

/-- Settles O4: the fifteen words are evaluated. -/
theorem specWordsDecode : Obligations.SpecWordsDecode := by
  unfold Obligations.SpecWordsDecode
  decide

end Sys2Proof
end

section
/-! Everything the execution of an instruction can come to, said once (`exec_case`): the checks of its
register fields raise, its data access raises, its read of pcx is refused, or it answers the next state
of its shape. The frames and the lists of exceptions are read off this (30_encoding.md section 5;
60_exceptions.md R236). -/

namespace Sys2Proof.Machine

/-! ### The cases -/

/-- Every source field of the instruction reads as a value, so none of them is pcx. -/
def ReadsSources (s : State) (i : Instr) : Prop :=
  ∀ r, (Use.source, r) ∈ fieldUses i → ∃ v, s.readReg .other r = .ok v

/-- The outcomes of an instruction, each with the reason that the instruction and the state give. -/
inductive ExecCase (s : State) (i : Instr) : Out → Prop
  | fieldFault {e : Exc} (he : s.checkFields (fieldUses i) = .error (.raise e)) :
      ExecCase s i (raiseException s.instrAddr e)
  | accessFault {n : Size} {kind : AccessKind} {base : Reg} {off : BitVec 16} {b : Word} {e : Exc}
      (hd : dataAccess i = some (n, kind, base, off)) (hb : s.readReg .other base = .ok b)
      (hs : kind = .write ∨ ReadsSources s i)
      (he : s.checkAccess (baseOffset b off) n kind = .error (.raise e)) :
      ExecCase s i (raiseException s.instrAddr e)
  | pcxRefused {k : Fin 8} (hr : (Use.source, Reg.upper k) ∈ fieldUses i)
      (hk : s.cfg.pcxRegnum = some k) : ExecCase s i (.refused (.pcxRead (.upper k)))
  | computed {d : Reg} {v : Word} (hd : destination i = some d) (hw : writesFlags i = true)
      (hs : ReadsSources s i) :
      ExecCase s i (.next ((s.putReg d v).setZ v))
  | loaded {d : Reg} {v : Word} (hd : destination i = some d) (hw : writesFlags i = false)
      (hs : ReadsSources s i) :
      ExecCase s i (.next (s.putReg d v))
  | stored {n : Size} {base : Reg} {off : BitVec 16} {b v : Word}
      (hd : dataAccess i = some (n, .write, base, off)) (hb : s.readReg .other base = .ok b)
      (hs : ReadsSources s i) : ExecCase s i (.next (s.putValue (baseOffset b off) v n))
  | jumped {u : State} {target : Word} (hj : isJump i = true) (hu : u = s ∨ u = s.spendCondition) :
      ExecCase s i (.next { u with pcx := target })
  | compared {a b : Reg} {x y : Word} (hi : i = .cmp a b) (hs : ReadsSources s i) :
      ExecCase s i (.next (s.setCmp x y))
  | entered {code : BitVec 8} {h : Word} (hi : i = .int code) (hn : s.saved = none)
      (hl : s.idtLookup code = .handler h) : ExecCase s i (.next (s.interruptEntry h))
  | lookupMisaligned {code : BitVec 8} {a : Word} (hi : i = .int code) (hn : s.saved = none)
      (hl : s.idtLookup code = .alignmentFault a) :
      ExecCase s i (raiseException s.instrAddr (.alignmentFault a))
  | lookupInaccessible {code : BitVec 8} {a : Word} (hi : i = .int code) (hn : s.saved = none)
      (hl : s.idtLookup code = .memoryAccessViolation a) :
      ExecCase s i (raiseException s.instrAddr (.memoryAccessViolation a))
  | nestedRefused {code : BitVec 8} {c : Saved} (hi : i = .int code) (hn : s.saved = some c) :
      ExecCase s i (.refused .nestedInterrupt)
  | returned {c : Saved} (hi : i = .irt) (hc : s.saved = some c) :
      ExecCase s i (.next (s.interruptReturn c).freeFlags)
  | bareRefused (hi : i = .irt) (hn : s.saved = none) : ExecCase s i (.refused .noSavedContext)
  | idled (hi : i = .nop) : ExecCase s i (.next s)
  | halted (hi : i = .hlt) : ExecCase s i (.next { s with halted := true })

/-! ### The operands of an instruction whose fields pass their checks -/

section
variable {s : State} {i : Instr} {fs : List (Use × Reg)}

theorem checkFields_error_raises {e : Stop} (h : s.checkFields fs = .error e) : ∃ x, e = .raise x := by
  rcases checkFields_error h with ⟨-, rfl⟩ | ⟨-, f, -, -, rfl⟩
  · exact ⟨_, rfl⟩
  · exact ⟨_, rfl⟩

/-- What the checks of an access answer otherwise, in their order. -/
theorem checkAccess_error {a : Word} {n : Size} {kind : AccessKind} {e : Stop}
    (h : s.checkAccess a n kind = .error e) :
    (a.toNat % n.bytes ≠ 0 ∧ e = .raise (.alignmentFault a)) ∨
    (a.toNat % n.bytes = 0 ∧ s.accessible a n kind = false ∧
      e = .raise (.memoryAccessViolation a)) := by
  by_cases hal : a.toNat % n.bytes = 0
  · cases hacc : s.accessible a n kind with
    | true => cases (checkAccess_of_accessible hal hacc).symm.trans h
    | false =>
      have he := checkAccess_of_inaccessible hal hacc
      exact .inr ⟨hal, rfl, Except.error.inj (h.symm.trans he)⟩
  · exact .inl ⟨hal, Except.error.inj (h.symm.trans (checkAccess_of_misaligned kind hal))⟩

theorem checkAccess_error_raises {a : Word} {n : Size} {kind : AccessKind} {e : Stop}
    (h : s.checkAccess a n kind = .error e) : ∃ x, e = .raise x := by
  rcases checkAccess_error h with ⟨-, rfl⟩ | ⟨-, -, rfl⟩
  · exact ⟨_, rfl⟩
  · exact ⟨_, rfl⟩

theorem legal_of_checkFields {u : Use} {r : Reg} (h : s.checkFields fs = .ok ()) (hr : (u, r) ∈ fs) :
    r.legal s.cfg.pcxRegnum = true :=
  (checkFields_ok_iff.mp h _ hr).1

theorem protects_of_checkFields {u : Use} {r : Reg} (h : s.checkFields fs = .ok ()) (hr : (u, r) ∈ fs) :
    s.protects u r = false :=
  (checkFields_ok_iff.mp h _ hr).2

/-- A checked source field reads as a value, or it is pcx and the read is refused. -/
theorem readReg_of_checkFields {r : Reg} (h : s.checkFields fs = .ok ()) (hr : (Use.source, r) ∈ fs) :
    (∃ v, s.readReg .other r = .ok v) ∨
      ∃ k, r = .upper k ∧ s.cfg.pcxRegnum = some k ∧
        s.readReg .other r = .error (.refuse (.pcxRead (.upper k))) := by
  rcases readReg_of_checked (legal_of_checkFields h hr) (protects_of_checkFields h hr) with
    hv | ⟨⟨k, rfl, hk⟩, he⟩
  · exact .inl hv
  · exact .inr ⟨k, rfl, hk, he⟩

/-- A checked base of a jump reads as a value, pcx included. -/
theorem readReg_jumpBase_of_checkFields {r : Reg} (h : s.checkFields fs = .ok ())
    (hr : (Use.source, r) ∈ fs) : ∃ v, s.readReg .jumpBase r = .ok v := by
  have hp := protects_of_checkFields h hr
  have hl := legal_of_checkFields h hr
  cases r with
  | cell c =>
    have hm : s.mayName c = true := by simpa [State.protects] using hp
    exact ⟨s.get c, if_pos hm⟩
  | zero => exact ⟨0, rfl⟩
  | noreg => cases hl
  | upper k => exact ⟨s.pcx, if_pos (of_decide_eq_true hl)⟩

/-! ### Shape by shape -/

/-- A source field that is refused refuses the instruction. -/
theorem execCase_of_refused {r : Reg} {o : Out} {k : Fin 8} (hr : (Use.source, r) ∈ fieldUses i)
    (hrk : r = .upper k) (hk : s.cfg.pcxRegnum = some k)
    (ho : o = outcome s.instrAddr (.error (.refuse (.pcxRead (.upper k))))) : ExecCase s i o := by
  subst ho hrk
  exact .pcxRefused hr hk

theorem unaryOp_case {f : Word → Word} {a d : Reg}
    (hi : fieldUses i = [(.source, a), (.destination, d)]) (hd : destination i = some d)
    (hw : writesFlags i = true) (h : s.checkFields (fieldUses i) = .ok ()) :
    ExecCase s i (unaryOp f a d s) := by
  have ha : (Use.source, a) ∈ fieldUses i := by simp [hi]
  have hc := hi ▸ h
  rcases readReg_of_checkFields h ha with ⟨x, hx⟩ | ⟨k, hak, hk, hx⟩
  · rw [unaryOp_of_checked hc hx]
    exact .computed hd hw (by simp [ReadsSources, hi, hx])
  · exact execCase_of_refused ha hak hk (by simp only [unaryOp, hc, hx, ok_bind, error_bind])

theorem binaryOp_case {f : Word → Word → Word} {a b d : Reg}
    (hi : fieldUses i = [(.source, a), (.source, b), (.destination, d)])
    (hd : destination i = some d) (hw : writesFlags i = true)
    (h : s.checkFields (fieldUses i) = .ok ()) : ExecCase s i (binaryOp f a b d s) := by
  have ha : (Use.source, a) ∈ fieldUses i := by simp [hi]
  have hb : (Use.source, b) ∈ fieldUses i := by simp [hi]
  have hc := hi ▸ h
  rcases readReg_of_checkFields h ha with ⟨x, hx⟩ | ⟨k, hak, hk, hx⟩
  · rcases readReg_of_checkFields h hb with ⟨y, hy⟩ | ⟨k, hbk, hk, hy⟩
    · rw [binaryOp_of_checked hc hx hy]
      exact .computed hd hw (by simp [ReadsSources, hi, hx, hy])
    · exact execCase_of_refused hb hbk hk (by simp only [binaryOp, hc, hx, hy, ok_bind, error_bind])
  · exact execCase_of_refused ha hak hk (by simp only [binaryOp, hc, hx, ok_bind, error_bind])

theorem shiftRegOp_case {f : Word → BitVec 5 → Word} {r n : Reg}
    (hi : fieldUses i = [(.source, n), (.source, r), (.destination, r)])
    (hd : destination i = some r) (hw : writesFlags i = true)
    (h : s.checkFields (fieldUses i) = .ok ()) : ExecCase s i (shiftRegOp f r n s) := by
  have hn : (Use.source, n) ∈ fieldUses i := by simp [hi]
  have hr : (Use.source, r) ∈ fieldUses i := by simp [hi]
  have hc := hi ▸ h
  rcases readReg_of_checkFields h hn with ⟨y, hy⟩ | ⟨k, hnk, hk, hy⟩
  · rcases readReg_of_checkFields h hr with ⟨x, hx⟩ | ⟨k, hrk, hk, hx⟩
    · rw [shiftRegOp_of_checked hc hy hx]
      exact .computed hd hw (by simp [ReadsSources, hi, hx, hy])
    · exact execCase_of_refused hr hrk hk (by simp only [shiftRegOp, hc, hx, hy, ok_bind, error_bind])
  · exact execCase_of_refused hn hnk hk (by simp only [shiftRegOp, hc, hy, ok_bind, error_bind])

theorem loadOp_case {n : Size} {ext : Word → Word} {base d : Reg} {off : BitVec 16}
    (hi : fieldUses i = [(.source, base), (.destination, d)]) (hd : destination i = some d)
    (hw : writesFlags i = false) (ha : dataAccess i = some (n, .read, base, off))
    (h : s.checkFields (fieldUses i) = .ok ()) : ExecCase s i (loadOp n ext base d off s) := by
  have hbase : (Use.source, base) ∈ fieldUses i := by simp [hi]
  have hc := hi ▸ h
  rcases readReg_of_checkFields h hbase with ⟨b, hb⟩ | ⟨k, hbk, hk, hb⟩
  · have hs : ReadsSources s i := by simp [ReadsSources, hi, hb]
    cases he : s.checkAccess (baseOffset b off) n .read with
    | ok u =>
      rw [loadOp_of_checked hc hb he]
      exact .loaded hd hw hs
    | error e =>
      obtain ⟨x, rfl⟩ := checkAccess_error_raises he
      rw [loadOp_of_checkAccess_error hc hb he]
      exact .accessFault ha hb (.inr hs) he
  · exact execCase_of_refused hbase hbk hk (by simp only [loadOp, hc, hb, ok_bind, error_bind])

theorem storeOp_case {n : Size} {src base : Reg} {off : BitVec 16}
    (hi : fieldUses i = [(.source, src), (.source, base)])
    (ha : dataAccess i = some (n, .write, base, off)) (h : s.checkFields (fieldUses i) = .ok ()) :
    ExecCase s i (storeOp n src base off s) := by
  have hsrc : (Use.source, src) ∈ fieldUses i := by simp [hi]
  have hbase : (Use.source, base) ∈ fieldUses i := by simp [hi]
  have hc := hi ▸ h
  rcases readReg_of_checkFields h hbase with ⟨b, hb⟩ | ⟨k, hbk, hk, hb⟩
  · cases he : s.checkAccess (baseOffset b off) n .write with
    | ok u =>
      rcases readReg_of_checkFields h hsrc with ⟨v, hv⟩ | ⟨k, hvk, hk, hv⟩
      · rw [storeOp_of_checked hc hb he hv]
        exact .stored ha hb (by simp [ReadsSources, hi, hb, hv])
      · exact execCase_of_refused hsrc hvk hk
          (by simp only [storeOp, hc, hb, he, hv, ok_bind, error_bind])
    | error e =>
      obtain ⟨x, rfl⟩ := checkAccess_error_raises he
      rw [storeOp_of_checkAccess_error hc hb he]
      exact .accessFault ha hb (.inl rfl) he
  · exact execCase_of_refused hbase hbk hk (by simp only [storeOp, hc, hb, ok_bind, error_bind])

theorem jumpOp_case {cond : Bool} {base : Reg} {off : BitVec 16} {u : State} (hj : isJump i = true)
    (hu : u = s ∨ u = s.spendCondition) (h : u.checkFields [(.source, base)] = .ok ()) :
    ExecCase s i (jumpOp cond base off u) := by
  obtain ⟨b, hb⟩ := readReg_jumpBase_of_checkFields h List.mem_cons_self
  rw [jumpOp_of_checked h hb]
  cases cond with
  | true => exact .jumped hj hu
  | false => exact .jumped (target := u.pcx) hj hu

theorem execLli_case {v : BitVec 16} {d : Reg}
    (h : s.checkFields (fieldUses (.lli v d)) = .ok ()) : ExecCase s (.lli v d) (execLli v d s) := by
  rw [execLli_of_checked h]
  exact .loaded rfl rfl (by simp [ReadsSources, fieldUses])

theorem execLui_case {v : BitVec 16} {d : Reg}
    (h : s.checkFields (fieldUses (.lui v d)) = .ok ()) : ExecCase s (.lui v d) (execLui v d s) := by
  have hc : s.checkFields [(.source, d), (.destination, d)] = .ok () := h
  have hd : (Use.source, d) ∈ fieldUses (.lui v d) := by simp [fieldUses]
  rcases readReg_of_checkFields h hd with ⟨x, hx⟩ | ⟨k, hdk, hk, hx⟩
  · rw [execLui_of_checked h hx]
    exact .loaded rfl rfl (by simp [ReadsSources, fieldUses, hx])
  · exact execCase_of_refused hd hdk hk (by simp only [execLui, hc, hx, ok_bind, error_bind])

theorem execCmp_case {a b : Reg} (h : s.checkFields (fieldUses (.cmp a b)) = .ok ()) :
    ExecCase s (.cmp a b) (execCmp a b s) := by
  have hc : s.checkFields [(.source, a), (.source, b)] = .ok () := h
  have ha : (Use.source, a) ∈ fieldUses (.cmp a b) := by simp [fieldUses]
  have hb : (Use.source, b) ∈ fieldUses (.cmp a b) := by simp [fieldUses]
  rcases readReg_of_checkFields h ha with ⟨x, hx⟩ | ⟨k, hak, hk, hx⟩
  · rcases readReg_of_checkFields h hb with ⟨y, hy⟩ | ⟨k, hbk, hk, hy⟩
    · rw [execCmp_of_checked h hx hy]
      exact .compared rfl (by simp [ReadsSources, fieldUses, hx, hy])
    · exact execCase_of_refused hb hbk hk (by simp only [execCmp, hc, hx, hy, ok_bind, error_bind])
  · exact execCase_of_refused ha hak hk (by simp only [execCmp, hc, hx, ok_bind, error_bind])

theorem execInt_case (code : BitVec 8) : ExecCase s (.int code) (execInt code s) := by
  unfold execInt
  split
  next c hs => exact .nestedRefused rfl hs
  next hs =>
    split
    next h hl => exact .entered rfl hs hl
    next a hl => exact .lookupMisaligned rfl hs hl
    next a hl => exact .lookupInaccessible rfl hs hl

theorem execIrt_case : ExecCase s .irt (execIrt s) := by
  unfold execIrt
  split
  next hs => exact .bareRefused rfl hs
  next c hs => exact .returned rfl hs

end

/-- Everything an instruction can do, in any state. -/
theorem exec_case (i : Instr) (s : State) : ExecCase s i (exec i s) := by
  cases h : s.checkFields (fieldUses i) with
  | error e =>
    obtain ⟨x, rfl⟩ := checkFields_error_raises h
    rw [exec_of_checkFields_error h]
    exact .fieldFault h
  | ok u =>
    cases i with
    | nop => exact .idled rfl
    | hlt => exact .halted rfl
    | mov | movs | not | inc | dec | shlLit | shrLit | iadd | isub => exact unaryOp_case rfl rfl rfl h
    | add | sub | and | or | xor | nand | nor | xnor => exact binaryOp_case rfl rfl rfl h
    | shlReg | shrReg => exact shiftRegOp_case rfl rfl rfl h
    | ldb | ldbs | ldh | ldhs | ldw => exact loadOp_case rfl rfl rfl rfl h
    | stb | sth | stw => exact storeOp_case rfl rfl h
    | lli => exact execLli_case h
    | lui => exact execLui_case h
    | jmp | jeq | jne | jgt | jlt => exact jumpOp_case rfl (.inl rfl) h
    | jge | jle => exact jumpOp_case rfl (.inr rfl) h
    | cmp => exact execCmp_case h
    | int code => exact execInt_case code
    | irt => exact execIrt_case

end Sys2Proof.Machine
end

section
/-! What an instruction and a step leave unchanged, and the invariant of the machine, read off the cases
of `exec` (30_encoding.md section 5; 10_state.md R28, R35 to R38). -/

namespace Sys2Proof.Machine

/-! ### Next states -/

/-- What reads as an operand is the value that the rules give it. -/
theorem sourceValue_of_readReg {s : State} {r : Reg} {v : Word} (h : s.readReg .other r = .ok v) :
    s.sourceValue r = some v := by
  rcases readReg_ok_iff.mp h with ⟨c, rfl, hm, rfl⟩ | ⟨rfl, rfl⟩ | ⟨k, -, -, hk, -⟩
  · exact if_pos ((mayName_eq_reachable s c).symm.trans hm)
  · rfl
  · cases hk

/-- The case of an instruction that completes. -/
theorem execCase_of_next {i : Instr} {s t : State} (h : exec i s = .next t) : ExecCase s i (.next t) :=
  h ▸ exec_case i s

/-- The fields of an instruction that completes have passed their checks. -/
theorem checkFields_of_next {i : Instr} {s t : State} (h : exec i s = .next t) :
    s.checkFields (fieldUses i) = .ok () := by
  cases hc : s.checkFields (fieldUses i) with
  | ok u => rfl
  | error e =>
    rw [exec_of_checkFields_error hc, outcome_next_iff] at h
    cases h

theorem get_setZ (s : State) (v : Word) (c : Cell) : (s.setZ v).get c = s.get c := rfl

theorem get_putValue (s : State) (a v : Word) (n : Size) (c : Cell) :
    (s.putValue a v n).get c = s.get c := by
  rw [State.get_def, State.putValue_regs, State.get_def]

theorem get_interruptEntry_ne {s : State} {h : Word} {c : Cell} (hr : c ≠ .ret) (hb : c ≠ .bpr) :
    (s.interruptEntry h).get c = s.get c := by
  rw [State.get_def, State.interruptEntry_regs, RegFile.get_set_ne _ _ hb, RegFile.get_set_ne _ _ hr,
    State.get_def]

theorem get_interruptReturn_ne {s : State} {k : Saved} {c : Cell} (hb : c ≠ .bpr) :
    (s.interruptReturn k).get c = s.get c := by
  rw [State.get_def, State.interruptReturn_regs, RegFile.get_set_ne _ _ hb, State.get_def]

/-- Settles O48: a computed or loaded value goes to the destination; INT writes ret and bpr, IRT bpr; no
other case writes a cell. -/
theorem onlyDestinationsChange : Obligations.OnlyDestinationsChange := by
  intro i s t c hexec hne
  cases execCase_of_next hexec with
  | computed hd | loaded hd =>
    refine .inl ?_
    by_contra hc
    refine hne ?_
    simp only [get_setZ, State.get_putReg]
    exact if_neg fun e => hc (hd.trans (congrArg _ e))
  | stored => exact absurd (get_putValue ..) hne
  | jumped hj hu => rcases hu with rfl | rfl <;> exact absurd rfl hne
  | compared => exact absurd rfl hne
  | entered hi =>
    refine .inr (.inl ⟨hi ▸ rfl, ?_⟩)
    by_contra hc
    rw [not_or] at hc
    exact hne (get_interruptEntry_ne hc.1 hc.2)
  | returned hi =>
    refine .inr (.inr ⟨hi, ?_⟩)
    by_contra hc
    exact hne (get_interruptReturn_ne hc)
  | idled => exact absurd rfl hne
  | halted => exact absurd rfl hne

/-- Settles O49: of all cases only the store writes memory, and `putValue` writes no byte outside its
own. -/
theorem memoryChangesOnlyWhereStored : Obligations.MemoryChangesOnlyWhereStored := by
  intro i s t x hexec hout
  cases execCase_of_next hexec with
  | stored hd hb =>
    exact State.byteAt_putValue_ne s _ _ (hout _ _ _ _ hd (sourceValue_of_readReg hb))
  | computed | loaded => simp only [State.byteAt, State.setZ_mem, State.putReg_mem]
  | jumped hj hu => rcases hu with rfl | rfl <;> rfl
  | compared | entered | returned | idled | halted => rfl

/-! ### Flags -/

theorem writesFlags_of_write {i : Instr} {n : Size} {base : Reg} {off : BitVec 16}
    (h : dataAccess i = some (n, .write, base, off)) : writesFlags i = false := by
  cases i with
  | stb | sth | stw => rfl
  | _ => cases h

theorem writesFlags_of_isJump {i : Instr} (h : isJump i = true) : writesFlags i = false := by
  cases i with
  | jmp | jeq | jne | jgt | jge | jlt | jle => rfl
  | _ => cases h

theorem ne_cmp_of_destination {i : Instr} {d : Reg} (h : destination i = some d) :
    ¬ ∃ a b, i = .cmp a b := by
  rintro ⟨a, b, rfl⟩
  cases h

/-- A case that writes no flag, for an instruction that writes none. -/
theorem flags_of_silent {i : Instr} {s t : State} (hw : writesFlags i = false) (hf : SameFlags s t) :
    (writesFlags i = false → SameFlags s t) ∧
      (writesFlags i = true → (t.flagsUnspecified = false ↔ ∃ a b, i = .cmp a b)) ∧
      t.sts.reserved = s.sts.reserved :=
  ⟨fun _ => hf, fun h => absurd h (by simp [hw]), by rw [hf.1]⟩

/-- Settles O50: the computed results end in `SetZ`, CMP in `SetCmp` and IRT in free flags; the other cases
leave STS alone, and none of them belongs to an instruction that writes flags. -/
theorem onlyFlagWritersChangeSts : Obligations.OnlyFlagWritersChangeSts := by
  intro i s t hexec
  cases execCase_of_next hexec with
  | computed hd hw =>
    refine ⟨fun h => absurd h (by simp [hw]), fun _ => ?_, by simp⟩
    simp [ne_cmp_of_destination hd]
  | compared hi =>
    subst hi
    exact ⟨nofun, fun _ => ⟨fun _ => ⟨_, _, rfl⟩, fun _ => rfl⟩, rfl⟩
  | returned hi =>
    subst hi
    exact ⟨nofun, fun _ => ⟨nofun, nofun⟩, rfl⟩
  | loaded _ hw => exact flags_of_silent hw ⟨State.putReg_sts .., State.putReg_flagsUnspecified ..⟩
  | stored hd =>
    exact flags_of_silent (writesFlags_of_write hd)
      ⟨State.putValue_sts .., State.putValue_flagsUnspecified ..⟩
  | jumped hj hu =>
    refine flags_of_silent (writesFlags_of_isJump hj) ?_
    rcases hu with rfl | rfl <;> exact ⟨rfl, rfl⟩
  | entered hi | idled hi | halted hi =>
    subst hi
    exact flags_of_silent rfl ⟨rfl, rfl⟩

theorem exec_keeps_reserved {i : Instr} {s t : State} (h : exec i s = .next t) :
    t.sts.reserved = s.sts.reserved := by
  obtain ⟨-, -, hres⟩ := onlyFlagWritersChangeSts i s t h
  exact hres

/-! ### Control -/

/-- Settles O51: case by case; the results, loads and stores change registers, flags and memory only. -/
theorem controlStateChangesOnlyByItsInstructions :
    Obligations.ControlStateChangesOnlyByItsInstructions := by
  intro i s t hexec
  cases execCase_of_next hexec with
  | computed | loaded | stored | compared | idled => simp
  | jumped hj hu => rcases hu with rfl | rfl <;> simp [hj]
  | entered hi => simp [hi, isInt]
  | returned hi => simp [hi]
  | halted hi => simp [hi]

theorem exec_keeps_mode {i : Instr} {s t : State} (h : exec i s = .next t) (hint : isInt i = false)
    (hirt : i ≠ .irt) : t.mode = s.mode := by
  obtain ⟨-, hmode, -⟩ := controlStateChangesOnlyByItsInstructions i s t h
  exact (hmode hint hirt).1

/-! ### The step -/

section
variable {s : State}

theorem step_of_halted (h : s.halted = true) : step s = .fault .halted := if_pos h

theorem step_of_fetch_error {e : Exc} (hh : s.halted = false)
    (he : s.checkAccess s.pcx .word .fetch = .error (.raise e)) : step s = raiseException s.pcx e := by
  rw [step, if_neg (by simp [hh])]
  simp only [State.fetch, State.memRead, he, error_bind]

theorem step_of_decode_ok {i : Instr} (hf : s.fetches = true)
    (hd : decodeWord s.cfg.pcxRegnum (wordOfBytes (s.byteAt s.pcx) (s.byteAt (s.pcx + 1))
      (s.byteAt (s.pcx + 2)) (s.byteAt (s.pcx + 3))) = .ok i) :
    step s = exec i { s with pcx := s.pcx + 4 } := by
  obtain ⟨hh, -, -⟩ := fetches_iff.mp hf
  rw [step, if_neg (by simp [hh]), fetch_of_fetches hf]
  simp only [hd]

/-- Everything a step can do: the halted machine has none, the fetch or the decoding raises at PCX, or the
instruction at PCX runs. -/
theorem step_cases (s : State) :
    (s.halted = true ∧ step s = .fault .halted) ∨
    (s.halted = false ∧ ∃ e, step s = raiseException s.pcx e) ∨
    (s.fetches = true ∧ ∃ i, s.current = some i ∧ step s = exec i { s with pcx := s.pcx + 4 }) := by
  by_cases hhalt : s.halted = true
  · exact .inl ⟨hhalt, step_of_halted hhalt⟩
  · have hh : s.halted = false := Bool.eq_false_of_not_eq_true hhalt
    cases hc : s.checkAccess s.pcx .word .fetch with
    | error e =>
      obtain ⟨x, rfl⟩ := checkAccess_error_raises hc
      exact .inr (.inl ⟨hh, x, step_of_fetch_error hh hc⟩)
    | ok u =>
      obtain ⟨hal, hacc⟩ := checkAccess_ok_iff.mp hc
      have hf : s.fetches = true := fetches_iff.mpr ⟨hh, aligned_iff.mp hal, hacc⟩
      cases hd : decodeWord s.cfg.pcxRegnum (wordOfBytes (s.byteAt s.pcx) (s.byteAt (s.pcx + 1))
          (s.byteAt (s.pcx + 2)) (s.byteAt (s.pcx + 3))) with
      | error e => exact .inr (.inl ⟨hh, .illegalInstruction, step_of_decode_error hf hd⟩)
      | ok i => exact .inr (.inr ⟨hf, i, by rw [State.current, hd], step_of_decode_ok hf hd⟩)

/-- A step that completes ran the instruction at PCX. -/
theorem step_next {t : State} (h : step s = .next t) :
    ∃ i, s.current = some i ∧ exec i { s with pcx := s.pcx + 4 } = .next t := by
  rcases step_cases s with ⟨-, hs⟩ | ⟨-, e, hs⟩ | ⟨-, i, hi, hs⟩
  · cases hs.symm.trans h
  · cases hs.symm.trans h
  · exact ⟨i, hi, hs.symm.trans h⟩

end

/-! ### The invariant -/

theorem inv_withPcx {s : State} (h : s.Inv) (a : Word) : State.Inv { s with pcx := a } := h

/-- Every instruction keeps the invariant: a store keeps memory canonical, no case writes STS[31:6], and a
context is saved only with the entry to Kernel mode. -/
theorem exec_keeps_inv {i : Instr} {s t : State} (h : s.Inv) (hexec : exec i s = .next t) : t.Inv := by
  obtain ⟨hmem, hres, hsaved⟩ := h
  have hres' : t.sts.reserved = 0 := (exec_keeps_reserved hexec).trans hres
  cases execCase_of_next hexec with
  | computed | loaded => exact ⟨by simpa using hmem, hres', by simpa using hsaved⟩
  | stored => exact ⟨State.wf_putValue _ _ _ hmem, hres', by simpa using hsaved⟩
  | jumped hj hu => rcases hu with rfl | rfl <;> exact ⟨hmem, hres, hsaved⟩
  | compared | idled | halted => exact ⟨hmem, hres, hsaved⟩
  | entered => exact ⟨hmem, hres, fun _ => rfl⟩
  | returned => exact ⟨hmem, hres, nofun⟩

/-- Settles O52: the step that completes is an instruction's, and moving PCX past the word keeps the
invariant. -/
theorem stepKeepsTheInvariant : Obligations.StepKeepsTheInvariant := by
  intro s t hinv hstep
  obtain ⟨i, -, hexec⟩ := step_next hstep
  exact exec_keeps_inv (inv_withPcx hinv _) hexec

/-- Settles O53: memory is the given one, STS is 0 and nothing is saved. -/
theorem resetHasTheInvariant : Obligations.ResetHasTheInvariant := by
  have hboot : ∀ cfg regs mem, Memory.wf mem = true → (State.boot cfg regs mem).Inv :=
    fun _ _ _ h => ⟨h, rfl, nofun⟩
  exact ⟨hboot _ _ [] rfl, hboot⟩

/-! ### User mode -/

theorem protects_privileged {s : State} {u : Use} {c : Cell} (hm : s.mode = .user)
    (hc : c = .idr ∨ c = .mmr) : s.protects u (.cell c) = true :=
  protects_iff.mpr (.inl ⟨hm, hc.imp (congrArg _) (congrArg _)⟩)

/-- In User mode no instruction writes idr or mmr: a destination would be protected, and the entry and
return of an interrupt write ret and bpr only. -/
theorem exec_keeps_privileged {i : Instr} {s t : State} {c : Cell} (hm : s.mode = .user)
    (hc : c = .idr ∨ c = .mmr) (hexec : exec i s = .next t) : t.get c = s.get c := by
  by_contra hne
  rcases onlyDestinationsChange i s t c hexec hne with hd | ⟨-, hcell⟩ | ⟨-, hcell⟩
  · have hfield := destination_mem_fieldUses_iff.mpr hd
    have hopen := protects_of_checkFields (checkFields_of_next hexec) hfield
    exact Bool.false_ne_true (hopen.symm.trans (protects_privileged hm hc))
  · rcases hc with rfl | rfl <;> rcases hcell with h | h <;> cases h
  · rcases hc with rfl | rfl <;> cases hcell

/-- Settles O56: a step is an instruction's, and moving PCX touches no register. -/
theorem userModeCannotChangeIdrOrMmr : Obligations.UserModeCannotChangeIdrOrMmr := by
  intro s t hm hstep
  obtain ⟨i, -, hexec⟩ := step_next hstep
  have hkeep : ∀ c, c = .idr ∨ c = .mmr → t.get c = s.get c := fun c hc =>
    exec_keeps_privileged (s := { s with pcx := s.pcx + 4 }) hm hc hexec
  exact ⟨hkeep .idr (.inl rfl), hkeep .mmr (.inr rfl)⟩

theorem isInt_iff {i : Instr} : isInt i = true ↔ ∃ code, i = .int code := by
  constructor
  · intro h
    cases i with
    | int code => exact ⟨code, rfl⟩
    | _ => cases h
  · rintro ⟨code, rfl⟩
    rfl

/-- The lookup finds a handler exactly where its reads are accessible and the parameter's answer is one. -/
theorem tableReadable_of_handler {s : State} {code : BitVec 8} {h : Word}
    (hl : s.idtLookup code = .handler h) :
    s.TableReadable code ∧ (s.tableLookup code).result = .handler h := by
  rcases idtLookup_cases s code with ⟨r, -, -, he⟩ | ⟨hread, he⟩
  · cases he.symm.trans hl
  · exact ⟨hread, he.symm.trans hl⟩

/-- Settles O57: only INT and IRT change the mode, IRT has no context to spend in User mode, and INT goes
to the handler of its lookup, whose reads do not look at PCX. -/
theorem userModeIsLeftOnlyByInt : Obligations.UserModeIsLeftOnlyByInt := by
  intro s t hinv hm hstep hk
  obtain ⟨i, hi, hexec⟩ := step_next hstep
  have hirt : i ≠ .irt := by
    rintro rfl
    obtain ⟨c, hc, -⟩ := execIrt_next hexec
    have hc' : s.saved = some c := hc
    obtain ⟨-, -, hsaved⟩ := hinv
    have hkernel : s.mode = .kernel := hsaved (by rw [hc']; rfl)
    cases hm.symm.trans hkernel
  have hint : isInt i = true := by
    by_contra hno
    have hmode := exec_keeps_mode hexec (Bool.eq_false_of_not_eq_true hno) hirt
    cases (hmode.trans hm).symm.trans hk
  obtain ⟨code, rfl⟩ := isInt_iff.mp hint
  obtain ⟨-, w, hl, rfl⟩ := execInt_next hexec
  exact ⟨code, hi, tableReadable_of_handler (s := { s with pcx := s.pcx + 4 }) hl⟩

end Sys2Proof.Machine
end

section
/-! Why an instruction and a step stop: the exceptions with their reasons, read off the cases of `exec`,
and the refusals (60_exceptions.md R230 to R236; 10_state.md R30). -/

namespace Sys2Proof.Machine

/-! ### The reasons of a fault -/

theorem raiseException_eq_fault_iff {a : Word} {e : Exc} {f : Fault} :
    raiseException a e = .fault f ↔ f = e.toFault a :=
  ⟨fun h => (Host.Outcome.fault.inj h).symm, fun h => by rw [h]; rfl⟩

theorem address_toFault (a : Word) (e : Exc) : (e.toFault a).address = some a := by
  cases e <;> rfl

/-- An instruction that faults raises the exception of its register fields, of its data access, or of the
lookup of INT, each at its own address. -/
theorem exec_fault {i : Instr} {s : State} {f : Fault} (h : exec i s = .fault f) :
    ∃ e : Exc, f = e.toFault s.instrAddr ∧
      (s.checkFields (fieldUses i) = .error (.raise e) ∨
      (∃ n kind base off b, dataAccess i = some (n, kind, base, off) ∧ s.sourceValue base = some b ∧
        s.checkAccess (baseOffset b off) n kind = .error (.raise e)) ∨
      ∃ code a, i = .int code ∧ s.saved = none ∧
        ((s.idtLookup code = .alignmentFault a ∧ e = .alignmentFault a) ∨
          (s.idtLookup code = .memoryAccessViolation a ∧ e = .memoryAccessViolation a))) := by
  have hcase := exec_case i s
  generalize exec i s = o at h hcase
  cases hcase with
  | fieldFault he => exact ⟨_, raiseException_eq_fault_iff.mp h, .inl he⟩
  | accessFault hd hb _ he =>
    exact ⟨_, raiseException_eq_fault_iff.mp h,
      .inr (.inl ⟨_, _, _, _, _, hd, sourceValue_of_readReg hb, he⟩)⟩
  | lookupMisaligned hi hn hl =>
    exact ⟨_, raiseException_eq_fault_iff.mp h, .inr (.inr ⟨_, _, hi, hn, .inl ⟨hl, rfl⟩⟩)⟩
  | lookupInaccessible hi hn hl =>
    exact ⟨_, raiseException_eq_fault_iff.mp h, .inr (.inr ⟨_, _, hi, hn, .inr ⟨hl, rfl⟩⟩)⟩
  | pcxRefused | computed | loaded | stored | jumped | compared | entered | nestedRefused | returned
  | bareRefused | idled | halted => cases h

/-- Settles O45: a fetch, a decoding and an instruction raise at PCX as it was when the step began. -/
theorem faultsReportTheInstructionAddress : Obligations.FaultsReportTheInstructionAddress := by
  intro s f hstep
  rcases step_cases s with ⟨hh, hs⟩ | ⟨hh, e, hs⟩ | ⟨hf, i, -, hs⟩
  · exact .inl ⟨hh, Host.Outcome.fault.inj (hstep.symm.trans hs)⟩
  · obtain rfl := raiseException_eq_fault_iff.mp (hs.symm.trans hstep)
    exact .inr ⟨hh, address_toFault s.pcx e⟩
  · obtain ⟨e, rfl, -⟩ := exec_fault (hs.symm.trans hstep)
    have haddr : State.instrAddr { s with pcx := s.pcx + 4 } = s.pcx := BitVec.add_sub_cancel s.pcx 4
    exact .inr ⟨(fetches_iff.mp hf).1, (address_toFault _ e).trans (congrArg some haddr)⟩

/-- What the checks of an instruction's fields raise, and on which register. -/
theorem checkFields_fieldUses_error {i : Instr} {s : State} {e : Exc}
    (h : s.checkFields (fieldUses i) = .error (.raise e)) :
    (e = .illegalInstruction ∧ i.wf s.cfg.pcxRegnum = false) ∨
    ∃ r, e = .protectionFault r ∧ r ∈ i.regs ∧
      ((s.mode = .user ∧ (r = .cell .idr ∨ r = .cell .mmr)) ∨
        (destination i = some r ∧ ∃ k, r = .upper k ∧ s.cfg.pcxRegnum = some k)) := by
  rcases checkFields_error h with ⟨⟨⟨u, r⟩, hf, hill⟩, he⟩ | ⟨hl, ⟨u, r⟩, hf, hp, he⟩
  · refine .inl ⟨Stop.raise.inj he, Bool.eq_false_of_not_eq_true fun hwf => ?_⟩
    exact Bool.false_ne_true (hill.symm.trans (legal_of_mem_fieldUses hwf _ hf))
  · refine .inr ⟨r, Stop.raise.inj he, mem_regs_iff_fieldUses.mpr ⟨u, hf⟩, ?_⟩
    rcases protects_iff.mp hp with huser | ⟨hu, k, hk⟩
    · exact .inl huser
    · dsimp only at hu hk
      subst hu hk
      exact .inr ⟨destination_mem_fieldUses_iff.mp hf, k, rfl, of_decide_eq_true (hl _ hf)⟩

/-- Settles O44: the exception is that of the fields, of the access or of the lookup, and each of these
checks says what it raises and why. -/
theorem instructionsRaiseOnlyTheirExceptions : Obligations.InstructionsRaiseOnlyTheirExceptions := by
  intro i s f hexec
  obtain ⟨e, rfl, hfields | ⟨n, kind, base, off, b, hd, hb, hacc⟩ | ⟨code, a, rfl, hn, hlookup⟩⟩ :=
    exec_fault hexec
  · rcases checkFields_fieldUses_error hfields with ⟨rfl, hwf⟩ | ⟨r, rfl, hr, hwhy⟩
    · exact hwf
    · exact ⟨hr, hwhy⟩
  · rcases checkAccess_error hacc with ⟨hmis, he⟩ | ⟨hal, hno, he⟩
    · obtain rfl := Stop.raise.inj he
      refine .inr ⟨n, kind, base, off, b, hd, ?_, hb, rfl, hmis⟩
      rintro rfl
      exact hmis (Nat.mod_one _)
    · obtain rfl := Stop.raise.inj he
      exact .inr ⟨n, kind, base, off, b, hd, hb, rfl, hal, hno⟩
  · rcases idtLookup_cases s code with ⟨r, hr, hno, hl⟩ | ⟨hread, hl⟩
    · rcases hlookup with ⟨ha, -⟩ | ⟨ha, rfl⟩
      · cases hl.symm.trans ha
      · obtain rfl := Lookup.memoryAccessViolation.inj (hl.symm.trans ha)
        exact .inl ⟨code, rfl, hn, .inl ⟨r, hr, rfl, hno⟩⟩
    · rcases hlookup with ⟨ha, rfl⟩ | ⟨ha, rfl⟩
      · exact .inl ⟨code, rfl, hn, hread, hl.symm.trans ha⟩
      · exact .inl ⟨code, rfl, hn, .inr ⟨hread, hl.symm.trans ha⟩⟩

/-! ### Illegal words and operands -/

/-- Settles O7: one of the fields is illegal, and the checks of the fields come first. -/
theorem illFormedOperandsRaiseIllegalInstruction :
    Obligations.IllFormedOperandsRaiseIllegalInstruction := by
  intro i s hwf
  obtain ⟨r, hr, hl⟩ : ∃ r ∈ i.regs, r.legal s.cfg.pcxRegnum = false := by
    simpa [Instr.wf] using hwf
  exact exec_of_illegal hr hl

/-- Settles O5: a word that decodes is the word of the well-formed instruction it decodes to. -/
theorem otherWordsRaiseIllegalInstruction : Obligations.OtherWordsRaiseIllegalInstruction := by
  rintro s w hf rfl hother
  cases hd : decodeWord s.cfg.pcxRegnum (wordOfBytes (s.byteAt s.pcx) (s.byteAt (s.pcx + 1))
      (s.byteAt (s.pcx + 2)) (s.byteAt (s.pcx + 3))) with
  | error e => exact step_of_decode_error hf hd
  | ok i => exact absurd (encode_of_decodeWord hd) (hother i (wf_of_decodeWord hd))

theorem wordOfBytes_toNat (b0 b1 b2 b3 : Byte) :
    (wordOfBytes b0 b1 b2 b3).toNat =
      b3.toNat * 2 ^ 24 + b2.toNat * 2 ^ 16 + b1.toNat * 2 ^ 8 + b0.toNat := by
  rw [wordOfBytes, toNat_append_add, toNat_append_add, toNat_append_add]
  omega

/-- R53: the opcode stands in the top six bits of the byte at the highest address. -/
theorem fieldOp_wordOfBytes (b0 b1 b2 b3 : Byte) :
    (fieldOp (wordOfBytes b0 b1 b2 b3)).toNat = b3.toNat / 4 := by
  have h0 := b0.isLt
  have h1 := b1.isLt
  have h2 := b2.isLt
  have h3 := b3.isLt
  rw [fieldOp, toNat_extract, wordOfBytes_toNat]
  omega

/-- R94: no opcode has a number from 0x27 on. -/
theorem ofNum_of_reserved {n : BitVec 6} (h : 0x27 ≤ n.toNat) : Opcode.ofNum n = none := by
  revert n
  decide

/-- Settles O6: the decoder finds no opcode. -/
theorem reservedOpcodesRaiseIllegalInstruction : Obligations.ReservedOpcodesRaiseIllegalInstruction := by
  intro s hf hop
  rw [← fieldOp_wordOfBytes (s.byteAt s.pcx) (s.byteAt (s.pcx + 1)) (s.byteAt (s.pcx + 2))] at hop
  refine step_of_decode_error (e := .reservedOpcode) hf ?_
  rw [decodeWord, ofNum_of_reserved hop]

/-! ### Protected registers -/

theorem checkFields_of_find? {s : State} {fs : List (Use × Reg)} {f : Use × Reg}
    (hl : ∀ f ∈ fs, f.2.legal s.cfg.pcxRegnum = true)
    (hf : fs.find? (fun f => s.protects f.1 f.2) = some f) :
    s.checkFields fs = .error (.raise (.protectionFault f.2)) := by
  rw [State.checkFields, if_pos (List.all_eq_true.mpr hl), hf]

/-- The destination is the last field an instruction's checks look at. -/
theorem fieldUses_eq_sources_append (i : Instr) :
    fieldUses i = (fieldUses i).filter (fun f => f.1 = .source) ++
      (destination i).toList.map (Prod.mk .destination) := by
  cases i <;> rfl

/-- Where a source is protected, the checks report a source. -/
theorem source_of_find?_protects {i : Instr} {s : State} {r : Reg} {f : Use × Reg}
    (hr : (Use.source, r) ∈ fieldUses i) (hp : s.protects .source r = true)
    (hf : (fieldUses i).find? (fun f => s.protects f.1 f.2) = some f) : f.1 = .source := by
  have hsome : ((fieldUses i).filter (fun f => f.1 = .source)).find? (fun f => s.protects f.1 f.2)
      |>.isSome := List.find?_isSome.mpr ⟨_, List.mem_filter.mpr ⟨hr, rfl⟩, hp⟩
  obtain ⟨g, hg⟩ := Option.isSome_iff_exists.mp hsome
  rw [fieldUses_eq_sources_append, List.find?_append, hg, Option.some_or] at hf
  obtain rfl := Option.some.inj hf
  simpa using (List.mem_filter.mp (List.mem_of_find?_eq_some hg)).2

/-- In User mode an instruction that names idr or mmr has its checks report one of them: pcx could only be
reported as the destination, which is checked after the sources. -/
theorem privileged_of_find?_protects {i : Instr} {s : State} {c : Cell} {f : Use × Reg}
    (hm : s.mode = .user) (hc : c = .idr ∨ c = .mmr) (hr : .cell c ∈ i.regs)
    (hf : (fieldUses i).find? (fun f => s.protects f.1 f.2) = some f) :
    f.2 = .cell .idr ∨ f.2 = .cell .mmr := by
  have hp : s.protects f.1 f.2 = true := by simpa using List.find?_some hf
  rcases protects_iff.mp hp with ⟨-, hpriv⟩ | ⟨hu, k, hk⟩
  · exact hpriv
  · obtain ⟨u, hcell⟩ := mem_regs_iff_fieldUses.mp hr
    have hdest : destination i = some f.2 := destination_mem_fieldUses_iff.mp
      (hu ▸ List.mem_of_find?_eq_some hf)
    cases u with
    | source => cases hu.symm.trans (source_of_find?_protects hcell (protects_privileged hm hc) hf)
    | destination =>
      have hsame := hdest.symm.trans (destination_mem_fieldUses_iff.mp hcell)
      cases hk.symm.trans (Option.some.inj hsame)

/-- Settles O38: the checks of the fields find a protected one, which is idr or mmr. -/
theorem userModeNamingIdrOrMmrFaults : Obligations.UserModeNamingIdrOrMmrFaults := by
  intro i s hwf hm hnamed
  obtain ⟨c, hc, hr⟩ : ∃ c, (c = .idr ∨ c = .mmr) ∧ Reg.cell c ∈ i.regs := by
    rcases hnamed with h | h
    · exact ⟨.idr, .inl rfl, h⟩
    · exact ⟨.mmr, .inr rfl, h⟩
  have hsome : ((fieldUses i).find? (fun f => s.protects f.1 f.2)).isSome = true :=
    List.find?_isSome.mpr ((exists_protects_iff hwf).mpr (.inl ⟨hm, hnamed⟩))
  obtain ⟨f, hf⟩ := Option.isSome_iff_exists.mp hsome
  have hexec := exec_of_checkFields_error (checkFields_of_find? (legal_of_mem_fieldUses hwf) hf)
  have hmem : f.2 ∈ i.regs := mem_regs_iff_fieldUses.mpr ⟨f.1, List.mem_of_find?_eq_some hf⟩
  rcases privileged_of_find?_protects hm hc hr hf with he | he
  · rw [he] at hmem hexec
    exact ⟨.idr, .inl rfl, hmem, hexec⟩
  · rw [he] at hmem hexec
    exact ⟨.mmr, .inr rfl, hmem, hexec⟩

/-- With every cell it names in reach, an instruction's protected fields are pcx as its destination. -/
theorem protects_of_reachable {i : Instr} {s : State} {f : Use × Reg}
    (hreach : ∀ c : Cell, .cell c ∈ i.regs → s.reachable c = true) (hf : f ∈ fieldUses i)
    (hp : s.protects f.1 f.2 = true) : f.1 = .destination ∧ ∃ k, f.2 = .upper k := by
  have hmem : f.2 ∈ i.regs := mem_regs_iff_fieldUses.mpr ⟨f.1, hf⟩
  have hcell : ∀ c, f.2 = .cell c → s.mayName c = true := fun c hc =>
    (mayName_eq_reachable s c).trans (hreach c (hc ▸ hmem))
  rcases protects_iff.mp hp with ⟨hm, hc | hc⟩ | hdest
  · exact absurd (hcell _ hc) (by rw [not_mayName_iff.mpr ⟨hm, .inl rfl⟩]; exact Bool.false_ne_true)
  · exact absurd (hcell _ hc) (by rw [not_mayName_iff.mpr ⟨hm, .inr rfl⟩]; exact Bool.false_ne_true)
  · exact hdest

/-- Settles O39: the destination is the one protected field. -/
theorem writingPcxFaults : Obligations.WritingPcxFaults := by
  intro i s k hwf hk hdest hreach
  obtain ⟨r, hr⟩ := (checkFields_protectionFault_iff (legal_of_mem_fieldUses hwf)).mpr
    ((exists_protects_iff hwf).mpr (.inr ⟨k, hk, hdest⟩))
  rcases checkFields_error hr with ⟨-, he⟩ | ⟨-, ⟨u, q⟩, hf, hp, he⟩
  · cases he
  · obtain ⟨hu, -⟩ := protects_of_reachable hreach hf hp
    dsimp only at hu
    subst hu
    obtain rfl : Reg.upper k = q :=
      Option.some.inj (hdest.symm.trans (destination_mem_fieldUses_iff.mp hf))
    rw [he] at hr
    exact exec_of_checkFields_error hr

/-! ### The refused read of pcx -/

/-- The fields of a well-formed instruction pass their checks where its cells are in reach and pcx is not
its destination. -/
theorem checkFields_of_reachable {i : Instr} {s : State} {k : Fin 8}
    (hwf : i.wf s.cfg.pcxRegnum = true) (hk : s.cfg.pcxRegnum = some k)
    (hdest : destination i ≠ some (.upper k))
    (hreach : ∀ c : Cell, .cell c ∈ i.regs → s.reachable c = true) :
    s.checkFields (fieldUses i) = .ok () := by
  have hl := legal_of_mem_fieldUses hwf
  refine checkFields_ok_iff.mpr fun f hf => ⟨hl f hf, Bool.eq_false_of_not_eq_true fun hp => ?_⟩
  obtain ⟨u, r⟩ := f
  obtain ⟨hu, j, hj⟩ := protects_of_reachable hreach hf hp
  dsimp only at hu hj
  subst hu hj
  have hkj : k = j := Option.some.inj (hk.symm.trans (of_decide_eq_true (hl _ hf)))
  exact hdest (hkj ▸ destination_mem_fieldUses_iff.mp hf)

theorem not_readsSources_of_pcx {i : Instr} {s : State} {k : Fin 8}
    (hr : (Use.source, Reg.upper k) ∈ fieldUses i) : ¬ ReadsSources s i := by
  intro hs
  obtain ⟨v, hv⟩ := hs _ hr
  cases sourceValue_of_readReg hv

/-- Settles O40: of all cases only the refusal is left: nothing raises, and every other case has read all
its sources. -/
theorem readingPcxElsewhereIsRefused : Obligations.ReadingPcxElsewhereIsRefused := by
  intro i s k hwf hk hmem hjump hdest hreach haccess
  have hfields := checkFields_of_reachable hwf hk hdest hreach
  obtain ⟨u, hu⟩ := mem_regs_iff_fieldUses.mp hmem
  have hsource : (Use.source, Reg.upper k) ∈ fieldUses i := by
    cases u with
    | source => exact hu
    | destination => exact absurd (destination_mem_fieldUses_iff.mp hu) hdest
  have hno := not_readsSources_of_pcx (s := s) hsource
  have hcase := exec_case i s
  generalize exec i s = o at hcase ⊢
  cases hcase with
  | fieldFault he => cases hfields.symm.trans he
  | accessFault hd hb hs he =>
    rcases hs with rfl | hs
    · obtain ⟨hal, hacc⟩ := haccess _ _ _ _ hd (sourceValue_of_readReg hb)
      cases (checkAccess_of_accessible hal hacc).symm.trans he
    · exact absurd hs hno
  | pcxRefused _ hj => rw [Option.some.inj (hk.symm.trans hj)]
  | computed _ _ hs | loaded _ _ hs | stored _ _ hs | compared _ hs => exact absurd hs hno
  | jumped hj => cases hjump.symm.trans hj
  | entered hi | lookupMisaligned hi | lookupInaccessible hi | nestedRefused hi | returned hi
  | bareRefused hi | idled hi | halted hi => subst hi; cases hsource

/-! ### Accesses that stop -/

/-- Settles O42: the second check of the access raises. -/
theorem inaccessibleAccessesFault : Obligations.InaccessibleAccessesFault := by
  intro i s n kind base off b hd hw hb hal hacc
  exact exec_of_checkAccess_error hd hw hb (checkAccess_of_inaccessible hal hacc)

theorem writable_of_sourceValue {s : State} {r : Reg} {v : Word} (h : s.sourceValue r = some v) :
    s.writable r = true := by
  cases r with
  | cell c =>
    obtain ⟨hc, -⟩ : s.reachable c = true ∧ s.get c = v := by simpa [State.sourceValue] using h
    exact hc
  | zero => rfl
  | noreg | upper => cases h

/-- A store of pcx: its access is checked, and only then is the read of pcx refused. -/
theorem storeOp_of_pcx {n : Size} {k : Fin 8} {base : Reg} {off : BitVec 16} {s : State} {b : Word}
    (hk : s.cfg.pcxRegnum = some k) (hb : s.sourceValue base = some b) :
    storeOp n (.upper k) base off s =
      if (baseOffset b off).toNat % n.bytes ≠ 0 then
        .fault (.alignmentFault (s.pcx - 4) (baseOffset b off))
      else if s.accessible (baseOffset b off) n .write = false then
        .fault (.memoryAccessViolation (s.pcx - 4) (baseOffset b off))
      else .refused (.pcxRead (.upper k)) := by
  have hw := writable_of_sourceValue hb
  have hl : (Reg.upper k).legal s.cfg.pcxRegnum = true := decide_eq_true hk
  have hp : s.protects .source (.upper k) = false := rfl
  have hc : s.checkFields [(.source, .upper k), (.source, base)] = .ok () := by
    simp [checkFields_ok_iff, hl, hp, legal_of_writable hw, protects_of_writable .source hw]
  have hread := readReg_of_sourceValue hb
  split
  next hmis => exact storeOp_of_checkAccess_error hc hread (checkAccess_of_misaligned .write hmis)
  next hal =>
    have hal' := of_not_not hal
    split
    next hno => exact storeOp_of_checkAccess_error hc hread (checkAccess_of_inaccessible hal' hno)
    next hacc =>
      have ha := checkAccess_of_accessible hal' (Bool.eq_true_of_not_eq_false hacc)
      have hpcx : s.readReg .other (.upper k) = .error (.refuse (.pcxRead (.upper k))) := if_pos hk
      simp only [storeOp, hc, hread, ha, hpcx, ok_bind, error_bind, outcome]

/-- Settles O43: the three stores are one operation. -/
theorem storeOfPcxRaisesItsAccessFirst : Obligations.StoreOfPcxRaisesItsAccessFirst := by
  rintro i s n k base off b (⟨rfl, rfl⟩ | ⟨rfl, rfl⟩ | ⟨rfl, rfl⟩) hk hb
  · exact storeOp_of_pcx hk hb
  · exact storeOp_of_pcx hk hb
  · exact storeOp_of_pcx hk hb

end Sys2Proof.Machine
end

section
/-! Two states from which an instruction reads the same: its outcomes are related wherever the states it
writes are (`exec_related`). With it, what no instruction reads: STS outside the conditional jumps, three
of its flags in all steps, and idr in User mode (10_state.md R33, R35). -/

namespace Sys2Proof.Machine

/-! ### Related outcomes -/

section
variable {R : State → State → Prop}

theorem relatedOut_error (a : Word) (e : Stop) :
    RelatedOut R (outcome a (.error e)) (outcome a (.error e)) := by
  cases e with
  | raise x => rfl
  | refuse r => rfl

/-- Two computations that begin with the same check or read are related where their rests are. -/
theorem relatedOut_bind {α : Type} {a : Word} {x : Except Stop α} {f g : α → Except Stop State}
    (h : ∀ v, x = .ok v → RelatedOut R (outcome a (f v)) (outcome a (g v))) :
    RelatedOut R (outcome a (x >>= f)) (outcome a (x >>= g)) := by
  cases x with
  | ok v => exact h v rfl
  | error e => exact relatedOut_error a e

theorem RelatedOut.mono {Q : State → State → Prop} {o p : Out} (h : RelatedOut R o p)
    (hRQ : ∀ t u, o = .next t → R t u → Q t u) : RelatedOut Q o p := by
  cases o with
  | next t =>
    cases p with
    | next u => exact hRQ t u rfl h
    | fault | refused => exact h
  | fault e => cases p <;> exact h
  | refused r => cases p <;> exact h

/-- Outcomes related by a function are one the image of the other. -/
theorem eq_mapNext_of_relatedOut {F : State → State} {o p : Out}
    (h : RelatedOut (fun t u => u = F t) o p) : p = mapNext F o := by
  cases o with
  | next t =>
    cases p with
    | next u => exact congrArg _ h
    | fault | refused => exact h.elim
  | fault e =>
    cases p with
    | fault f => exact congrArg _ h.symm
    | next | refused => exact h.elim
  | refused r =>
    cases p with
    | refused q => exact congrArg _ h.symm
    | next | fault => exact h.elim

end

/-! ### States that read the same -/

/-- The two states answer every check, register read and memory read alike. -/
structure SameReads (s s' : State) : Prop where
  pcx : s'.pcx = s.pcx
  cfg : s'.cfg = s.cfg
  checkFields : ∀ fs, s'.checkFields fs = s.checkFields fs
  checkWrite : ∀ r, s'.checkWrite r = s.checkWrite r
  readReg : ∀ k r, s'.readReg k r = s.readReg k r
  checkAccess : ∀ a n k, s'.checkAccess a n k = s.checkAccess a n k
  valueAt : ∀ a n, s'.valueAt a n = s.valueAt a n

/-- NOP, the jumps, INT, IRT and HLT: neither a result, nor a load, a store or a comparison. -/
def isControl : Instr → Bool
  | .nop | .jmp _ _ | .jeq _ _ | .jne _ _ | .jgt _ _ | .jge _ _ | .jlt _ _ | .jle _ _ | .int _ | .irt
  | .hlt => true
  | _ => false

/-- What the instruction writes from the two states is related. -/
structure WritesRelated (R : State → State → Prop) (i : Instr) (s s' : State) : Prop where
  computed : ∀ d v, writesFlags i = true → s.checkWrite d = .ok () →
    R ((s.putReg d v).setZ v) ((s'.putReg d v).setZ v)
  loaded : ∀ d v, writesFlags i = false → s.checkWrite d = .ok () → R (s.putReg d v) (s'.putReg d v)
  stored : ∀ a v n, writesFlags i = false → R (s.putValue a v n) (s'.putValue a v n)
  compared : ∀ x y, writesFlags i = true → R (s.setCmp x y) (s'.setCmp x y)
  control : isControl i = true → RelatedOut R (exec i s) (exec i s')

section
variable {R : State → State → Prop} {s s' : State}

theorem SameReads.instrAddr (h : SameReads s s') : s'.instrAddr = s.instrAddr := by
  rw [State.instrAddr, State.instrAddr, h.pcx]

theorem memRead_eq_of_sameReads (h : SameReads s s') (a : Word) (n : Size) (k : AccessKind) :
    s'.memRead a n k = s.memRead a n k := by
  rw [State.memRead, State.memRead, h.checkAccess, h.valueAt]

theorem writeReg_related (h : SameReads s s') {a : Word} {d : Reg} {v : Word}
    (hR : s.checkWrite d = .ok () → R (s.putReg d v) (s'.putReg d v)) :
    RelatedOut R (outcome a (s.writeReg d v)) (outcome a (s'.writeReg d v)) := by
  rw [State.writeReg, State.writeReg, h.checkWrite]
  exact relatedOut_bind fun _ hc => hR hc

theorem writeResult_eq (s : State) (d : Reg) (v : Word) :
    s.writeResult d v = s.checkWrite d >>= fun _ => .ok ((s.putReg d v).setZ v) := by
  rw [State.writeResult, State.writeReg]
  cases s.checkWrite d with
  | ok u => rfl
  | error e => rfl

theorem writeResult_related (h : SameReads s s') {a : Word} {d : Reg} {v : Word}
    (hR : s.checkWrite d = .ok () → R ((s.putReg d v).setZ v) ((s'.putReg d v).setZ v)) :
    RelatedOut R (outcome a (s.writeResult d v)) (outcome a (s'.writeResult d v)) := by
  rw [writeResult_eq, writeResult_eq, h.checkWrite]
  exact relatedOut_bind fun _ hc => hR hc

theorem unaryOp_related (h : SameReads s s') (f : Word → Word) (a d : Reg)
    (hR : ∀ v, s.checkWrite d = .ok () → R ((s.putReg d v).setZ v) ((s'.putReg d v).setZ v)) :
    RelatedOut R (unaryOp f a d s) (unaryOp f a d s') := by
  rw [unaryOp, unaryOp, h.instrAddr, h.checkFields, h.readReg]
  exact relatedOut_bind fun _ _ => relatedOut_bind fun _ _ => writeResult_related h (hR _)

theorem binaryOp_related (h : SameReads s s') (f : Word → Word → Word) (a b d : Reg)
    (hR : ∀ v, s.checkWrite d = .ok () → R ((s.putReg d v).setZ v) ((s'.putReg d v).setZ v)) :
    RelatedOut R (binaryOp f a b d s) (binaryOp f a b d s') := by
  rw [binaryOp, binaryOp, h.instrAddr, h.checkFields, h.readReg, h.readReg]
  exact relatedOut_bind fun _ _ => relatedOut_bind fun _ _ => relatedOut_bind fun _ _ =>
    writeResult_related h (hR _)

theorem shiftRegOp_related (h : SameReads s s') (f : Word → BitVec 5 → Word) (r n : Reg)
    (hR : ∀ v, s.checkWrite r = .ok () → R ((s.putReg r v).setZ v) ((s'.putReg r v).setZ v)) :
    RelatedOut R (shiftRegOp f r n s) (shiftRegOp f r n s') := by
  rw [shiftRegOp, shiftRegOp, h.instrAddr, h.checkFields, h.readReg, h.readReg]
  exact relatedOut_bind fun _ _ => relatedOut_bind fun _ _ => relatedOut_bind fun _ _ =>
    writeResult_related h (hR _)

theorem loadOp_related (h : SameReads s s') (n : Size) (ext : Word → Word) (base d : Reg)
    (off : BitVec 16) (hR : ∀ v, s.checkWrite d = .ok () → R (s.putReg d v) (s'.putReg d v)) :
    RelatedOut R (loadOp n ext base d off s) (loadOp n ext base d off s') := by
  simp only [loadOp, h.instrAddr, h.checkFields, h.readReg, memRead_eq_of_sameReads h]
  exact relatedOut_bind fun _ _ => relatedOut_bind fun _ _ => relatedOut_bind fun _ _ =>
    writeReg_related h (hR _)

theorem storeOp_related (h : SameReads s s') (n : Size) (src base : Reg) (off : BitVec 16)
    (hR : ∀ a v, R (s.putValue a v n) (s'.putValue a v n)) :
    RelatedOut R (storeOp n src base off s) (storeOp n src base off s') := by
  simp only [storeOp, State.memWrite, h.instrAddr, h.checkFields, h.readReg, h.checkAccess]
  exact relatedOut_bind fun _ _ => relatedOut_bind fun _ _ => relatedOut_bind fun _ _ =>
    relatedOut_bind fun _ _ => relatedOut_bind fun _ _ => hR _ _

theorem jumpOp_related (h : SameReads s s') (cond : Bool) (base : Reg) (off : BitVec 16)
    (hR : R s s') (hpcx : ∀ a, R { s with pcx := a } { s' with pcx := a }) :
    RelatedOut R (jumpOp cond base off s) (jumpOp cond base off s') := by
  rw [jumpOp, jumpOp, h.instrAddr, h.checkFields, h.readReg]
  refine relatedOut_bind fun _ _ => relatedOut_bind fun b _ => ?_
  cases cond with
  | true => exact hpcx (baseOffset b off)
  | false => exact hR

theorem execCmp_related (h : SameReads s s') (a b : Reg) (hR : ∀ x y, R (s.setCmp x y) (s'.setCmp x y)) :
    RelatedOut R (execCmp a b s) (execCmp a b s') := by
  rw [execCmp, execCmp, h.instrAddr, h.checkFields, h.readReg, h.readReg]
  exact relatedOut_bind fun _ _ => relatedOut_bind fun _ _ => relatedOut_bind fun _ _ => hR _ _

theorem execLli_related (h : SameReads s s') (v : BitVec 16) (d : Reg)
    (hR : ∀ v, s.checkWrite d = .ok () → R (s.putReg d v) (s'.putReg d v)) :
    RelatedOut R (execLli v d s) (execLli v d s') := by
  rw [execLli, execLli, h.instrAddr, h.checkFields]
  exact relatedOut_bind fun _ _ => writeReg_related h (hR _)

theorem execLui_related (h : SameReads s s') (v : BitVec 16) (d : Reg)
    (hR : ∀ v, s.checkWrite d = .ok () → R (s.putReg d v) (s'.putReg d v)) :
    RelatedOut R (execLui v d s) (execLui v d s') := by
  rw [execLui, execLui, h.instrAddr, h.checkFields, h.readReg]
  exact relatedOut_bind fun _ _ => relatedOut_bind fun _ _ => writeReg_related h (hR _)

/-- From states that read the same an instruction comes to related outcomes, where what it writes is
related. -/
theorem exec_related {i : Instr} (h : SameReads s s') (hR : WritesRelated R i s s') :
    RelatedOut R (exec i s) (exec i s') := by
  obtain ⟨hcomputed, hloaded, hstored, hcompared, hcontrol⟩ := hR
  cases i with
  | nop | jmp | jeq | jne | jgt | jge | jlt | jle | int | irt | hlt => exact hcontrol rfl
  | mov | not | inc | dec | shlLit | shrLit | iadd | isub =>
    exact unaryOp_related h _ _ _ fun v => hcomputed _ v rfl
  | movs a d =>
    show RelatedOut R (unaryOp _ a d s) (unaryOp (movsExtend s'.cfg.movsWidth) a d s')
    rw [h.cfg]
    exact unaryOp_related h _ _ _ fun v => hcomputed _ v rfl
  | add | sub | and | or | xor | nand | nor | xnor =>
    exact binaryOp_related h _ _ _ _ fun v => hcomputed _ v rfl
  | shlReg | shrReg => exact shiftRegOp_related h _ _ _ fun v => hcomputed _ v rfl
  | ldb | ldbs | ldh | ldhs | ldw => exact loadOp_related h _ _ _ _ _ fun v => hloaded _ v rfl
  | stb | sth | stw => exact storeOp_related h _ _ _ _ fun a v => hstored a v _ rfl
  | lli => exact execLli_related h _ _ fun v => hloaded _ v rfl
  | lui => exact execLui_related h _ _ fun v => hloaded _ v rfl
  | cmp => exact execCmp_related h _ _ fun x y => hcompared x y rfl

theorem current_of_decode {i : Instr}
    (h : decodeWord s.cfg.pcxRegnum (s.valueAt s.pcx .word) = .ok i) : s.current = some i := by
  have hd : decodeWord s.cfg.pcxRegnum (wordOfBytes (s.byteAt s.pcx) (s.byteAt (s.pcx + 1))
    (s.byteAt (s.pcx + 2)) (s.byteAt (s.pcx + 3))) = .ok i := h
  rw [State.current, hd]

/-- The step of states that read the same is related where the instruction at PCX is. -/
theorem step_related (h : SameReads s s') (hh : s'.halted = s.halted)
    (hR : ∀ i, s.current = some i →
      RelatedOut R (exec i { s with pcx := s.pcx + 4 }) (exec i { s' with pcx := s'.pcx + 4 })) :
    RelatedOut R (step s) (step s') := by
  have hfetch : s'.fetch = s.fetch := by
    rw [State.fetch, State.fetch, h.pcx, memRead_eq_of_sameReads h]
  have hp : s'.cfg.pcxRegnum = s.cfg.pcxRegnum := congrArg _ h.cfg
  have hraise (e : Exc) : RelatedOut R (raiseException s.pcx e) (raiseException s'.pcx e) :=
    congrArg e.toFault h.pcx.symm
  by_cases hhalt : s.halted = true
  · rw [step_of_halted hhalt, step_of_halted (hh.trans hhalt)]
    rfl
  · rw [step, step, if_neg hhalt, if_neg (hh ▸ hhalt), hfetch]
    cases hf : s.fetch with
    | error e =>
      cases e with
      | raise x => exact hraise x
      | refuse r => rfl
    | ok w =>
      obtain rfl : w = s.valueAt s.pcx .word := (memRead_ok_iff.mp hf).2.2
      dsimp only
      rw [hp]
      cases hd : decodeWord s.cfg.pcxRegnum (s.valueAt s.pcx .word) with
      | error e => exact hraise .illegalInstruction
      | ok i => exact hR i (current_of_decode hd)

theorem execInt_related {code : BitVec 8} (hp : s'.pcx = s.pcx) (hs : s'.saved = s.saved)
    (hl : s'.idtLookup code = s.idtLookup code)
    (hR : ∀ w, R (s.interruptEntry w) (s'.interruptEntry w)) :
    RelatedOut R (execInt code s) (execInt code s') := by
  have haddr : s'.instrAddr = s.instrAddr := by rw [State.instrAddr, State.instrAddr, hp]
  rw [execInt, execInt, hs, hl, haddr]
  cases s.saved with
  | some c => rfl
  | none =>
    cases s.idtLookup code with
    | handler w => exact hR w
    | alignmentFault a | memoryAccessViolation a => rfl

theorem execIrt_related (hs : s'.saved = s.saved)
    (hR : ∀ c, R (s.interruptReturn c).freeFlags (s'.interruptReturn c).freeFlags) :
    RelatedOut R (execIrt s) (execIrt s') := by
  rw [execIrt, execIrt, hs]
  cases s.saved with
  | none => rfl
  | some c => exact hR c

end

/-! ### Another STS -/

section
variable {s : State} {f : Sts} {i : Instr}

/-- No check and no read looks at STS. -/
theorem sameReads_withSts (s : State) (f : Sts) : SameReads s { s with sts := f } where
  pcx := rfl
  cfg := rfl
  checkFields _ := rfl
  checkWrite _ := rfl
  readReg _ _ := rfl
  checkAccess _ _ _ := rfl
  valueAt _ _ := rfl

/-- The next states are the same but for STS: its six flags are the same where the instruction writes
flags, and each STS is as it was where it writes none. -/
def StsFollows (i : Instr) (s : State) (f : Sts) (t u : State) : Prop :=
  u = { t with sts := u.sts } ∧
    if writesFlags i = true then u.sts = { t.sts with reserved := f.reserved }
    else t.sts = s.sts ∧ u.sts = f

theorem stsFollows_of_written {t u : State} (hw : writesFlags i = true)
    (hu : u = { t with sts := { t.sts with reserved := f.reserved } }) : StsFollows i s f t u := by
  subst hu
  exact ⟨rfl, by rw [if_pos hw]⟩

theorem stsFollows_of_kept {t u : State} (hw : writesFlags i = false) (ht : t.sts = s.sts)
    (hu : u = { t with sts := f }) : StsFollows i s f t u := by
  subst hu
  exact ⟨rfl, by rw [if_neg (by simp [hw])]; exact ⟨ht, rfl⟩⟩

theorem putReg_withSts (s : State) (f : Sts) (d : Reg) (v : Word) :
    State.putReg { s with sts := f } d v = { s.putReg d v with sts := f } := by
  cases d <;> rfl

theorem putValue_withSts (s : State) (f : Sts) (a v : Word) (n : Size) :
    State.putValue { s with sts := f } a v n = { s.putValue a v n with sts := f } := by
  cases n <;> rfl

/-- The kernel stack address is read of STS only where it is a function of the whole state. -/
theorem kernelStack_withSts (h : s.cfg.kernelStack.isSome = true) :
    State.kernelStack { s with sts := f } = s.kernelStack := by
  obtain ⟨w, hw⟩ := Option.isSome_iff_exists.mp h
  simp only [State.kernelStack, hw]

theorem interruptEntry_withSts (h : s.cfg.kernelStack.isSome = true) (w : Word) :
    State.interruptEntry { s with sts := f } w = { s.interruptEntry w with sts := f } := by
  rw [State.interruptEntry, kernelStack_withSts h]
  rfl

/-- A jump whose condition is the same goes the same way. -/
theorem jumpOp_withSts (hw : writesFlags i = false) {c c' : Bool} (hc : c' = c) (base : Reg)
    (off : BitVec 16) {u : State} (hu : u.sts = s.sts) :
    RelatedOut (StsFollows i s f) (jumpOp c base off u) (jumpOp c' base off { u with sts := f }) := by
  subst hc
  exact jumpOp_related (sameReads_withSts u f) c' base off (stsFollows_of_kept hw hu rfl)
    fun _ => stsFollows_of_kept hw hu rfl

/-- The flags that the conditional jumps read are the same (R33). -/
def SameConditions (f g : Sts) : Prop := f.eq = g.eq ∧ f.gt = g.gt ∧ f.lt = g.lt

/-- With another STS an instruction comes to the same, unless it is a conditional jump and one of the three
flags that these read is another. -/
theorem exec_withSts (h : s.cfg.kernelStack.isSome = true)
    (hread : (isJump i = true → ∃ base off, i = .jmp base off) ∨ SameConditions f s.sts) :
    RelatedOut (StsFollows i s f) (exec i s) (exec i { s with sts := f }) := by
  have hcond (hj : isJump i = true) (hno : ∀ base off, i ≠ .jmp base off) : SameConditions f s.sts := by
    refine hread.resolve_left fun hjmp => ?_
    obtain ⟨base, off, rfl⟩ := hjmp hj
    exact hno base off rfl
  refine exec_related (sameReads_withSts s f) ⟨fun d v hw _ => ?_, fun d v hw _ => ?_,
    fun a v n hw => ?_, fun x y hw => stsFollows_of_written hw rfl, fun hcontrol => ?_⟩
  · rw [putReg_withSts s f]
    exact stsFollows_of_written hw rfl
  · exact stsFollows_of_kept hw (State.putReg_sts s d v) (putReg_withSts s f d v)
  · exact stsFollows_of_kept hw (State.putValue_sts s a v n) (putValue_withSts s f a v n)
  · cases i with
    | nop | hlt => exact stsFollows_of_kept rfl rfl rfl
    | int code =>
      exact execInt_related rfl rfl rfl fun w => stsFollows_of_kept rfl rfl (interruptEntry_withSts h w)
    | irt => exact execIrt_related rfl fun c => stsFollows_of_written rfl rfl
    | jmp base off => exact jumpOp_withSts rfl rfl base off rfl
    | jeq base off =>
      obtain ⟨heq, -, -⟩ := hcond rfl nofun
      exact jumpOp_withSts rfl heq base off rfl
    | jne base off =>
      obtain ⟨heq, -, -⟩ := hcond rfl nofun
      exact jumpOp_withSts rfl (congrArg _ heq) base off rfl
    | jgt base off =>
      obtain ⟨-, hgt, -⟩ := hcond rfl nofun
      exact jumpOp_withSts rfl hgt base off rfl
    | jlt base off =>
      obtain ⟨-, -, hlt⟩ := hcond rfl nofun
      exact jumpOp_withSts rfl hlt base off rfl
    | jge base off =>
      obtain ⟨heq, hgt, -⟩ := hcond rfl nofun
      exact jumpOp_withSts (u := s.spendCondition) rfl (congrArg₂ s.eitherFlag hgt heq) base off rfl
    | jle base off =>
      obtain ⟨heq, -, hlt⟩ := hcond rfl nofun
      exact jumpOp_withSts (u := s.spendCondition) rfl (congrArg₂ s.eitherFlag hlt heq) base off rfl
    | _ => cases hcontrol

/-- Settles O60: an instruction that is no conditional jump reads no flag. -/
theorem onlyConditionalJumpsReadSts : Obligations.OnlyConditionalJumpsReadSts :=
  fun _ _ _ hread h => exec_withSts h (.inl hread)

theorem agreeButUnreadFlags_of_stsFollows {t u : State} (hexec : exec i s = .next t)
    (hf : AgreeButUnreadFlags s { s with sts := f }) (h : StsFollows i s f t u) :
    AgreeButUnreadFlags t u := by
  have hsts : f = { s.sts with ge := f.ge, le := f.le, z := f.z } := congrArg State.sts hf
  obtain ⟨hu, hflags⟩ := h
  split at hflags
  next hw =>
    have hres : f.reserved = t.sts.reserved :=
      (congrArg Sts.reserved hsts).trans (exec_keeps_reserved hexec).symm
    rw [hres] at hflags
    rw [hflags] at hu
    subst hu
    rfl
  next hw =>
    obtain ⟨ht, hf'⟩ := hflags
    rw [AgreeButUnreadFlags, ht, hf', ← hsts, ← hf']
    exact hu

/-- Settles O59: states that agree but for the three flags have the same conditions, so the instruction at
PCX comes to the same; the flags it writes are the same, and those it keeps agree as before. -/
theorem unreadFlagsAreUnobservable : Obligations.UnreadFlagsAreUnobservable := by
  intro s s' hagree h
  obtain ⟨f, hs'⟩ : ∃ f, s' = { s with sts := f } := ⟨_, hagree⟩
  subst hs'
  have hsts : f = { s.sts with ge := f.ge, le := f.le, z := f.z } := congrArg State.sts hagree
  have hcond : SameConditions f s.sts := by
    rw [hsts]
    exact ⟨rfl, rfl, rfl⟩
  refine step_related (sameReads_withSts s f) rfl fun i _ => ?_
  have hmoved : AgreeButUnreadFlags { s with pcx := s.pcx + 4 }
      { { s with pcx := s.pcx + 4 } with sts := f } := by
    rw [AgreeButUnreadFlags, ← hsts]
  exact (exec_withSts (s := { s with pcx := s.pcx + 4 }) h (.inr hcond)).mono fun t u ht hfollows =>
    agreeButUnreadFlags_of_stsFollows ht hmoved hfollows

end

/-! ### Another idr, in User mode -/

section
variable {s : State} {i : Instr}

theorem RegFile.set_comm (f : RegFile) {c d : Cell} (v w : Word) (h : c ≠ d) :
    (f.set c v).set d w = (f.set d w).set c v := by
  apply RegFile.ext_get
  intro e
  simp only [RegFile.get_set]
  by_cases hc : e = c
  · rw [if_pos hc, if_neg (hc ▸ h), if_pos hc]
  · rw [if_neg hc, if_neg hc]

theorem mayName_idr_of_user (h : s.mode = .user) : s.mayName .idr = false :=
  not_mayName_iff.mpr ⟨h, .inl rfl⟩

theorem readReg_setIdr (h : s.mode = .user) (v : Word) (k : ReadContext) (r : Reg) :
    (s.set .idr v).readReg k r = s.readReg k r := by
  cases r with
  | cell c =>
    by_cases hc : c = .idr
    · have hno := mayName_idr_of_user h
      have hno' : (s.set .idr v).mayName .idr = false := hno
      rw [hc, State.readReg, State.readReg, hno, hno']
      rfl
    · have hm : (s.set .idr v).mayName c = s.mayName c := rfl
      rw [State.readReg, State.readReg, hm, State.get_set, if_neg hc]
  | zero | noreg | upper => rfl

/-- In User mode no check and no read looks at idr. -/
theorem sameReads_setIdr (h : s.mode = .user) (v : Word) : SameReads s (s.set .idr v) where
  pcx := rfl
  cfg := rfl
  checkFields _ := rfl
  checkWrite _ := rfl
  readReg := readReg_setIdr h v
  checkAccess _ _ _ := rfl
  valueAt _ _ := rfl

/-- A register that may be written in User mode is not idr. -/
theorem putReg_setIdr (h : s.mode = .user) (v : Word) {d : Reg} (w : Word)
    (hd : s.checkWrite d = .ok ()) : (s.set .idr v).putReg d w = (s.putReg d w).set .idr v := by
  cases d with
  | cell c =>
    have hc : Cell.idr ≠ c := by
      rintro rfl
      have hno : s.checkWrite (.cell .idr) = .error (.raise (.protectionFault (.cell .idr))) :=
        if_neg (by rw [mayName_idr_of_user h]; exact Bool.false_ne_true)
      cases hd.symm.trans hno
    exact congrArg (fun f => { s with regs := f }) (RegFile.set_comm s.regs v w hc)
  | zero | noreg | upper => rfl

theorem putValue_setIdr (s : State) (v a w : Word) (n : Size) :
    (s.set .idr v).putValue a w n = (s.putValue a w n).set .idr v := by
  cases n <;> rfl

/-- In User mode an instruction other than INT comes to the same with another idr. -/
theorem exec_setIdr (h : s.mode = .user) (v : Word) (hi : isInt i = false) :
    RelatedOut (fun t u => u = t.set .idr v) (exec i s) (exec i (s.set .idr v)) := by
  have hreads := sameReads_setIdr h v
  refine exec_related hreads ⟨fun d w _ hd => ?_, fun d w _ hd => putReg_setIdr h v w hd,
    fun a w n _ => putValue_setIdr s v a w n, fun _ _ _ => rfl, fun hcontrol => ?_⟩
  · rw [putReg_setIdr h v w hd]
    rfl
  · cases i with
    | nop | hlt => rfl
    | int => cases hi
    | irt => exact execIrt_related rfl fun _ => rfl
    | jmp | jeq | jne | jgt | jlt => exact jumpOp_related hreads _ _ _ rfl fun _ => rfl
    | jge | jle =>
      exact jumpOp_related (sameReads_setIdr (s := s.spendCondition) h v) _ _ _ rfl fun _ => rfl
    | _ => cases hcontrol

/-- Settles O58: the step fetches and decodes the same word, and its instruction is no INT. -/
theorem userModeCannotReadIdr : Obligations.UserModeCannotReadIdr := by
  intro s v hm hint
  refine eq_mapNext_of_relatedOut (F := fun t => t.set .idr v)
    (step_related (sameReads_setIdr hm v) rfl fun i hi => ?_)
  refine exec_setIdr (s := { s with pcx := s.pcx + 4 }) hm v (Bool.eq_false_of_not_eq_true fun h => ?_)
  obtain ⟨code, rfl⟩ := isInt_iff.mp h
  exact hint code hi

end

end Sys2Proof.Machine
end

section
/-! What the instructions with a result, the loads and the stores complete with: each shape once, and each
instruction by its shape (40_data_movement.md to 42_immediate_load.md; 45_arithmetic.md to
47_shift.md). -/

namespace Sys2Proof.Machine

/-! ### What the written states differ in -/

theorem sameMemory_of_mem {s t : State} (h : t.mem = s.mem) : SameMemory s t := fun a => by
  rw [State.byteAt, h, State.byteAt]

theorem computedOnly_setZ_putReg (s : State) (d : Reg) (v : Word) :
    ComputedOnly s ((s.putReg d v).setZ v) d v :=
  ⟨State.get_putReg s d v, ⟨rfl, by simp, rfl⟩, by simp, sameMemory_of_mem (by simp), by simp, by simp,
    by simp, by simp⟩

theorem loadedOnly_putReg (s : State) (d : Reg) (v : Word) : LoadedOnly s (s.putReg d v) d v :=
  ⟨State.get_putReg s d v, ⟨by simp, by simp⟩, by simp, sameMemory_of_mem (by simp), by simp, by simp,
    by simp, by simp⟩

/-! ### What operands depend on -/

theorem reachable_congr {s t : State} (hm : t.mode = s.mode) (c : Cell) :
    t.reachable c = s.reachable c := by
  unfold State.reachable
  rw [hm]

theorem writable_congr {s t : State} (hm : t.mode = s.mode) (r : Reg) : t.writable r = s.writable r := by
  cases r with
  | cell c => exact reachable_congr hm c
  | zero | noreg | upper => rfl

theorem sourceValue_congr {s t : State} (hr : t.regs = s.regs) (hm : t.mode = s.mode) (r : Reg) :
    t.sourceValue r = s.sourceValue r := by
  cases r with
  | cell c =>
    rw [State.sourceValue, State.sourceValue, reachable_congr hm, State.get_def, State.get_def, hr]
  | zero | noreg | upper => rfl

/-! ### Each shape completes -/

section
variable {s : State} {a b d : Reg} {x y : Word}

theorem unaryOp_computes (f : Word → Word) (hx : s.sourceValue a = some x) (hd : s.writable d = true) :
    ∃ t, unaryOp f a d s = .next t ∧ ComputedOnly s t d (f x) := by
  have hc : s.checkFields [(.source, a), (.destination, d)] = .ok () :=
    checkFields_of_writable (by simp [writable_of_sourceValue hx, hd])
  exact ⟨_, unaryOp_of_checked hc (readReg_of_sourceValue hx), computedOnly_setZ_putReg s d (f x)⟩

theorem binaryOp_computes (f : Word → Word → Word) (hx : s.sourceValue a = some x)
    (hy : s.sourceValue b = some y) (hd : s.writable d = true) :
    ∃ t, binaryOp f a b d s = .next t ∧ ComputedOnly s t d (f x y) := by
  have hc : s.checkFields [(.source, a), (.source, b), (.destination, d)] = .ok () :=
    checkFields_of_writable (by simp [writable_of_sourceValue hx, writable_of_sourceValue hy, hd])
  exact ⟨_, binaryOp_of_checked hc (readReg_of_sourceValue hx) (readReg_of_sourceValue hy),
    computedOnly_setZ_putReg s d (f x y)⟩

theorem shiftRegOp_computes (f : Word → BitVec 5 → Word) (hx : s.sourceValue a = some x)
    (hd : s.writable a = true) (hy : s.sourceValue b = some y) :
    ∃ t, shiftRegOp f a b s = .next t ∧ ComputedOnly s t a (f x (shiftCount y)) := by
  have hc : s.checkFields [(.source, b), (.source, a), (.destination, a)] = .ok () :=
    checkFields_of_writable (by simp [writable_of_sourceValue hy, hd])
  exact ⟨_, shiftRegOp_of_checked hc (readReg_of_sourceValue hy) (readReg_of_sourceValue hx),
    computedOnly_setZ_putReg s a (f x (shiftCount y))⟩

theorem loadOp_loads {n : Size} (ext : Word → Word) {off : BitVec 16} (hx : s.sourceValue a = some x)
    (hd : s.writable d = true) (hal : (baseOffset x off).toNat % n.bytes = 0)
    (hacc : s.accessible (baseOffset x off) n .read = true) :
    ∃ t, loadOp n ext a d off s = .next t ∧
      LoadedOnly s t d (ext (s.valueAt (baseOffset x off) n)) := by
  have hc : s.checkFields [(.source, a), (.destination, d)] = .ok () :=
    checkFields_of_writable (by simp [writable_of_sourceValue hx, hd])
  exact ⟨_, loadOp_of_checked hc (readReg_of_sourceValue hx) (checkAccess_of_accessible hal hacc),
    loadedOnly_putReg s d _⟩

theorem storeOp_stores {n : Size} {off : BitVec 16} (hwf : Memory.wf s.mem = true)
    (hy : s.sourceValue b = some y) (hx : s.sourceValue a = some x)
    (hal : (baseOffset x off).toNat % n.bytes = 0)
    (hacc : s.accessible (baseOffset x off) n .write = true) :
    ∃ t, storeOp n b a off s = .next t ∧ StoredOnly s t (baseOffset x off) n y := by
  have hc : s.checkFields [(.source, b), (.source, a)] = .ok () :=
    checkFields_of_writable (by simp [writable_of_sourceValue hx, writable_of_sourceValue hy])
  exact ⟨_, storeOp_of_checked hc (readReg_of_sourceValue hx) (checkAccess_of_accessible hal hacc)
    (readReg_of_sourceValue hy), storedOnly_putValue _ y n hwf⟩

theorem execLli_loads (v : BitVec 16) (hd : s.writable d = true) :
    ∃ t, exec (.lli v d) s = .next t ∧ LoadedOnly s t d (v.setWidth 32) :=
  ⟨_, execLli_of_checked (checkFields_of_writable (by simp [hd])), loadedOnly_putReg s d (zext16 v)⟩

theorem execLui_loads (v : BitVec 16) (hx : s.sourceValue d = some x) :
    ∃ t, exec (.lui v d) s = .next t ∧ LoadedOnly s t d (v ++ x.extractLsb' 0 16) := by
  have hc : s.checkFields [(.source, d), (.destination, d)] = .ok () :=
    checkFields_of_writable (by simp [writable_of_sourceValue hx])
  rw [← BitVec.setWidth_eq_extractLsb' (by decide)]
  exact ⟨_, execLui_of_checked hc (readReg_of_sourceValue hx), loadedOnly_putReg s d (upperHalf v x)⟩

end

/-! ### Results -/

/-- Settles O13: by the definition of the two. -/
theorem nopAndHltComplete : Obligations.NopAndHltComplete :=
  fun _ => ⟨rfl, rfl⟩

/-- Settles O14: both are one-source results, and MOVS extends from the width the configuration gives. -/
theorem movAndMovsCopy : Obligations.MovAndMovsCopy :=
  fun s _ _ _ hx hd => ⟨unaryOp_computes (fun x => x) hx hd,
    unaryOp_computes (movsExtend s.cfg.movsWidth) hx hd⟩

/-- Settles O20: both are one-source results into their source. -/
theorem incAndDecStepByOne : Obligations.IncAndDecStepByOne :=
  fun _ _ _ hx hd => ⟨unaryOp_computes (· + 1) hx hd, unaryOp_computes (· - 1) hx hd⟩

/-- Settles O21: both are two-source results. -/
theorem addAndSubCompute : Obligations.AddAndSubCompute :=
  fun _ _ _ _ _ _ hx hy hd =>
    ⟨binaryOp_computes (· + ·) hx hy hd, binaryOp_computes (· - ·) hx hy hd⟩

/-- Settles O22: both are one-source results of the extended literal. -/
theorem iaddAndIsubCompute : Obligations.IaddAndIsubCompute :=
  fun _ _ _ literal _ hx hd =>
    ⟨unaryOp_computes (· + sext16 literal) hx hd, unaryOp_computes (· - sext16 literal) hx hd⟩

theorem xor_ones (x : Word) : x ^^^ 0xFFFFFFFF = ~~~x := BitVec.xor_allOnes

/-- Settles O23: the model inverts by XOR with ones. -/
theorem logicalInstructionsCompute : Obligations.LogicalInstructionsCompute := by
  intro s a b d x y hx hy hd
  simp only [← xor_ones]
  exact ⟨binaryOp_computes (· &&& ·) hx hy hd, binaryOp_computes (· ||| ·) hx hy hd,
    unaryOp_computes (· ^^^ 0xFFFFFFFF) hx hd, binaryOp_computes (· ^^^ ·) hx hy hd,
    binaryOp_computes (fun x y => (x &&& y) ^^^ 0xFFFFFFFF) hx hy hd,
    binaryOp_computes (fun x y => (x ||| y) ^^^ 0xFFFFFFFF) hx hy hd,
    binaryOp_computes (fun x y => (x ^^^ y) ^^^ 0xFFFFFFFF) hx hy hd⟩

/-! ### Shifts -/

theorem getLsbD_shiftLeft_eq (x : Word) (n : BitVec 5) {i : Nat} (hi : i < 32) :
    (shiftLeft x n).getLsbD i = (decide (n.toNat ≤ i) && x.getLsbD (i - n.toNat)) := by
  rw [shiftLeft, BitVec.getLsbD_shiftLeft, decide_eq_true hi, Bool.true_and, ← decide_not]
  simp only [Nat.not_lt]

theorem getLsbD_shiftRight_eq (x : Word) (n : BitVec 5) (i : Nat) :
    (shiftRight x n).getLsbD i = (decide (i + n.toNat ≤ 31) && x.getLsbD (i + n.toNat)) := by
  rw [shiftRight, BitVec.getLsbD_ushiftRight, Nat.add_comm]
  by_cases h : i + n.toNat ≤ 31
  · rw [decide_eq_true h, Bool.true_and]
  · rw [decide_eq_false h, Bool.false_and]
    exact BitVec.getLsbD_of_ge x _ (by omega)

theorem shiftCount_toNat (y : Word) : (shiftCount y).toNat = y.toNat % 32 :=
  BitVec.toNat_setWidth 5 y

/-- Settles O24: the bits of the two shifts, with the literal or the low five bits of the register as the
count. -/
theorem shiftsMoveBits : Obligations.ShiftsMoveBits := by
  intro s r c amount x y hx hd hy
  rw [← shiftCount_toNat]
  obtain ⟨t₁, ht₁, hc₁⟩ := unaryOp_computes (fun x => shiftLeft x amount) hx hd
  obtain ⟨t₂, ht₂, hc₂⟩ := unaryOp_computes (fun x => shiftRight x amount) hx hd
  obtain ⟨t₃, ht₃, hc₃⟩ := shiftRegOp_computes shiftLeft hx hd hy
  obtain ⟨t₄, ht₄, hc₄⟩ := shiftRegOp_computes shiftRight hx hd hy
  exact ⟨⟨t₁, _, ht₁, hc₁, fun i hi => getLsbD_shiftLeft_eq x amount hi⟩,
    ⟨t₂, _, ht₂, hc₂, fun i _ => getLsbD_shiftRight_eq x amount i⟩,
    ⟨t₃, _, ht₃, hc₃, fun i hi => getLsbD_shiftLeft_eq x (shiftCount y) hi⟩,
    ⟨t₄, _, ht₄, hc₄, fun i _ => getLsbD_shiftRight_eq x (shiftCount y) i⟩⟩

/-! ### Loads and stores -/

theorem setWidth_wordOfBytes_byte (b0 b1 b2 b3 : Byte) :
    (wordOfBytes b0 b1 b2 b3).setWidth 8 = b0 := by
  apply BitVec.eq_of_toNat_eq
  have h0 := b0.isLt
  rw [BitVec.toNat_setWidth, wordOfBytes_toNat]
  omega

theorem setWidth_wordOfBytes_half (b0 b1 b2 b3 : Byte) :
    (wordOfBytes b0 b1 b2 b3).setWidth 16 = b1 ++ b0 := by
  apply BitVec.eq_of_toNat_eq
  have h0 := b0.isLt
  have h1 := b1.isLt
  rw [BitVec.toNat_setWidth, wordOfBytes_toNat, toNat_append_add]
  omega

/-- The low byte or halfword of what a narrow load reads is the byte or the two bytes at its address. -/
theorem setWidth_valueAt (s : State) (a : Word) :
    (s.valueAt a .byte).setWidth 8 = s.byteAt a ∧
    (s.valueAt a .half).setWidth 16 = s.byteAt (a + 1) ++ s.byteAt a :=
  ⟨setWidth_wordOfBytes_byte .., setWidth_wordOfBytes_half ..⟩

/-- Settles O15: the five loads are one operation, each with its size and extension. -/
theorem loadsReadMemory : Obligations.LoadsReadMemory := by
  intro s base d off b hb hd
  obtain ⟨hbyte, hhalf⟩ := setWidth_valueAt s (baseOffset b off)
  refine ⟨fun hacc => ?_, fun hal hacc => ?_, fun hal hacc => ?_⟩
  · have hal : (baseOffset b off).toNat % Size.byte.bytes = 0 := Nat.mod_one _
    rw [← hbyte]
    exact ⟨loadOp_loads zextLow8 hb hd hal hacc, loadOp_loads sextLow8 hb hd hal hacc⟩
  · rw [← hhalf]
    exact ⟨loadOp_loads zextLow16 hb hd hal hacc, loadOp_loads sextLow16 hb hd hal hacc⟩
  · exact loadOp_loads (fun v => v) hb hd hal hacc

/-- Settles O16: the three stores are one operation, each with its size. -/
theorem storesWriteMemory : Obligations.StoresWriteMemory := by
  intro s src base off v b hwf hv hb
  have hbytes : (baseOffset b off).toNat % Size.byte.bytes = 0 := Nat.mod_one _
  exact ⟨storeOp_stores (n := .byte) hwf hv hb hbytes, storeOp_stores (n := .half) hwf hv hb,
    storeOp_stores (n := .word) hwf hv hb⟩

/-- Settles O30: the store leaves the base as it was, so the load reads the four bytes it wrote. -/
theorem storedWordLoadsBack : Obligations.StoredWordLoadsBack := by
  intro s t src base d off v b hwf hv hb hd hexec hacc
  obtain ⟨b', v', -, hb', ha, hv', rfl⟩ := storeOp_next hexec
  obtain rfl := Except.ok.inj ((readReg_of_sourceValue hb).symm.trans hb')
  obtain rfl := Except.ok.inj ((readReg_of_sourceValue hv).symm.trans hv')
  have hload := loadOp_loads (n := .word) (off := off) (fun v => v)
    ((sourceValue_congr (State.putValue_regs ..) (State.putValue_mode ..) base).trans hb)
    ((writable_congr (State.putValue_mode ..) d).trans hd)
    (aligned_iff.mp (checkAccess_ok_iff.mp ha).1) hacc
  rwa [State.valueAt_putValue_word _ _ hwf] at hload

theorem memWrite_ok {s t : State} {a v : Word} {n : Size} (h : s.memWrite a n v = .ok t) :
    aligned a n = true ∧ t = s.putValue a v n := by
  obtain ⟨_, hc, ht⟩ := bind_ok_iff.mp h
  exact ⟨(checkAccess_ok_iff.mp hc).1, (Except.ok.inj ht).symm⟩

/-- The four bytes of a stored word. -/
theorem byteAt_putValue_word {s : State} (a v : Word) (h : Memory.wf s.mem = true) :
    (s.putValue a v .word).byteAt a = wordByte v 0 ∧
    (s.putValue a v .word).byteAt (a + 1) = wordByte v 1 ∧
    (s.putValue a v .word).byteAt (a + 2) = wordByte v 2 ∧
    (s.putValue a v .word).byteAt (a + 3) = wordByte v 3 := by
  have hbytes := State.byteAt_putValue a v .word h
  exact ⟨by simpa using hbytes 0 (by decide), hbytes 1 (by decide), hbytes 2 (by decide),
    hbytes 3 (by decide)⟩

/-- Settles O31: the reads are aligned with the word, and give its bytes. -/
theorem narrowReadsSeeTheBytesOfAWordWrite : Obligations.NarrowReadsSeeTheBytesOfAWordWrite := by
  intro s t a hwf hwrite hacc
  obtain ⟨hal, rfl⟩ := memWrite_ok hwrite
  have hal4 : a.toNat % 4 = 0 := aligned_iff.mp hal
  obtain ⟨h0, h1, h2, h3⟩ := byteAt_putValue_word a 0xAABBCCDD hwf
  have hread : ∀ x n, x.toNat % n.bytes = 0 → (s.putValue a 0xAABBCCDD .word).memRead x n .read =
      .ok ((s.putValue a 0xAABBCCDD .word).valueAt x n) := fun x n hx =>
    memRead_of_checked (checkAccess_of_accessible hx (hacc x n))
  have hbyte : ∀ x : Word, x.toNat % Size.byte.bytes = 0 := fun x => Nat.mod_one _
  have hhalf0 : a.toNat % Size.half.bytes = 0 := by simp only [Size.bytes]; omega
  have hhalf2 : (a + 2).toNat % Size.half.bytes = 0 := by simp only [Size.bytes]; bv_omega
  have h23 : a + 2 + 1 = a + 3 := BitVec.add_assoc a 2 1
  rw [hread _ _ (hbyte _), hread _ _ (hbyte _), hread _ _ (hbyte _), hread _ _ (hbyte _),
    hread _ _ hhalf0, hread _ _ hhalf2]
  simp only [State.valueAt, h23, h0, h1, h2, h3]
  decide

/-! ### LLI and LUI -/

/-- Settles O17: what the two load is what they write to the destination. -/
theorem lliAndLuiLoadHalves : Obligations.LliAndLuiLoadHalves :=
  fun _ _ v _ hd hx => ⟨execLli_loads v hd, execLui_loads v hx⟩

theorem sourceValue_cell {s : State} {c : Cell} (h : s.reachable c = true) :
    s.sourceValue (.cell c) = some (s.get c) :=
  if_pos h

/-- After a load into a cell in reach, the cell is in reach and holds what was loaded. -/
theorem LoadedOnly.cell {s t : State} {c : Cell} {v : Word} (h : LoadedOnly s t (.cell c) v)
    (hc : s.reachable c = true) : t.get c = v ∧ t.reachable c = true := by
  obtain ⟨hwrote, -, -, -, hmode, -⟩ := h
  exact ⟨(hwrote c).trans (if_pos rfl), (reachable_congr hmode c).trans hc⟩

theorem append_halves (k : Word) :
    k.extractLsb' 16 16 ++ ((k.extractLsb' 0 16).setWidth 32 : Word).extractLsb' 0 16 = k := by
  apply BitVec.eq_of_toNat_eq
  have hk := k.isLt
  rw [toNat_append_add, toNat_extract, toNat_extract, BitVec.toNat_setWidth, toNat_extract]
  omega

/-- Settles O27: LUI keeps the low half LLI wrote; LLI writes both halves. -/
theorem lliThenLuiLoadsConstant : Obligations.LliThenLuiLoadsConstant := by
  intro s c k hc
  constructor
  · obtain ⟨t, ht, hlli⟩ := execLli_loads (d := .cell c) (k.extractLsb' 0 16) hc
    obtain ⟨hval, hreach⟩ := hlli.cell hc
    obtain ⟨u, hu, hlui⟩ := execLui_loads (k.extractLsb' 16 16) (sourceValue_cell hreach)
    rw [hval, append_halves] at hlui
    exact ⟨t, u, ht, hu, (hlui.cell hreach).1⟩
  · obtain ⟨t, ht, hlui⟩ := execLui_loads (k.extractLsb' 16 16) (sourceValue_cell hc)
    obtain ⟨-, hreach⟩ := hlui.cell hc
    obtain ⟨u, hu, hlli⟩ := execLli_loads (d := .cell c) (k.extractLsb' 0 16) hreach
    exact ⟨t, u, ht, hu, (hlli.cell hreach).1⟩

end Sys2Proof.Machine
end

section
/-! What CMP and the jumps complete with, the two in sequence, and the jumps on the flags of boot
(43_jump_branch.md; 44_compare.md; 70_reset_and_hazards.md R273). -/

namespace Sys2Proof.Machine

/-! ### The base of a jump -/

/-- The base of a jump that reads as a value passes the checks of its field. -/
theorem checkFields_of_baseValue {s : State} {r : Reg} {b : Word} (h : s.baseValue r = some b) :
    s.checkFields [(.source, r)] = .ok () ∧ s.readReg .jumpBase r = .ok b := by
  have hsource : ∀ q, s.sourceValue q = some b →
      s.checkFields [(.source, q)] = .ok () ∧ s.readReg .other q = .ok b := fun q hq =>
    ⟨checkFields_of_writable (by simp [writable_of_sourceValue hq]), readReg_of_sourceValue hq⟩
  cases r with
  | cell c => exact hsource (.cell c) h
  | zero => exact hsource .zero h
  | noreg => cases h
  | upper k =>
    obtain ⟨hk, hb⟩ : s.cfg.pcxRegnum = some k ∧ s.pcx = b := by simpa [State.baseValue] using h
    have hl : (Reg.upper k).legal s.cfg.pcxRegnum = true := decide_eq_true hk
    have hp : s.protects .source (.upper k) = false := rfl
    exact ⟨checkFields_ok_iff.mpr (by simp [hl, hp]), by rw [State.readReg, if_pos hk, hb]⟩

/-! ### Jumps -/

/-- A jump goes to base plus offset where its condition holds, and on otherwise. -/
theorem jumpOp_jumps {s : State} {base : Reg} {b : Word} (off : BitVec 16) {cond : Bool} {p : Prop}
    [Decidable p] (hb : s.baseValue base = some b) (hp : cond = true ↔ p) :
    ∃ t, jumpOp cond base off s = .next t ∧
      JumpedOnly s t (if p then b + off.signExtend 32 else s.pcx) := by
  obtain ⟨hc, hread⟩ := checkFields_of_baseValue hb
  refine ⟨_, jumpOp_of_checked hc hread, ?_⟩
  by_cases h : p
  · rw [if_pos h, if_pos (hp.mpr h)]
    exact ⟨fun _ => rfl, ⟨rfl, rfl⟩, rfl, fun _ => rfl, rfl, rfl, rfl, rfl⟩
  · rw [if_neg h, if_neg (mt hp.mp h)]
    exact ⟨fun _ => rfl, ⟨rfl, rfl⟩, rfl, fun _ => rfl, rfl, rfl, rfl, rfl⟩

/-- JGE and JLE: the same, after the draw of their condition, which nothing but the counter shows. -/
theorem jumpOp_spendCondition_jumps {s : State} {base : Reg} {b : Word} (off : BitVec 16) {cond : Bool}
    {p : Prop} [Decidable p] (hb : s.baseValue base = some b) (hp : cond = true ↔ p) :
    ∃ t, jumpOp cond base off s.spendCondition = .next t ∧
      JumpedOnly s t (if p then b + off.signExtend 32 else s.pcx) :=
  have hb' : s.spendCondition.baseValue base = some b := hb
  jumpOp_jumps off hb' hp

theorem eitherFlag_iff {s : State} {x y : Bool} : s.eitherFlag x y = true ↔
    if s.flagsUnspecified = true then Config.freeCondition s.draws = true else x = true ∨ y = true := by
  unfold State.eitherFlag
  split
  · rfl
  · exact Bool.or_eq_true_iff

/-- Settles O18: the seven jumps are one operation, each with its condition. -/
theorem jumpsGoToBasePlusOffset : Obligations.JumpsGoToBasePlusOffset := by
  intro s base off b hb
  refine ⟨?_, jumpOp_jumps off hb .rfl, jumpOp_jumps off hb (iff_of_eq (Bool.not_eq_true' _)),
    jumpOp_jumps off hb .rfl, jumpOp_spendCondition_jumps off hb eitherFlag_iff,
    jumpOp_jumps off hb .rfl, jumpOp_spendCondition_jumps off hb eitherFlag_iff⟩
  have hjmp := jumpOp_jumps (cond := true) off hb (iff_true_intro rfl)
  rwa [if_pos trivial] at hjmp

/-! ### CMP -/

/-- Settles O19: the flags are those of `SetCmp`. -/
theorem cmpSetsTheSixFlags : Obligations.CmpSetsTheSixFlags := by
  intro s a b x y hx hy
  have hc : s.checkFields [(.source, a), (.source, b)] = .ok () :=
    checkFields_of_writable (by simp [writable_of_sourceValue hx, writable_of_sourceValue hy])
  exact ⟨s.setCmp x y, execCmp_of_checked hc (readReg_of_sourceValue hx) (readReg_of_sourceValue hy),
    rfl, rfl, fun _ => rfl, rfl, fun _ => rfl, rfl, rfl, rfl, rfl⟩

/-- CMP of operands that read as `x` and `y` answers `SetCmp` of them. -/
theorem eq_setCmp_of_next {s t : State} {a b : Reg} {x y : Word} (hx : s.sourceValue a = some x)
    (hy : s.sourceValue b = some y) (h : exec (.cmp a b) s = .next t) : t = s.setCmp x y := by
  obtain ⟨x', y', -, hx', hy', rfl⟩ := execCmp_next h
  obtain rfl := Except.ok.inj ((readReg_of_sourceValue hx).symm.trans hx')
  obtain rfl := Except.ok.inj ((readReg_of_sourceValue hy).symm.trans hy')
  rfl

theorem sts_setCmp (s : State) (x y : Word) : (s.setCmp x y).sts =
    ⟨decide (x = y), decide (x.toInt > y.toInt), decide (x.toInt ≥ y.toInt), decide (x.toInt < y.toInt),
      decide (x.toInt ≤ y.toInt), decide (x = y), s.sts.reserved⟩ := rfl

theorem toWord_toNat (f : Sts) : f.toWord.toNat =
    f.reserved.toNat * 64 + f.z.toNat * 32 + f.le.toNat * 16 + f.lt.toNat * 8 + f.ge.toNat * 4 +
      f.gt.toNat * 2 + f.eq.toNat := by
  simp only [Sts.toWord, toNat_append_add, BitVec.toNat_ofBool]
  omega

/-- STS[5:0] is the six flags, Equal lowest (R31). -/
theorem toWord_low_toNat (f : Sts) : (f.toWord.extractLsb' 0 6).toNat =
    f.z.toNat * 32 + f.le.toNat * 16 + f.lt.toNat * 8 + f.ge.toNat * 4 + f.gt.toNat * 2 + f.eq.toNat := by
  have hz := f.z.toNat_le
  have hle := f.le.toNat_le
  have hlt := f.lt.toNat_le
  have hge := f.ge.toNat_le
  have hgt := f.gt.toNat_le
  have heq := f.eq.toNat_le
  rw [toNat_extract, toWord_toNat]
  omega

/-- Settles O28: by the signed order of the operands the flags are fixed. -/
theorem statusWordAfterCmp : Obligations.StatusWordAfterCmp := by
  intro s t a b x y hx hy hexec
  obtain rfl := eq_setCmp_of_next hx hy hexec
  apply BitVec.eq_of_toNat_eq
  rw [toWord_low_toNat, sts_setCmp]
  rcases lt_trichotomy x.toInt y.toInt with hlt | heq | hgt
  · have hne : x ≠ y := fun h => hlt.ne (congrArg _ h)
    simp [hne, hlt, hlt.le, hlt.not_ge, hlt.not_gt]
  · obtain rfl := BitVec.eq_of_toInt_eq heq
    simp
  · have hne : x ≠ y := fun h => hgt.ne (congrArg _ h.symm)
    simp [hne, hgt, hgt.le, hgt.not_ge, hgt.not_gt]

/-! ### A conditional jump after CMP -/

theorem eitherFlag_setCmp {s : State} {x y : Word} (p q : Prop) [Decidable p] [Decidable q] :
    (s.setCmp x y).eitherFlag (decide p) (decide q) = true ↔ p ∨ q := by
  rw [State.eitherFlag_of_specified rfl, Bool.or_eq_true_iff, decide_eq_true_iff, decide_eq_true_iff]

theorem gt_or_eq_iff {x y : Word} : x.toInt > y.toInt ∨ x = y ↔ x.toInt ≥ y.toInt := by
  rw [← BitVec.toInt_inj, ge_iff_le, le_iff_lt_or_eq, gt_iff_lt, @eq_comm _ x.toInt]

theorem lt_or_eq_iff {x y : Word} : x.toInt < y.toInt ∨ x = y ↔ x.toInt ≤ y.toInt := by
  rw [← BitVec.toInt_inj, le_iff_lt_or_eq]

/-- Settles O29: the conditions of the jumps on the flags of `SetCmp` are the six relations. -/
theorem jumpsAfterCmpFollowSignedOrder : Obligations.JumpsAfterCmpFollowSignedOrder := by
  intro s t a b base off x y v hx hy hexec hv
  obtain rfl := eq_setCmp_of_next hx hy hexec
  obtain ⟨u₁, h₁, -, -, hp₁, -⟩ := jumpOp_jumps (cond := decide (x = y)) off hv decide_eq_true_iff
  obtain ⟨u₂, h₂, -, -, hp₂, -⟩ := jumpOp_jumps (cond := !decide (x = y)) (p := x ≠ y) off hv (by simp)
  obtain ⟨u₃, h₃, -, -, hp₃, -⟩ :=
    jumpOp_jumps (cond := decide (x.toInt > y.toInt)) off hv decide_eq_true_iff
  obtain ⟨u₄, h₄, -, -, hp₄, -⟩ := jumpOp_spendCondition_jumps off hv
    ((eitherFlag_setCmp (s := s) (x := x) (y := y) (x.toInt > y.toInt) (x = y)).trans gt_or_eq_iff)
  obtain ⟨u₅, h₅, -, -, hp₅, -⟩ :=
    jumpOp_jumps (cond := decide (x.toInt < y.toInt)) off hv decide_eq_true_iff
  obtain ⟨u₆, h₆, -, -, hp₆, -⟩ := jumpOp_spendCondition_jumps off hv
    ((eitherFlag_setCmp (s := s) (x := x) (y := y) (x.toInt < y.toInt) (x = y)).trans lt_or_eq_iff)
  exact ⟨⟨u₁, h₁, hp₁⟩, ⟨u₂, h₂, hp₂⟩, ⟨u₃, h₃, hp₃⟩, ⟨u₄, h₄, hp₄⟩, ⟨u₅, h₅, hp₅⟩, ⟨u₆, h₆, hp₆⟩⟩

/-! ### After reset -/

theorem toWord_boot (cfg : Config) (regs : RegFile) (mem : Memory) :
    (State.boot cfg regs mem).sts.toWord = 0 := by
  show Sts.toWord ⟨false, false, false, false, false, false, 0⟩ = 0
  decide

/-- Settles O54: by the definition of the state after reset. -/
theorem stateAfterReset : Obligations.StateAfterReset :=
  ⟨⟨_, _, [], rfl, rfl⟩, fun cfg regs mem =>
    ⟨toWord_boot cfg regs mem, rfl, rfl, rfl, rfl, rfl, rfl⟩⟩

/-- Settles O55: all flags are 0 and specified, so only the condition of JNE holds. -/
theorem onlyJneIsTakenAtBoot : Obligations.OnlyJneIsTakenAtBoot := by
  intro cfg regs mem off
  have hzero : (State.boot cfg regs mem).baseValue .zero = some 0 := rfl
  have hstay : ∃ t, jumpOp false .zero off (State.boot cfg regs mem) = .next t ∧
      t.pcx = cfg.resetPc := by
    obtain ⟨t, ht, -, -, hpcx, -⟩ := jumpOp_jumps (cond := false) (p := False) off hzero (by simp)
    exact ⟨t, ht, hpcx⟩
  constructor
  · obtain ⟨t, ht, -, -, hpcx, -⟩ := jumpOp_jumps (cond := true) (p := True) off hzero (by simp)
    exact ⟨t, ht, hpcx.trans (by simp)⟩
  · rintro i (rfl | rfl | rfl | rfl | rfl) <;> exact hstay

end Sys2Proof.Machine
end

section
/-! The entry to and return from an interrupt, the fetch and decoding of a step, the end of a run, the
registers by number, and the extensions bit by bit (48_system.md; 10_state.md R21 to R30; 00_scope.md
R10). -/

namespace Sys2Proof.Machine

/-! ### INT and IRT -/

section
variable {s : State} {code : BitVec 8}

theorem execInt_of_handler {h : Word} (hs : s.saved = none) (hl : s.idtLookup code = .handler h) :
    execInt code s = .next (s.interruptEntry h) := by
  rw [execInt, hs, hl]

theorem execInt_of_misaligned {a : Word} (hs : s.saved = none)
    (hl : s.idtLookup code = .alignmentFault a) :
    execInt code s = .fault (.alignmentFault (s.pcx - 4) a) := by
  rw [execInt, hs, hl]
  rfl

theorem execInt_of_inaccessible {a : Word} (hs : s.saved = none)
    (hl : s.idtLookup code = .memoryAccessViolation a) :
    execInt code s = .fault (.memoryAccessViolation (s.pcx - 4) a) := by
  rw [execInt, hs, hl]
  rfl

theorem execIrt_of_saved {c : Saved} (hs : s.saved = some c) :
    execIrt s = .next (s.interruptReturn c).freeFlags := by
  rw [execIrt, hs]

theorem get_interruptEntry_ret (s : State) (h : Word) : (s.interruptEntry h).get .ret = s.pcx := rfl

theorem get_interruptEntry_bpr (s : State) (h : Word) :
    (s.interruptEntry h).get .bpr = s.kernelStack := rfl

theorem get_interruptReturn_bpr (s : State) (c : Saved) : (s.interruptReturn c).get .bpr = c.bpr := rfl

end

/-- Settles O25: with every read accessible the lookup is the parameter's answer, and INT enters its
handler. -/
theorem intEntersTheHandler : Obligations.IntEntersTheHandler := by
  intro s code h hs hread hl
  have hlookup : s.idtLookup code = .handler h := (idtLookup_of_accessible hread).trans hl
  exact ⟨_, execInt_of_handler hs hlookup, get_interruptEntry_ret s h, get_interruptEntry_bpr s h,
    fun _ => get_interruptEntry_ne, rfl, rfl, rfl, ⟨rfl, rfl⟩, fun _ => rfl, rfl, rfl⟩

/-- Settles O26: the return, with free flags after it. -/
theorem irtReturnsToTheSavedContext : Obligations.IrtReturnsToTheSavedContext := by
  intro s c hs
  exact ⟨_, execIrt_of_saved hs, rfl, get_interruptReturn_bpr s c, rfl, rfl,
    fun _ => get_interruptReturn_ne, rfl, rfl, fun _ => rfl, rfl, rfl⟩

/-- Settles O32: the entry saves the mode and bpr, and ret is the PCX to return to. -/
theorem intThenIrtRestores : Obligations.IntThenIrtRestores := by
  intro s t code hexec
  obtain ⟨-, h, -, rfl⟩ := execInt_next hexec
  refine ⟨_, execIrt_of_saved (State.interruptEntry_saved s h), rfl, rfl, rfl, rfl, fun c hr => ?_,
    fun _ => rfl, rfl⟩
  by_cases hb : c = .bpr
  · rw [hb]
    rfl
  · exact (get_interruptReturn_ne hb).trans (get_interruptEntry_ne hr hb)

/-- Settles O46: the first read that is not accessible decides the lookup, else the parameter's answer
does, and INT raises what the lookup comes to. -/
theorem intRaisesWhatItsLookupRaises : Obligations.IntRaisesWhatItsLookupRaises := by
  intro s code a hs
  refine ⟨fun before r after hreads hbefore hr => ?_, fun hread hl => ?_, fun hread hl => ?_⟩
  · exact execInt_of_inaccessible hs (idtLookup_of_inaccessible hreads hbefore hr)
  · exact execInt_of_misaligned hs ((idtLookup_of_accessible hread).trans hl)
  · exact execInt_of_inaccessible hs ((idtLookup_of_accessible hread).trans hl)

/-- Settles O47: both look at the saved context first. -/
theorem nestedIntAndBareIrtAreRefused : Obligations.NestedIntAndBareIrtAreRefused := by
  intro s code
  refine ⟨fun hs => ?_, fun hs => ?_⟩
  · obtain ⟨c, hc⟩ := Option.isSome_iff_exists.mp hs
    show execInt code s = _
    rw [execInt, hc]
  · show execIrt s = _
    rw [execIrt, hs]

/-! ### The step -/

theorem decodeWord_of_decodeBytes {p : Option (Fin 8)} {b0 b1 b2 b3 : Byte} {i : Instr}
    (h : decodeBytes p [b0, b1, b2, b3] = .ok (i, [])) :
    decodeWord p (wordOfBytes b0 b1 b2 b3) = .ok i := by
  rw [decodeBytes, decode_bind_ok_iff] at h
  obtain ⟨j, hj, h⟩ := h
  cases h
  exact hj

/-- Settles O9: the fetched word is that of the four bytes. -/
theorem stepRunsDecodedInstruction : Obligations.StepRunsDecodedInstruction :=
  fun _ _ hf hd => step_of_decode_ok hf (decodeWord_of_decodeBytes hd)

theorem tableWord_toNat (w : Word) : tableWord 32 w.toNat = w := by
  have hw : w.toNat % 2 ^ 32 = w.toNat := Nat.mod_eq_of_lt w.isLt
  rw [tableWord, Nat.min_self, hw, BitVec.ofNat_toNat, BitVec.setWidth_eq]

/-- Settles O10: the four bytes at PCX are those of the stored word, which decodes to its instruction. -/
theorem storedInstructionRunsNext : Obligations.StoredInstructionRunsNext := by
  intro s i hwf hi hf
  rw [State.withFetchWord, tableWord_toNat] at hf ⊢
  have hd : decodeWord s.cfg.pcxRegnum
      ((s.putValue s.pcx (encode i) .word).valueAt s.pcx .word) = .ok i := by
    rw [State.valueAt_putValue_word _ _ hwf]
    exact decodeOfEncodeGivesInstruction _ i hi
  exact step_of_decode_ok hf hd

/-- Settles O11: the two checks of the fetch, in their order. -/
theorem fetchRaisesAlignmentThenAccess : Obligations.FetchRaisesAlignmentThenAccess := by
  intro s hh
  refine ⟨fun hmis => ?_, fun hal hno => ?_⟩
  · exact step_of_fetch_error hh (checkAccess_of_misaligned (n := .word) .fetch hmis)
  · exact step_of_fetch_error hh (checkAccess_of_inaccessible (n := .word) hal hno)

/-- A run of `k` steps goes on from the state it leads to. -/
theorem run_add {M : Host.Core} {k : Nat} (j : Nat) {s t : M.State} (h : M.run k s = .next t) :
    M.run (k + j) s = M.run j t := by
  induction k generalizing s with
  | zero =>
    obtain rfl := Host.Outcome.next.inj h
    rw [Nat.zero_add]
  | succ k ih =>
    rw [Nat.add_right_comm]
    cases hs : M.step s with
    | next u =>
      rw [Host.Core.run, hs] at h ⊢
      exact ih h
    | fault | refused =>
      rw [Host.Core.run, hs] at h
      cases h

theorem run_of_fault {M : Host.Core} (j : Nat) {s : M.State} {f : M.Fault} (h : M.step s = .fault f) :
    M.run (j + 1) s = .fault f := by
  rw [Host.Core.run, h]

/-- Settles O12: the run goes on from a halted state, which has no step. -/
theorem noStepAfterTheEnd : Obligations.NoStepAfterTheEnd := by
  rintro k j s t ⟨hrun, hhalt⟩
  exact (run_add (j + 1) hrun).trans (run_of_fault (M := Sys2Proof.core) j (step_of_halted hhalt))

/-! ### Registers by number -/

section
variable {s : State} {n : BitVec 5}

theorem ofNum_of_cell {c : Cell} (h : c.num = n) : Reg.ofNum n = .cell c := by
  subst h
  exact Reg.ofNum_num (.cell c)

theorem ofNum_of_upper {k : Fin 8} (h : n.toNat = 0x18 + k.val) : Reg.ofNum n = .upper k := by
  have hn : n = (Reg.upper k).num := by
    apply BitVec.eq_of_toNat_eq
    rw [h]
    clear h
    revert k
    decide
  rw [hn, Reg.ofNum_num]

/-- R21, R35: idr and mmr are the cells numbered from 0x14 on. -/
theorem privileged_iff_num (c : Cell) : 0x14 ≤ c.num.toNat ↔ c = .idr ∨ c = .mmr := by
  cases c <;> decide

theorem mayName_of_num_le {c : Cell} (h : c.num.toNat ≤ 0x13) : s.mayName c = true := by
  refine Bool.eq_true_of_not_eq_false fun hno => ?_
  have hge := (privileged_iff_num c).mpr (not_mayName_iff.mp hno).2
  omega

theorem not_mayName_of_user {c : Cell} (hm : s.mode = .user) (h : 0x14 ≤ c.num.toNat) :
    s.mayName c = false :=
  not_mayName_iff.mpr ⟨hm, (privileged_iff_num c).mp h⟩

end

/-- Settles O33: number by number, the cells by their mode check. -/
theorem registerReadByNumber : Obligations.RegisterReadByNumber := by
  intro s context n
  refine ⟨fun c hc hle => ?_, fun c hc hge _ => ?_, ?_, ?_, fun k hk => ?_⟩
  · rw [ofNum_of_cell hc]
    exact if_pos (mayName_of_num_le (hc ▸ hle))
  · rw [ofNum_of_cell hc, State.readReg]
    by_cases hu : s.mode = .user
    · rw [if_pos hu, not_mayName_of_user hu (hc ▸ hge)]
      rfl
    · have hm : s.mayName c = true :=
        Bool.eq_true_of_not_eq_false fun hno => hu (not_mayName_iff.mp hno).1
      rw [if_neg hu, if_pos hm]
  · rintro rfl
    rfl
  · rintro rfl
    rfl
  · rw [ofNum_of_upper hk]
    cases context <;> rfl

/-- Settles O34: number by number, the cells by their mode check. -/
theorem registerWriteByNumber : Obligations.RegisterWriteByNumber := by
  intro s n v
  refine ⟨fun c hc hreach => ?_, fun c hc hge hm => ?_, ?_, ?_, fun k hk => ?_⟩
  · have hmay : s.mayName c = true := by
      rcases hreach with hle | hm
      · exact mayName_of_num_le (hc ▸ hle)
      · exact mayName_of_kernel hm c
    have hp : s.protects .destination (.cell c) = false := by rw [State.protects, hmay]; rfl
    rw [ofNum_of_cell hc]
    exact ⟨s.set c v, writeReg_of_checked v rfl hp, rfl, fun e => State.get_set s c e v⟩
  · rw [ofNum_of_cell hc, State.writeReg, State.checkWrite, not_mayName_of_user hm (hc ▸ hge)]
    rfl
  · rintro rfl
    rfl
  · rintro rfl
    rfl
  · rw [ofNum_of_upper hk, State.writeReg, State.checkWrite]
    split <;> rfl

/-! ### Extension -/

theorem getLsbD_signExtend_min {w : Nat} (x : BitVec w) {i : Nat} (hi : i < 32) (hw : 0 < w) :
    (x.signExtend 32).getLsbD i = x.getLsbD (min i (w - 1)) := by
  rw [BitVec.getLsbD_signExtend, decide_eq_true hi, Bool.true_and, BitVec.msb_eq_getLsbD_last]
  split
  next h => rw [Nat.min_eq_left (by omega)]
  next h => rw [Nat.min_eq_right (by omega)]

/-- A low part of a word has the word's bits, up to its width. -/
theorem getLsbD_setWidth_low (x : Word) {n i : Nat} (hi : i < n) :
    (x.setWidth n).getLsbD i = x.getLsbD i := by
  rw [BitVec.getLsbD_setWidth, decide_eq_true hi, Bool.true_and]

theorem getLsbD_zeroExtend {w : Nat} (x : BitVec w) {i : Nat} (hi : i < 32) :
    (x.setWidth 32).getLsbD i = (decide (i < w) && x.getLsbD i) := by
  rw [BitVec.getLsbD_setWidth, decide_eq_true hi, Bool.true_and]
  by_cases h : i < w
  · rw [decide_eq_true h, Bool.true_and]
  · rw [decide_eq_false h, Bool.false_and]
    exact BitVec.getLsbD_of_ge x i (by omega)

theorem getLsbD_zeroExtend_low (x : Word) (n : Nat) {i : Nat} (hi : i < 32) :
    ((x.setWidth n).setWidth 32).getLsbD i = (decide (i < n) && x.getLsbD i) := by
  rw [getLsbD_zeroExtend _ hi, BitVec.getLsbD_setWidth, ← Bool.and_assoc, Bool.and_self]

/-- Settles O36: sign extension repeats the top bit, zero extension is 0 above the value. -/
theorem extensionsFillTheUpperBits : Obligations.ExtensionsFillTheUpperBits := by
  intro w h i hi
  refine ⟨?_, getLsbD_zeroExtend_low w 8 hi, ?_, getLsbD_zeroExtend_low w 16 hi,
    getLsbD_signExtend_min h hi (by decide), getLsbD_zeroExtend h hi⟩
  · exact (getLsbD_signExtend_min _ hi (by decide)).trans (getLsbD_setWidth_low w (by omega))
  · exact (getLsbD_signExtend_min _ hi (by decide)).trans (getLsbD_setWidth_low w (by omega))

end Sys2Proof.Machine
end
